-- ==== Sys2Proof/Word.lean ====
section
/-! DEFINITION. The word types of CORE: a byte of FB or PB, a 16-bit field, a 32-bit register. -/

namespace Sys2Proof

/-- One byte of the frame buffer or of the payload buffer (R32, R33). -/
abbrev Byte := BitVec 8

/-- A 16-bit register or a 16-bit field of the command word (R39, R112). -/
abbrev Half := BitVec 16

/-- A 32-bit register or command word (R40, R45). -/
abbrev Word := BitVec 32

end Sys2Proof
end

