-- ==== Sys2Proof/Syntax.lean ====
section
/-! DEFINITION. The commands of CORE (R117), one constructor per row of spec/opcode_table.json, each with the
fields of the command word it uses. -/

namespace Sys2Proof

/-- The field K of the command word (R111, R113). -/
inductive Kind where
  /-- K = 0. -/
  | ip
  /-- K = 1. -/
  | udp
  /-- K = 2. -/
  | tcp
  /-- K = 3, which no legal CHECKSUM has (R113). -/
  | reserved
deriving DecidableEq, Repr

/-- The commands (R117). `l` is the field L (R112), `m`, `s` and `z` the booleans M, S and Z (R114), `k` the
field K (R113). -/
inductive Instr where
  /-- 0x01 INIT_ADDR (R350). -/
  | initAddr
  /-- 0x02 CHECKSUM (R150). -/
  | checksum (k : Kind) (l : Half)
  /-- 0x03 IS_ARP_FOR_ME (R170). -/
  | isArpForMe (l : Half)
  /-- 0x04 IS_IP_FOR_ME (R171). -/
  | isIpForMe (l : Half)
  /-- 0x05 CLASSIFY (R172). -/
  | classify (l : Half)
  /-- 0x06 SWAP_ETH (R190). -/
  | swapEth
  /-- 0x07 SWAP_IP (R192). -/
  | swapIp
  /-- 0x08 FILL_IP_CSUM (R194). -/
  | fillIpCsum
  /-- 0x09 NEW_IP_HDR_TCP (R196). -/
  | newIpHdrTcp (l : Half)
  /-- 0x0A ARP_REPLY (R220). -/
  | arpReply
  /-- 0x0B ARP_REQUEST (R222). -/
  | arpRequest
  /-- 0x0C IS_ARP_REPLY_FOR_ME (R224). -/
  | isArpReplyForMe
  /-- 0x0D ECHO_REPLY (R240). -/
  | echoReply (l : Half)
  /-- 0x0E UDP_REPLY (R260). -/
  | udpReply (l : Half)
  /-- 0x0F BUILD_TCP_HDR (R288). -/
  | buildTcpHdr (m s : Bool)
  /-- 0x10 TCP_SYNACK (R282). -/
  | tcpSynack
  /-- 0x11 TCP_ACK_FROM_ANY (R283). -/
  | tcpAckFromAny
  /-- 0x12 TCP_ACK_WITH_DATA (R285). -/
  | tcpAckWithData (l : Half)
  /-- 0x13 TCP_RESPOND_DATA (R286). -/
  | tcpRespondData (l : Half)
  /-- 0x14 TCP_CLIENT (R287). -/
  | tcpClient (m z : Bool) (l : Half)
  /-- 0x15 INBOUND_INFO (R292). -/
  | inboundInfo
  /-- 0x16 GET_DATA_OFFSET (R293). -/
  | getDataOffset
  /-- 0x17 GET_DATA_LEN (R294). -/
  | getDataLen
deriving DecidableEq, Repr

end Sys2Proof
end

