-- ==== Sys2Proof/WellFormed.lean ====
section
/-! DEFINITION. Which commands a legal command word can carry. The types of the fields leave one check: the
reserved checksum kind (R113). -/

namespace Sys2Proof

/-- A checksum kind other than the reserved one (R113). -/
def Kind.wellFormed : Kind → Bool
  | .ip | .udp | .tcp => true
  | .reserved => false

/-- A command some legal word encodes (R115): CHECKSUM needs K ≠ 3, every other command is always well formed. -/
def Instr.wellFormed : Instr → Bool
  | .checksum k _ => k.wellFormed
  | .initAddr | .isArpForMe _ | .isIpForMe _ | .classify _ | .swapEth | .swapIp | .fillIpCsum
  | .newIpHdrTcp _ | .arpReply | .arpRequest | .isArpReplyForMe | .echoReply _ | .udpReply _
  | .buildTcpHdr _ _ | .tcpSynack | .tcpAckFromAny | .tcpAckWithData _ | .tcpRespondData _
  | .tcpClient _ _ _ | .inboundInfo | .getDataOffset | .getDataLen => true

end Sys2Proof
end

