-- ==== Sys2Proof/Decode.lean ====
section
/-! DEFINITION. The command word (R110 to R119): its fields, the opcode table, the decoder, which is total on
every 32-bit word and rejects by name, and the encoder, written from the same table. -/

namespace Sys2Proof

/-- OP, bits 5:0 (R111). -/
def opField (w : Word) : BitVec 6 := w.extractLsb' 0 6

/-- M, bit 6: includeMss (R111, R114). -/
def mField (w : Word) : Bool := w.getLsbD 6

/-- S, bit 7: copySeqFromInbound (R111, R114). -/
def sField (w : Word) : Bool := w.getLsbD 7

/-- Z, bit 8: clearAckOnSyn (R111, R114). -/
def zField (w : Word) : Bool := w.getLsbD 8

/-- K, bits 10:9 (R111). -/
def kField (w : Word) : BitVec 2 := w.extractLsb' 9 2

/-- L, bits 31:16 (R111, R112). -/
def lField (w : Word) : Half := w.extractLsb' 16 16

/-- The checksum kind a value of K selects (R113). -/
def Kind.ofBits (k : BitVec 2) : Kind :=
  if k = 0 then .ip else if k = 1 then .udp else if k = 2 then .tcp else .reserved

/-- The value of K that selects a checksum kind (R113). -/
def Kind.bits : Kind → BitVec 2
  | .ip => 0
  | .udp => 1
  | .tcp => 2
  | .reserved => 3

/-- Why a command word is illegal; each makes the command raise Error(ILLEGAL) (R115, R118, R113). -/
inductive DecodeError where
  /-- Opcode 0x00 or 0x18 to 0x3F (R118). -/
  | reservedOpcode
  /-- A field the command does not use is not zero (R115). -/
  | nonzeroUnusedField
  /-- CHECKSUM with K = 3 (R113). -/
  | reservedKind
deriving DecidableEq, Repr

/-- One row of the opcode table: the bits that must match, their values, and the command a word of the row is. -/
structure Row where
  mnemonic : String
  mask : Word
  pattern : Word
  build : Word → Instr

/-- The rows without a field (mask 0xFFFFFFFF) and those with the field L alone (mask 0x0000FFFF). -/
def plainRow (mnemonic : String) (op : Word) (i : Instr) : Row :=
  ⟨mnemonic, 0xFFFFFFFF, op, fun _ => i⟩

/-- See `plainRow`. -/
def lengthRow (mnemonic : String) (op : Word) (f : Half → Instr) : Row :=
  ⟨mnemonic, 0x0000FFFF, op, fun w => f (lField w)⟩

/-- The opcode table (R117; spec/opcode_table.json). -/
def opcodeTable : List Row :=
  [ plainRow "INIT_ADDR" 0x01 .initAddr,
    ⟨"CHECKSUM", 0x0000F9FF, 0x02, fun w => .checksum (Kind.ofBits (kField w)) (lField w)⟩,
    lengthRow "IS_ARP_FOR_ME" 0x03 .isArpForMe,
    lengthRow "IS_IP_FOR_ME" 0x04 .isIpForMe,
    lengthRow "CLASSIFY" 0x05 .classify,
    plainRow "SWAP_ETH" 0x06 .swapEth,
    plainRow "SWAP_IP" 0x07 .swapIp,
    plainRow "FILL_IP_CSUM" 0x08 .fillIpCsum,
    lengthRow "NEW_IP_HDR_TCP" 0x09 .newIpHdrTcp,
    plainRow "ARP_REPLY" 0x0A .arpReply,
    plainRow "ARP_REQUEST" 0x0B .arpRequest,
    plainRow "IS_ARP_REPLY_FOR_ME" 0x0C .isArpReplyForMe,
    lengthRow "ECHO_REPLY" 0x0D .echoReply,
    lengthRow "UDP_REPLY" 0x0E .udpReply,
    ⟨"BUILD_TCP_HDR", 0xFFFFFF3F, 0x0F, fun w => .buildTcpHdr (mField w) (sField w)⟩,
    plainRow "TCP_SYNACK" 0x10 .tcpSynack,
    plainRow "TCP_ACK_FROM_ANY" 0x11 .tcpAckFromAny,
    lengthRow "TCP_ACK_WITH_DATA" 0x12 .tcpAckWithData,
    lengthRow "TCP_RESPOND_DATA" 0x13 .tcpRespondData,
    ⟨"TCP_CLIENT", 0x0000FEBF, 0x14, fun w => .tcpClient (mField w) (zField w) (lField w)⟩,
    plainRow "INBOUND_INFO" 0x15 .inboundInfo,
    plainRow "GET_DATA_OFFSET" 0x16 .getDataOffset,
    plainRow "GET_DATA_LEN" 0x17 .getDataLen ]

/-- The row of an opcode, if it is not reserved (R118, R119). -/
def rowOf (op : BitVec 6) : Option Row := opcodeTable.find? fun r => opField r.pattern == op

/-- The decode procedure (R119), after its check of STATUS.FAULT, which is `Machine.writeCmd`'s. -/
def decode (w : Word) : Except DecodeError Instr :=
  match rowOf (opField w) with
  | none => .error .reservedOpcode
  | some r =>
    if w &&& r.mask = r.pattern then
      if (r.build w).wellFormed then .ok (r.build w) else .error .reservedKind
    else .error .nonzeroUnusedField

/-- The layout `LLLLLLLLLLLLLLLL 00000 KK Z S M OOOOOO` (R111). -/
def cmdWord (l : Half) (k : BitVec 2) (z s m : Bool) (op : BitVec 6) : Word :=
  l ++ 0#5 ++ k ++ BitVec.ofBool z ++ BitVec.ofBool s ++ BitVec.ofBool m ++ op

/-- The word of a command that uses no field but L. -/
def lengthWord (l : Half) (op : BitVec 6) : Word := cmdWord l 0 false false false op

/-- The word that encodes a command (R111, R115, R117): every field the command does not use is zero. -/
def encode : Instr → Word
  | .initAddr => lengthWord 0 0x01
  | .checksum k l => cmdWord l k.bits false false false 0x02
  | .isArpForMe l => lengthWord l 0x03
  | .isIpForMe l => lengthWord l 0x04
  | .classify l => lengthWord l 0x05
  | .swapEth => lengthWord 0 0x06
  | .swapIp => lengthWord 0 0x07
  | .fillIpCsum => lengthWord 0 0x08
  | .newIpHdrTcp l => lengthWord l 0x09
  | .arpReply => lengthWord 0 0x0A
  | .arpRequest => lengthWord 0 0x0B
  | .isArpReplyForMe => lengthWord 0 0x0C
  | .echoReply l => lengthWord l 0x0D
  | .udpReply l => lengthWord l 0x0E
  | .buildTcpHdr m s => cmdWord 0 0 false s m 0x0F
  | .tcpSynack => lengthWord 0 0x10
  | .tcpAckFromAny => lengthWord 0 0x11
  | .tcpAckWithData l => lengthWord l 0x12
  | .tcpRespondData l => lengthWord l 0x13
  | .tcpClient m z l => cmdWord l 0 z false m 0x14
  | .inboundInfo => lengthWord 0 0x15
  | .getDataOffset => lengthWord 0 0x16
  | .getDataLen => lengthWord 0 0x17

/-- The 32-bit command word whose bits are `w`, the bits from `nbits` up being zero (R110: every command word
is 32 bits long). -/
def tableWord (nbits w : Nat) : Word := BitVec.ofNat 32 (w % 2 ^ nbits)

/-- What `decode` reads from a command word numbered as spec/opcode_table.json numbers its bits. -/
def decodeTableWord (nbits w : Nat) : Option Instr :=
  match decode (tableWord nbits w) with
  | .ok i => some i
  | .error _ => none

end Sys2Proof
end

