-- ==== Sys2Proof/Config.lean ====
section
/-! DEFINITION. The parameters of R10 that the source leaves open. A machine's parameters are one value of
`Config.Params`, fixed for a run; those of the machine after reset are constants without a body. -/

namespace Sys2Proof.Config

/-- `P_ACK_FIN` (R10, R284): whether TCP_ACK_FROM_ANY echoes an inbound FIN. -/
inductive AckFin where
  /-- `NEVER`: the flags byte of a bare ACK is always 0x10. -/
  | never
  /-- `ECHO_FIN`: the flags byte is 0x11 when the segment has no payload and its FIN bit is set. -/
  | echoFin
deriving DecidableEq, Repr, Inhabited

/-- The open parameters of R10. -/
structure Params where
  /-- `P_BUF_SIZE`, the bytes in FB. -/
  bufSize : Nat
  /-- `P_PB_SIZE`, the bytes in PB. -/
  pbSize : Nat
  /-- `P_IPID_INIT`, IPID after power-on. -/
  ipidInit : Half
  /-- `P_ISN_INIT`, ISN after power-on. -/
  isnInit : Byte
  /-- `P_ACK_FIN`. -/
  ackFin : AckFin
  /-- `P_CLIENT_WINDOW`, the window TCP_CLIENT writes when M = 1. -/
  clientWindow : Half
deriving DecidableEq, Repr

/-- The ranges R10 requires of the two sizes. -/
abbrev Params.Legal (p : Params) : Prop :=
  64 ≤ p.bufSize ∧ p.bufSize ≤ 65535 ∧ 220 ≤ p.pbSize ∧ p.pbSize ≤ 65535

/-- Any number: `bufSize` brings it into the range R10 gives. DESIGN CHOICE (log entry 2). Safe. -/
opaque bufSizeDraw : Nat

/-- Any number: `pbSize` brings it into the range R10 gives. DESIGN CHOICE (log entry 2). Safe. -/
opaque pbSizeDraw : Nat

/-- `P_IPID_INIT` of the machine after reset: any 16-bit value (D20). -/
opaque ipidInit : Half

/-- `P_ISN_INIT` of the machine after reset: any 8-bit value (D20). -/
opaque isnInit : Byte

/-- `P_ACK_FIN` of the machine after reset: either value (D27). -/
opaque ackFin : AckFin

/-- `P_CLIENT_WINDOW` of the machine after reset: any 16-bit value (D32). -/
opaque clientWindow : Half

/-- `P_BUF_SIZE` of the machine after reset: any value from 64 to 65535 (D7). -/
def bufSize : Nat := bufSizeDraw % 65472 + 64

/-- `P_PB_SIZE` of the machine after reset: any value from 220 to 65535 (D8). -/
def pbSize : Nat := pbSizeDraw % 65316 + 220

/-- The parameters of the machine after reset (log entries 1 and 2). -/
def params : Params where
  bufSize := bufSize
  pbSize := pbSize
  ipidInit := ipidInit
  isnInit := isnInit
  ackFin := ackFin
  clientWindow := clientWindow

end Sys2Proof.Config
end

