-- ==== Sys2Proof/Machine/State.lean ====
section
/-! DEFINITION. The state of CORE (R50), the moves of the host and of the link (R45, R122, R377), the reasons a
step stops, and the state after reset (R51, R400). -/

namespace Sys2Proof.Machine

/-- A buffer, FB or PB: its DEFINED bytes (R52) by index, indices strictly rising. A byte that is not listed is
not defined, so reading it gives no value (R90, R92; log entry 4). -/
abbrev Memory := List Host.Cell

/-- The host identity (R34): MAC_ADDR and IP_ADDR, first byte on the wire most significant. -/
structure Identity where
  mac : BitVec 48
  ip : BitVec 32
deriving DecidableEq, Repr

/-- One transmit event `Tx(n, FB[0..n-1])` (R376). -/
structure Tx where
  len : Nat
  bytes : List Byte
deriving DecidableEq, Repr

/-- What the host and the link can do to CORE, one event of the total order of R99 each (R45, R378). -/
inductive HostMove where
  /-- `RegWrite(n, v)` (R45); of register 0, CMD, it starts a command (R40). -/
  | regWrite (n : Nat) (v : Word)
  /-- `RegRead(n)` (R45). -/
  | regRead (n : Nat)
  /-- `FbWrite(i, b)` (R45). -/
  | fbWrite (i : Nat) (b : Byte)
  /-- `FbRead(i)` (R45). -/
  | fbRead (i : Nat)
  /-- `PbWrite(i, b)` (R45). -/
  | pbWrite (i : Nat) (b : Byte)
  /-- `PbRead(i)` (R45). -/
  | pbRead (i : Nat)
  /-- A receive by the link: a deposit of these bytes (R377); of no bytes, a poll that found nothing. -/
  | rx (bytes : List Byte)
  /-- The host or the platform asserts reset (R400). -/
  | reset
  /-- `IF <reg> = v THEN <the next len moves> END` (R122). -/
  | ifReg (n : Nat) (v : Word) (len : Nat)
  /-- `IF FBR i = b THEN <the next len moves> END` (R122). -/
  | ifFb (i : Nat) (b : Byte) (len : Nat)
deriving DecidableEq, Repr

/-- The state: R50's elements, and the model's own `params`, `host`, `tx` and `reads` (log entries 1, 6, 7).
An `Option` is the spec's own "no value" or "unset" (R51, R52; log entries 4, 5). -/
structure State where
  /-- The parameters of R10, fixed for a run. -/
  params : Config.Params
  /-- FB with its definedness bits (R32, R52). -/
  fb : Memory
  /-- PB with its definedness bits (R33, R52). -/
  pb : Memory
  /-- MAC_ADDR and IP_ADDR, present exactly when ID_VALID = 1 (R34). -/
  identity : Option Identity
  /-- IPID (R35). -/
  ipid : Half
  /-- ISN (R36). -/
  isn : Byte
  /-- INFO_DLEN (R37). -/
  infoDlen : Option Half
  /-- INFO_HLEN (R37). -/
  infoHlen : Option Byte
  /-- ACK_BUILT (R38). -/
  ackBuilt : Bool
  /-- ARG_OFF (R39). -/
  argOff : Option Half
  /-- ARG_PORT (R39). -/
  argPort : Option Half
  /-- ARG_SPORT (R39). -/
  argSport : Option Half
  /-- ARG_FLAGS (R39). -/
  argFlags : Option Byte
  /-- ARG_ACK (R39). -/
  argAck : Option Half
  /-- The HI half of ARG_MAC, its bytes 0 and 1 (R47). -/
  argMacHi : Option (BitVec 16)
  /-- The LO half of ARG_MAC, its bytes 2 to 5 (R47). -/
  argMacLo : Option (BitVec 32)
  /-- ARG_IP, its byte 0 most significant (R48). -/
  argIp : Option (BitVec 32)
  /-- STATUS.ERR (R41). -/
  err : Byte
  /-- STATUS.FAULT (R41). -/
  fault : Bool
  /-- RESULT, bits 15:0; bits 31:16 read as 0 (R42). -/
  result : Option Half
  /-- FAULT_CMD (R43). -/
  faultCmd : Word
  /-- RX_LEN (R44). -/
  rxLen : Option Half
  /-- The moves still to come, in the total order of R99 (log entry 6). -/
  host : List HostMove
  /-- The transmit events emitted so far, oldest first (R376, R415; log entry 7). -/
  tx : List Tx
  /-- The values the host's reads returned so far, oldest first (R378; log entry 7). -/
  reads : List Word
deriving DecidableEq, Repr

/-- CORE never stops with a fault of the model: an error of a command is a next state with the fault latch set
(R361; log entry 3), so no reason exists. Safe. -/
inductive Fault where
deriving DecidableEq, Repr

/-- Why a step has no meaning. -/
inductive Refusal where
  /-- Raised by an arm of `exec` whose command has no meaning yet. Safe. No arm raises it. -/
  | notModelled (mnemonic : String)
  /-- Raised by a RegRead of CMD or of an argument register (R46). Safe. -/
  | readOfWriteOnlyRegister (n : Nat)
  /-- Raised by a RegWrite of STATUS, RESULT, INFO_DLEN, INFO_HLEN, FAULT_CMD or RX_LEN (R46). Safe. -/
  | writeOfReadOnlyRegister (n : Nat)
  /-- Raised by any access to register 7 or to a register from 16 up (R46). Safe. -/
  | reservedRegister (n : Nat)
  /-- Raised by a RegRead of RESULT, INFO_DLEN, INFO_HLEN or RX_LEN while it holds no value: the host gets back "the
  value, or refused if it holds none" (R378; R42, R46, R51). No command reads these registers. Safe. -/
  | readOfRegisterWithNoValue (n : Nat)
  /-- Raised by an FbRead or PbRead of a byte that is not defined (R46). Safe. -/
  | readOfUndefinedByte (i : Nat)
  /-- Raised by an FB or PB access of the host whose index is outside the array (R46). Safe. -/
  | indexOutsideArray (i : Nat)
deriving DecidableEq, Repr

/-- The state right after reset of a machine with the given parameters (R51, R400). -/
def State.resetWith (p : Config.Params) : State where
  params := p
  fb := []
  pb := []
  identity := none
  ipid := p.ipidInit
  isn := p.isnInit
  infoDlen := none
  infoHlen := none
  ackBuilt := false
  argOff := none
  argPort := none
  argSport := none
  argFlags := none
  argAck := none
  argMacHi := none
  argMacLo := none
  argIp := none
  err := 0x00
  fault := false
  result := none
  faultCmd := 0x00000000
  rxLen := none
  host := []
  tx := []
  reads := []

/-- The machine right after reset (R400): the parameters are open (log entry 2), and no move is waiting (R401). -/
def State.reset : State := State.resetWith Config.params

end Sys2Proof.Machine
end

