-- ==== Sys2Proof/Machine/HeaderMap.lean ====
section
/-! DEFINITION. The header field map (R83 to R89): the frame offset of every protocol field, and the protocol
constants CORE writes or tests. The spec supplies them from the RFC wire formats (R4). -/

namespace Sys2Proof.Machine

/-! Ethernet II (R84). -/

/-- Destination MAC, 6 bytes. -/
@[simp] abbrev ethDst : Nat := 0
/-- Source MAC, 6 bytes. -/
@[simp] abbrev ethSrc : Nat := 6
/-- EtherType, 16 bits. -/
@[simp] abbrev ethType : Nat := 12
/-- The EtherType of ARP. -/
@[simp] abbrev typeArp : Nat := 0x0806
/-- The EtherType of IPv4, which is also ARP's protocol type. -/
@[simp] abbrev typeIpv4 : Nat := 0x0800

/-! ARP (R85). -/

/-- Hardware type, 16 bits. -/
@[simp] abbrev arpHtype : Nat := 14
/-- Protocol type, 16 bits. -/
@[simp] abbrev arpPtype : Nat := 16
/-- Hardware address length. -/
@[simp] abbrev arpHlen : Nat := 18
/-- Protocol address length. -/
@[simp] abbrev arpPlen : Nat := 19
/-- Opcode, 16 bits. -/
@[simp] abbrev arpOpcode : Nat := 20
/-- Sender MAC, 6 bytes. -/
@[simp] abbrev arpSenderMac : Nat := 22
/-- Sender IP, 4 bytes. -/
@[simp] abbrev arpSenderIp : Nat := 28
/-- Target MAC, 6 bytes. -/
@[simp] abbrev arpTargetMac : Nat := 32
/-- Target IP, 4 bytes. -/
@[simp] abbrev arpTargetIp : Nat := 38
/-- Hardware type Ethernet. -/
@[simp] abbrev htypeEthernet : Nat := 0x0001
/-- Opcode REQUEST. -/
@[simp] abbrev arpRequestOp : Nat := 0x0001
/-- Opcode REPLY. -/
@[simp] abbrev arpReplyOp : Nat := 0x0002
/-- The bytes of an ARP frame. -/
@[simp] abbrev arpFrameLen : Nat := 42

/-! IPv4 without options (R86). -/

/-- Version and header length. -/
@[simp] abbrev ipVerIhl : Nat := 14
/-- Type of service. -/
@[simp] abbrev ipTos : Nat := 15
/-- Total length, 16 bits. -/
@[simp] abbrev ipTotalLen : Nat := 16
/-- Identification, 16 bits. -/
@[simp] abbrev ipIdent : Nat := 18
/-- Flags and fragment offset, 16 bits. -/
@[simp] abbrev ipFrag : Nat := 20
/-- Time to live. -/
@[simp] abbrev ipTtl : Nat := 22
/-- Protocol. -/
@[simp] abbrev ipProto : Nat := 23
/-- Header checksum, 16 bits. -/
@[simp] abbrev ipCsum : Nat := 24
/-- Source IP, 4 bytes; where the pseudo-header starts. -/
@[simp] abbrev ipSrc : Nat := 26
/-- Destination IP, 4 bytes. -/
@[simp] abbrev ipDst : Nat := 30
/-- The bytes of the IPv4 header. -/
@[simp] abbrev ipHdrLen : Nat := 20
/-- Version 4, header length 20. -/
@[simp] abbrev verIhl45 : Byte := 0x45
/-- The protocol number of TCP. -/
@[simp] abbrev protoTcp : Nat := 6
/-- The protocol number of UDP. -/
@[simp] abbrev protoUdp : Nat := 17

/-! ICMP echo (R87). -/

/-- Type. -/
@[simp] abbrev icmpType : Nat := 34
/-- The checksum byte at the lower address. -/
@[simp] abbrev icmpCsumHi : Nat := 36
/-- The checksum byte at the higher address. -/
@[simp] abbrev icmpCsumLo : Nat := 37

/-! UDP (R88). -/

/-- Destination port, 16 bits. -/
@[simp] abbrev udpDstPort : Nat := 36
/-- UDP length, 16 bits. -/
@[simp] abbrev udpLen : Nat := 38
/-- UDP checksum, 16 bits. -/
@[simp] abbrev udpCsum : Nat := 40
/-- The payload. -/
@[simp] abbrev udpPayload : Nat := 42
/-- The largest UDP payload sent (R10, R261). -/
@[simp] abbrev udpClamp : Nat := 220

/-! TCP (R89, R281). -/

/-- Source port, 16 bits. -/
@[simp] abbrev tcpSrcPort : Nat := 34
/-- Destination port, 16 bits. -/
@[simp] abbrev tcpDstPort : Nat := 36
/-- Sequence number, 32 bits. -/
@[simp] abbrev tcpSeq : Nat := 38
/-- Acknowledgment number, 32 bits. -/
@[simp] abbrev tcpAck : Nat := 42
/-- Header length in its upper four bits. -/
@[simp] abbrev tcpHlen : Nat := 46
/-- Flags. -/
@[simp] abbrev tcpFlags : Nat := 47
/-- Window, 16 bits. -/
@[simp] abbrev tcpWindow : Nat := 48
/-- Checksum, 16 bits. -/
@[simp] abbrev tcpCsum : Nat := 50
/-- Options, when the header length is 24; the data, when it is 20. -/
@[simp] abbrev tcpOptions : Nat := 54
/-- The flag FIN. -/
@[simp] abbrev flagFin : Byte := 0x01
/-- The flag SYN. -/
@[simp] abbrev flagSyn : Byte := 0x02
/-- SYN|ACK. -/
@[simp] abbrev flagsSynAck : Byte := 0x12
/-- ACK. -/
@[simp] abbrev flagsAck : Byte := 0x10
/-- ACK|FIN. -/
@[simp] abbrev flagsAckFin : Byte := 0x11
/-- ACK|PSH|FIN. -/
@[simp] abbrev flagsAckPshFin : Byte := 0x19
/-- The header-length byte of a 20-byte TCP header. -/
@[simp] abbrev hlen20 : Byte := 0x50
/-- The header-length byte of a 24-byte TCP header. -/
@[simp] abbrev hlen24 : Byte := 0x60
/-- The MSS option: kind 2, length 4, value 0x0580 (R10). -/
abbrev mssOption : List Byte := [0x02, 0x04, 0x05, 0x80]

end Sys2Proof.Machine
end

