-- ==== Sys2Proof/Machine/Ops.lean ====
section
/-! DEFINITION. The shared operations: buffers as lists of defined bytes, the access rules R90 to R92, the
pseudocode primitives of R12, the transmit event (R376) and fault entry (R361). -/

namespace Sys2Proof.Machine

/-! ## Buffers -/

/-- The byte at an index, if it is defined (R52, R90). -/
def Memory.read : Memory → Nat → Option Byte
  | [], _ => none
  | (k, b) :: m, a => if k = a then some b else Memory.read m a

/-- Store a byte and make it defined (R91); the list stays in rising order. -/
def Memory.write : Memory → Nat → Byte → Memory
  | [], a, v => [(a, v)]
  | (k, b) :: m, a, v =>
    if a < k then (a, v) :: (k, b) :: m
    else if a = k then (a, v) :: m
    else (k, b) :: Memory.write m a v

/-- Every listed index is at least `lo`, and the indices rise strictly. -/
def Memory.risesFrom : Nat → Memory → Bool
  | _, [] => true
  | lo, (k, _) :: m => decide (lo ≤ k) && Memory.risesFrom (k + 1) m

/-- The canonical form: indices strictly rising. Since an unlisted byte is not defined, no entry can equal what
an unlisted byte reads as. -/
def Memory.wf (m : Memory) : Bool := Memory.risesFrom 0 m

/-- No index at or above `n` is listed: the buffer has `n` bytes (R32, R33). -/
def Memory.below (n : Nat) (m : Memory) : Bool := m.all fun c => decide (c.1 < n)

/-! ## Errors -/

/-- The errors a command raises (R360). -/
inductive Err where
  | illegal
  | notInit
  | reinit
  | range
  | undef
  | arg
  | seq
deriving DecidableEq, Repr

/-- The error codes (R360). -/
def Err.code : Err → Byte
  | .illegal => 0x01
  | .notInit => 0x02
  | .reinit => 0x03
  | .range => 0x04
  | .undef => 0x05
  | .arg => 0x06
  | .seq => 0x07

/-- Fault entry (R361): the latch is set, the code and the command word are recorded, and nothing else changes.
There is no return from a fault beside it: only reset clears the latch (R366). -/
def State.raise (e : Err) (cmd : Word) (s : State) : State :=
  { s with fault := true, err := e.code, faultCmd := cmd }

/-! ## Reset -/

/-- Reset (R400): every element of R50 takes its reset value. The parameters, the moves still to come and the
two records of what left CORE are no state of CORE and stay (log entry 7). -/
def State.doReset (s : State) : State :=
  { State.resetWith s.params with host := s.host, tx := s.tx, reads := s.reads }

/-! ## Accesses of a command to FB and PB -/

/-- A command read of FB[i] (R90). -/
def State.fbRead (s : State) (i : Nat) : Except Err Byte :=
  if i < s.params.bufSize then
    match s.fb.read i with
    | some b => .ok b
    | none => .error .undef
  else .error .range

/-- The state with FB replaced. -/
def State.setFb (s : State) (m : Memory) : State := { s with fb := m }

/-- A command write FB[i] <- v (R91). -/
def State.fbWrite (s : State) (i : Nat) (v : Byte) : Except Err State :=
  if i < s.params.bufSize then .ok (s.setFb (s.fb.write i v)) else .error .range

/-- A command read of PB[i] (R92). -/
def State.pbRead (s : State) (i : Nat) : Except Err Byte :=
  if i < s.params.pbSize then
    match s.pb.read i with
    | some b => .ok b
    | none => .error .undef
  else .error .range

/-- `MemRead(a, n)`: the n-byte big-endian value, read in increasing address order (R12, R81). -/
def State.memRead (s : State) (a : Nat) : Nat → Except Err Nat
  | 0 => .ok 0
  | n + 1 => do
    let b ← s.fbRead a
    let r ← s.memRead (a + 1) n
    return b.toNat <<< (8 * n) + r

/-- `MemWrite(a, n, v)`: the n low bytes of v, big-endian, in increasing address order (R12, R81; log entry 17). -/
def State.memWrite (s : State) (a : Nat) : Nat → Nat → Except Err State
  | 0, _ => .ok s
  | n + 1, v => do
    let s ← s.fbWrite a (BitVec.ofNat 8 (v >>> (8 * n)))
    s.memWrite (a + 1) n v

/-- The byte sequence FB[a..a+n-1], read in increasing address order (R12). -/
def State.fbBytes (s : State) (a : Nat) : Nat → Except Err (List Byte)
  | 0 => .ok []
  | n + 1 => do
    let b ← s.fbRead a
    let r ← s.fbBytes (a + 1) n
    return b :: r

/-- `FB[a..] <- bs`, byte by byte in increasing address order (R12). -/
def State.fbWriteBytes (s : State) (a : Nat) : List Byte → Except Err State
  | [] => .ok s
  | b :: bs => do
    let s ← s.fbWrite a b
    s.fbWriteBytes (a + 1) bs

/-- `for i in l: body i`, in the order of the list. -/
def forEach (body : Nat → State → Except Err State) : List Nat → State → Except Err State
  | [], s => .ok s
  | i :: is, s => do
    let s ← body i s
    forEach body is s

/-- `Send(n)`: one transmit event with FB[0..n-1] as they stand (R12, R376). -/
def State.send (s : State) (n : Nat) : Except Err State := do
  let bytes ← s.fbBytes 0 n
  return { s with tx := s.tx ++ [⟨n, bytes⟩] }

/-! ## Bytes of the addresses -/

/-- Byte i of a MAC address in wire order (R34, R47). -/
def macByte (m : BitVec 48) (i : Nat) : Byte := m.extractLsb' (8 * (5 - i)) 8

/-- Byte i of an IPv4 address in wire order (R34, R48). -/
def ipByte (a : BitVec 32) (i : Nat) : Byte := a.extractLsb' (8 * (3 - i)) 8

/-- The four bytes of an IPv4 address in wire order. -/
def ipBytes (a : BitVec 32) : List Byte := [ipByte a 0, ipByte a 1, ipByte a 2, ipByte a 3]

end Sys2Proof.Machine
end

