-- ==== Sys2Proof/Machine/Operands.lean ====
section
/-! DEFINITION. The operands of a command outside its FB and PB bytes (R116): the argument registers, the host
identity, the checks of R115 to R117 and R295 made before a command's first effect. -/

namespace Sys2Proof.Machine

/-- An argument register: its value, or Error(UNDEF) when it is unset (R52, R362). -/
def orUndef {α : Type} : Option α → Except Err α
  | some v => .ok v
  | none => .error .undef

/-- ARG_MAC, the HI half first, defined only when both halves are (R47). -/
def State.argMac (s : State) : Option (BitVec 48) :=
  match s.argMacHi, s.argMacLo with
  | some hi, some lo => some (hi ++ lo)
  | _, _ => none

/-- The identity of a command that reads it, or Error(NOT_INIT) while ID_VALID = 0 (R363). -/
def State.needIdentity (s : State) : Except Err Identity :=
  match s.identity with
  | some id => .ok id
  | none => .error .notInit

/-- `if c: raise Error(e)` (R12). -/
def raiseIf (c : Bool) (e : Err) : Except Err Unit := if c then .error e else .ok ()

end Sys2Proof.Machine
end

