-- ==== Sys2Proof/Machine/Flags.lean ====
section
/-! DEFINITION. What a command reports (R49): STATUS, RESULT, ACK_BUILT, and how a command ends. CORE has no
condition codes. -/

namespace Sys2Proof.Machine

/-- STATUS (R41): ERR in bits 7:0, FAULT in bit 8, ID_VALID in bit 9, ACK_BUILT in bit 10, zeros above. -/
def State.status (s : State) : Word :=
  0#21 ++ BitVec.ofBool s.ackBuilt ++ BitVec.ofBool s.identity.isSome ++ BitVec.ofBool s.fault ++ s.err

/-- `RESULT <- zext_32(v)` (R42). -/
def State.setResult (s : State) (v : Half) : State := { s with result := some v }

/-- RESULT of a test: 1 for true, 0 for false (R49). -/
def boolResult (b : Bool) : Half := if b then 1 else 0

/-- The end of a command. Without an error its effects stand and ACK_BUILT says whether it was TCP_ACK_FROM_ANY
(R295); with an error the state is the one before the command, with the fault latch set (R97, R361; log entries 3, 10). -/
def finish (i : Instr) (s : State) : Except Err State → Host.Outcome State Fault Refusal
  | .ok t => .next { t with ackBuilt := decide (i = .tcpAckFromAny) }
  | .error e => .next (s.raise e (encode i))

end Sys2Proof.Machine
end

