-- ==== Sys2Proof/Machine/Classifier.lean ====
section
/-! DEFINITION. The Frame Classifier (spec/41_classifier.md): IS_ARP_FOR_ME, IS_IP_FOR_ME, CLASSIFY. -/

namespace Sys2Proof.Machine

/-- Whether FB[a..a+3] is the IP address: all four bytes are read, then compared (R170, R171, R224, D17). -/
def ipAtIs (s : State) (a : Nat) (ip : BitVec 32) : Except Err Bool := do
  let bs ← s.fbBytes a 4
  return bs == ipBytes ip

/-- `isArpForMe(len)` (R170). -/
def isArpForMe (ip : BitVec 32) (len : Nat) (s : State) : Except Err Bool := do
  if len < 41 then return false
  let ty ← s.memRead ethType 2
  if ty ≠ typeArp then return false
  ipAtIs s arpTargetIp ip

/-- `isIpForMe(len)` (R171). -/
def isIpForMe (ip : BitVec 32) (len : Nat) (s : State) : Except Err Bool := do
  if len < 42 then return false
  let ty ← s.memRead ethType 2
  if ty ≠ typeIpv4 then return false
  let v ← s.fbRead ipVerIhl
  if v ≠ verIhl45 then return false
  ipAtIs s ipDst ip

/-- IS_ARP_FOR_ME (R170). -/
def isArpForMeBody (l : Half) (s : State) : Except Err State := do
  let id ← s.needIdentity
  let r ← isArpForMe id.ip l.toNat s
  return s.setResult (boolResult r)

/-- IS_ARP_FOR_ME (R170). -/
def execIsArpForMe (l : Half) (s : State) : Host.Outcome State Fault Refusal :=
  finish (.isArpForMe l) s (isArpForMeBody l s)

/-- IS_IP_FOR_ME (R171). -/
def isIpForMeBody (l : Half) (s : State) : Except Err State := do
  let id ← s.needIdentity
  let r ← isIpForMe id.ip l.toNat s
  return s.setResult (boolResult r)

/-- IS_IP_FOR_ME (R171). -/
def execIsIpForMe (l : Half) (s : State) : Host.Outcome State Fault Refusal :=
  finish (.isIpForMe l) s (isIpForMeBody l s)

/-- CLASSIFY (R172): 1 = ArpForMe, 2 = IpForMe, 0 = Neither. -/
def classifyBody (l : Half) (s : State) : Except Err State := do
  let id ← s.needIdentity
  let arp ← isArpForMe id.ip l.toNat s
  if arp then return s.setResult 1
  let ip ← isIpForMe id.ip l.toNat s
  if ip then return s.setResult 2
  return s.setResult 0

/-- CLASSIFY (R172). -/
def execClassify (l : Half) (s : State) : Host.Outcome State Fault Refusal :=
  finish (.classify l) s (classifyBody l s)

end Sys2Proof.Machine
end

