-- ==== Sys2Proof/Machine/Checksum.lean ====
section
/-! DEFINITION. The Checksum Engine (spec/40_checksum.md): the function `Checksum(a, n, kind)` (R151) and the
command CHECKSUM (R150). -/

namespace Sys2Proof.Machine

/-- The seed of the running sum: protocol number and `n - 8` for UDP and TCP (R151, R155). Every caller has
n ≥ 8 for those kinds. -/
def checksumSeed (k : Kind) (n : Nat) : Nat :=
  match k with
  | .ip | .reserved => 0
  | .udp => protoUdp + (n - 8)
  | .tcp => protoTcp + (n - 8)

/-- The sum of the big-endian words of FB[a..a+n-1] onto `sum`; an odd last byte is a high byte (R151). -/
def sumWords (s : State) : Nat → Nat → Nat → Except Err Nat
  | _, 0, sum => .ok sum
  | a, 1, sum => do
    let b ← s.fbRead a
    return sum + b.toNat <<< 8
  | a, n + 2, sum => do
    let w ← s.memRead a 2
    sumWords s (a + 2) n (sum + w)

/-- `while (sum >> 16) != 0: sum <- (sum & 0xFFFF) + (sum >> 16)`, for at most `fuel` rounds (R151). -/
def foldLoop : Nat → Nat → Nat
  | 0, sum => sum
  | fuel + 1, sum =>
    if sum >>> 16 ≠ 0 then foldLoop fuel ((sum &&& 0xFFFF) + (sum >>> 16)) else sum

/-- The fold loop run to its end: each round makes the sum smaller, so `sum` rounds are enough (log entry 9). -/
def foldCarries (sum : Nat) : Nat := foldLoop sum sum

/-- `Checksum(a, n, kind)` (R151). -/
def inetChecksum (s : State) (a n : Nat) (k : Kind) : Except Err Half := do
  let sum ← sumWords s a n (checksumSeed k n)
  return ~~~(BitVec.ofNat 16 (foldCarries sum))

/-- CHECKSUM (R150). -/
def checksumBody (k : Kind) (l : Half) (s : State) : Except Err State := do
  raiseIf (k == .reserved) .illegal
  let a ← orUndef s.argOff
  let n := l.toNat
  raiseIf ((k == .udp || k == .tcp) && n < 8) .arg
  raiseIf (a.toNat + n > s.params.bufSize) .range
  let c ← inetChecksum s a.toNat n k
  return s.setResult c

/-- CHECKSUM (R150). -/
def execChecksum (k : Kind) (l : Half) (s : State) : Host.Outcome State Fault Refusal :=
  finish (.checksum k l) s (checksumBody k l s)

end Sys2Proof.Machine
end

