-- ==== Sys2Proof/Machine/Envelope.lean ====
section
/-! DEFINITION. The Envelope Swapper (spec/42_envelope.md): SWAP_ETH, SWAP_IP, FILL_IP_CSUM, NEW_IP_HDR_TCP, and
the helpers of the same names that the ARP, ICMP, UDP and TCP commands call. -/

namespace Sys2Proof.Machine

/-- `swapEthernet()` (R190). -/
def swapEthernet (id : Identity) : State → Except Err State :=
  forEach (fun i s => do
    let b ← s.fbRead (ethSrc + i)
    let s ← s.fbWrite (ethDst + i) b
    s.fbWrite (ethSrc + i) (macByte id.mac i)) [0, 1, 2, 3, 4, 5]

/-- `fillIpChecksum()` (R194). -/
def fillIpChecksum (s : State) : Except Err State := do
  let s ← s.memWrite ipCsum 2 0x0000
  let s ← s.fbWrite ipFrag 0x40
  let s ← s.fbWrite (ipFrag + 1) 0x00
  let s ← s.fbWrite ipTtl 64
  let c ← inetChecksum s ipVerIhl ipHdrLen .ip
  s.memWrite ipCsum 2 c.toNat

/-- `swapIp()` (R192). -/
def swapIp (id : Identity) (s : State) : Except Err State := do
  let s ← forEach (fun i s => do
    let b ← s.fbRead (ipSrc + i)
    let s ← s.fbWrite (ipDst + i) b
    s.fbWrite (ipSrc + i) (ipByte id.ip i)) [0, 1, 2, 3] s
  fillIpChecksum s

/-- `IPID <- (IPID + 1) mod 2^16` (R35, R196). -/
def State.bumpIpid (s : State) : State := { s with ipid := s.ipid + 1 }

/-- `newIpHeaderForTcp(tl, dip)` (R196). -/
def newIpHeaderForTcp (id : Identity) (tl : Nat) (dip : BitVec 32) (s : State) : Except Err State := do
  let s ← s.fbWrite ipVerIhl verIhl45
  let s ← s.fbWrite ipTos 0x00
  let s ← s.memWrite ipTotalLen 2 tl
  let s ← s.memWrite ipIdent 2 s.ipid.toNat
  let s ← s.bumpIpid.fbWrite ipFrag 0x00
  let s ← s.fbWrite (ipFrag + 1) 0x00
  let s ← s.fbWrite ipTtl 128
  let s ← s.fbWrite ipProto (BitVec.ofNat 8 protoTcp)
  let s ← forEach (fun i s => do
    let s ← s.fbWrite (ipSrc + i) (ipByte id.ip i)
    s.fbWrite (ipDst + i) (ipByte dip i)) [0, 1, 2, 3] s
  fillIpChecksum s

/-- SWAP_ETH (R190). -/
def swapEthBody (s : State) : Except Err State := do
  let id ← s.needIdentity
  swapEthernet id s

/-- SWAP_ETH (R190). -/
def execSwapEth (s : State) : Host.Outcome State Fault Refusal :=
  finish .swapEth s (swapEthBody s)

/-- SWAP_IP (R192). -/
def swapIpBody (s : State) : Except Err State := do
  let id ← s.needIdentity
  swapIp id s

/-- SWAP_IP (R192). -/
def execSwapIp (s : State) : Host.Outcome State Fault Refusal :=
  finish .swapIp s (swapIpBody s)

/-- FILL_IP_CSUM (R194); it needs no identity. -/
def execFillIpCsum (s : State) : Host.Outcome State Fault Refusal :=
  finish .fillIpCsum s (fillIpChecksum s)

/-- NEW_IP_HDR_TCP (R196). -/
def newIpHdrTcpBody (l : Half) (s : State) : Except Err State := do
  let id ← s.needIdentity
  let dip ← orUndef s.argIp
  newIpHeaderForTcp id l.toNat dip s

/-- NEW_IP_HDR_TCP (R196). -/
def execNewIpHdrTcp (l : Half) (s : State) : Host.Outcome State Fault Refusal :=
  finish (.newIpHdrTcp l) s (newIpHdrTcpBody l s)

end Sys2Proof.Machine
end

