-- ==== Sys2Proof/Machine/Arp.lean ====
section
/-! DEFINITION. The ARP Responder (spec/43_arp.md): ARP_REPLY, ARP_REQUEST, IS_ARP_REPLY_FOR_ME. -/

namespace Sys2Proof.Machine

/-- ARP_REPLY (R220). -/
def arpReplyBody (s : State) : Except Err State := do
  let id ← s.needIdentity
  let s ← swapEthernet id s
  let s ← s.memWrite arpOpcode 2 arpReplyOp
  let s ← forEach (fun i s => do
    let b ← s.fbRead (arpSenderMac + i)
    let s ← s.fbWrite (arpTargetMac + i) b
    s.fbWrite (arpSenderMac + i) (macByte id.mac i)) [0, 1, 2, 3, 4, 5] s
  let s ← forEach (fun i s => do
    let b ← s.fbRead (arpSenderIp + i)
    let s ← s.fbWrite (arpTargetIp + i) b
    s.fbWrite (arpSenderIp + i) (ipByte id.ip i)) [0, 1, 2, 3] s
  s.send arpFrameLen

/-- ARP_REPLY (R220). -/
def execArpReply (s : State) : Host.Outcome State Fault Refusal :=
  finish .arpReply s (arpReplyBody s)

/-- ARP_REQUEST (R222); the target MAC is six zero bytes (R223). -/
def arpRequestBody (s : State) : Except Err State := do
  let id ← s.needIdentity
  let tip ← orUndef s.argIp
  let s ← forEach (fun i s => do
    let s ← s.fbWrite (ethDst + i) 0xFF
    s.fbWrite (ethSrc + i) (macByte id.mac i)) [0, 1, 2, 3, 4, 5] s
  let s ← s.memWrite ethType 2 typeArp
  let s ← s.memWrite arpHtype 2 htypeEthernet
  let s ← s.memWrite arpPtype 2 typeIpv4
  let s ← s.fbWrite arpHlen 6
  let s ← s.fbWrite arpPlen 4
  let s ← s.memWrite arpOpcode 2 arpRequestOp
  let s ← forEach (fun i s => do
    let s ← s.fbWrite (arpSenderMac + i) (macByte id.mac i)
    s.fbWrite (arpTargetMac + i) 0x00) [0, 1, 2, 3, 4, 5] s
  let s ← forEach (fun i s => do
    let s ← s.fbWrite (arpSenderIp + i) (ipByte id.ip i)
    s.fbWrite (arpTargetIp + i) (ipByte tip i)) [0, 1, 2, 3] s
  s.send arpFrameLen

/-- ARP_REQUEST (R222). -/
def execArpRequest (s : State) : Host.Outcome State Fault Refusal :=
  finish .arpRequest s (arpRequestBody s)

/-- The tests of IS_ARP_REPLY_FOR_ME (R224). -/
def isArpReplyForMe (ip : BitVec 32) (s : State) : Except Err Bool := do
  let ty ← s.memRead ethType 2
  if ty ≠ typeArp then return false
  let op ← s.memRead arpOpcode 2
  if op ≠ arpReplyOp then return false
  ipAtIs s arpTargetIp ip

/-- IS_ARP_REPLY_FOR_ME (R224). -/
def isArpReplyForMeBody (s : State) : Except Err State := do
  let id ← s.needIdentity
  let r ← isArpReplyForMe id.ip s
  return s.setResult (boolResult r)

/-- IS_ARP_REPLY_FOR_ME (R224). -/
def execIsArpReplyForMe (s : State) : Host.Outcome State Fault Refusal :=
  finish .isArpReplyForMe s (isArpReplyForMeBody s)

end Sys2Proof.Machine
end

