-- ==== Sys2Proof/Machine/Icmp.lean ====
section
/-! DEFINITION. The ICMP Responder (spec/44_icmp.md): ECHO_REPLY. -/

namespace Sys2Proof.Machine

/-- The end-around carry: when adding 8 to the byte at the lower address would carry, the other byte is
incremented (R240, R241). -/
def icmpCarry (s : State) : Except Err State := do
  let b ← s.fbRead icmpCsumHi
  if b > 0xF7 then do
    let c ← s.fbRead icmpCsumLo
    s.fbWrite icmpCsumLo (c + 1)
  else .ok s

/-- The incremental checksum update (R240, R241): the carry first, then 8 onto the byte at the lower address. -/
def icmpCsumUpdate (s : State) : Except Err State := do
  let s ← icmpCarry s
  let b ← s.fbRead icmpCsumHi
  s.fbWrite icmpCsumHi (b + 8)

/-- ECHO_REPLY (R240). -/
def echoReplyBody (l : Half) (s : State) : Except Err State := do
  let id ← s.needIdentity
  raiseIf (l.toNat > s.params.bufSize) .range
  let s ← swapEthernet id s
  let s ← swapIp id s
  let s ← s.fbWrite icmpType 0x00
  let s ← icmpCsumUpdate s
  s.send l.toNat

/-- ECHO_REPLY (R240). -/
def execEchoReply (l : Half) (s : State) : Host.Outcome State Fault Refusal :=
  finish (.echoReply l) s (echoReplyBody l s)

end Sys2Proof.Machine
end

