-- ==== Sys2Proof/Machine/Init.lean ====
section
/-! DEFINITION. Address initialisation (spec/47_system.md): INIT_ADDR. -/

namespace Sys2Proof.Machine

/-- INIT_ADDR (R350): the identity is set once. -/
def initAddrBody (s : State) : Except Err State := do
  raiseIf s.identity.isSome .reinit
  let mac ← orUndef s.argMac
  let ip ← orUndef s.argIp
  return { s with identity := some ⟨mac, ip⟩ }

/-- INIT_ADDR (R350). -/
def execInitAddr (s : State) : Host.Outcome State Fault Refusal :=
  finish .initAddr s (initAddrBody s)

end Sys2Proof.Machine
end

