-- ==== Sys2Proof/Machine/Udp.lean ====
section
/-! DEFINITION. The UDP Responder (spec/45_udp.md): UDP_REPLY. -/

namespace Sys2Proof.Machine

/-- `for i in 0..n-1: FB[at + i] <- PB[i]` (R260, R286). -/
def copyPayload (dst n : Nat) : State → Except Err State :=
  forEach (fun i s => do
    let b ← s.pbRead i
    s.fbWrite (dst + i) b) (List.range n)

/-- UDP_REPLY (R260); the payload length is clamped (R261). -/
def udpReplyBody (l : Half) (s : State) : Except Err State := do
  let id ← s.needIdentity
  let port ← orUndef s.argPort
  let n := min l.toNat udpClamp
  raiseIf (n > s.params.pbSize || udpPayload + n > s.params.bufSize) .range
  let s ← swapEthernet id s
  let s ← s.memWrite ipTotalLen 2 (20 + 8 + n)
  let s ← s.memWrite udpLen 2 (8 + n)
  let s ← swapIp id s
  let s ← s.memWrite udpDstPort 2 port.toNat
  let s ← copyPayload udpPayload n s
  let s ← s.memWrite udpCsum 2 0x0000
  let c ← inetChecksum s ipSrc (16 + n) .udp
  let s ← s.memWrite udpCsum 2 c.toNat
  s.send (42 + n)

/-- UDP_REPLY (R260). -/
def execUdpReply (l : Half) (s : State) : Host.Outcome State Fault Refusal :=
  finish (.udpReply l) s (udpReplyBody l s)

end Sys2Proof.Machine
end

