-- ==== Sys2Proof/Machine/Tcp.lean ====
section
/-! DEFINITION. The TCP Engine (spec/46_tcp.md): BUILD_TCP_HDR, TCP_SYNACK, TCP_ACK_FROM_ANY, TCP_ACK_WITH_DATA,
TCP_RESPOND_DATA, TCP_CLIENT, INBOUND_INFO, GET_DATA_OFFSET, GET_DATA_LEN. -/

namespace Sys2Proof.Machine

/-- The byte-wise addition of R288 and R287: over the byte indices given (3 downto 0), the acknowledgment byte
becomes the sequence byte plus the carry, and the sequence byte the old acknowledgment byte or 0. -/
def ackLoop (copySeq : Bool) : List Nat → Nat → State → Except Err State
  | [], _, s => .ok s
  | i :: is, carry, s => do
    let q ← s.fbRead (tcpSeq + i)
    let t := q.toNat + carry
    let old ← s.fbRead (tcpAck + i)
    let s ← s.fbWrite (tcpAck + i) (BitVec.ofNat 8 t)
    let s ← s.fbWrite (tcpSeq + i) (if copySeq then old else 0x00)
    ackLoop copySeq is (t >>> 8) s

/-- `ISN <- (ISN + 2) mod 256` (R36, R288). -/
def State.bumpIsn (s : State) : State := { s with isn := s.isn + 2 }

/-- The fresh sequence number of R288: ISN in the third byte, then the post-increment. -/
def freshSeq (s : State) : Except Err State := do
  let s ← s.fbWriteBytes tcpSeq [0x00, 0x00, s.isn, 0x00]
  return s.bumpIsn

/-- `if copySeq = 0`: the fresh sequence number (R288). -/
def seqStep (copySeq : Bool) (s : State) : Except Err State := if copySeq then .ok s else freshSeq s

/-- `if mss = 1`: the MSS option (R288). -/
def mssStep (mss : Bool) (s : State) : Except Err State :=
  if mss then s.fbWriteBytes tcpOptions mssOption else .ok s

/-- `buildTcpHeader(rel, mss, copySeq)` (R288). -/
def buildTcpHeader (rel : Nat) (mss copySeq : Bool) (s : State) : Except Err State := do
  let p0 ← s.memRead tcpSrcPort 2
  let p1 ← s.memRead tcpDstPort 2
  let s ← s.memWrite tcpSrcPort 2 p1
  let s ← s.memWrite tcpDstPort 2 p0
  let s ← ackLoop copySeq [3, 2, 1, 0] rel s
  let s ← seqStep copySeq s
  let s ← s.memWrite tcpCsum 2 0x0000
  let s ← s.fbWrite tcpHlen (if mss then hlen24 else hlen20)
  mssStep mss s

/-- The TCP checksum over FB[26..26+n-1], written into a field that is zero (R282, R283, R285, R287). -/
def fillTcpChecksum (n : Nat) (s : State) : Except Err State := do
  let c ← inetChecksum s ipSrc n .tcp
  s.memWrite tcpCsum 2 c.toNat

/-- BUILD_TCP_HDR (R288); it needs no identity. -/
def buildTcpHdrBody (m s' : Bool) (s : State) : Except Err State := do
  let rel ← orUndef s.argAck
  buildTcpHeader rel.toNat m s' s

/-- BUILD_TCP_HDR (R288). -/
def execBuildTcpHdr (m s' : Bool) (s : State) : Host.Outcome State Fault Refusal :=
  finish (.buildTcpHdr m s') s (buildTcpHdrBody m s' s)

/-- TCP_SYNACK (R282). -/
def tcpSynackBody (s : State) : Except Err State := do
  let id ← s.needIdentity
  let s ← swapEthernet id s
  let s ← s.memWrite ipTotalLen 2 (20 + 24)
  let s ← swapIp id s
  let s ← s.fbWrite tcpFlags flagsSynAck
  let s ← buildTcpHeader 1 true false s
  let s ← fillTcpChecksum (8 + 24) s
  s.send (20 + 24 + 14)

/-- TCP_SYNACK (R282). -/
def execTcpSynack (s : State) : Host.Outcome State Fault Refusal :=
  finish .tcpSynack s (tcpSynackBody s)

/-- `inboundInfo()` (R291): the inbound payload length D, 0 when the difference is negative, and the TCP header
length HL, both in bytes. -/
def inboundInfo (s : State) : Except Err (Nat × Nat) := do
  let t ← s.memRead ipTotalLen 2
  let b ← s.fbRead tcpHlen
  let hl := 4 * (b.toNat >>> 4)
  return (t - 20 - hl, hl)

/-- The inbound FIN bit as TCP_ACK_FROM_ANY sees it: FB[47] is read only when FINs are echoed (R283, R284). -/
def inboundFin (s : State) : Except Err Bool :=
  match s.params.ackFin with
  | .never => pure false
  | .echoFin => do
    let b ← s.fbRead tcpFlags
    return b &&& flagFin == 0x01

/-- TCP_ACK_FROM_ANY (R283, R284). -/
def tcpAckFromAnyBody (s : State) : Except Err State := do
  let id ← s.needIdentity
  let (d, _) ← inboundInfo s
  let fin ← inboundFin s
  let rel := if d = 0 then 1 else d
  let flags := if d = 0 && fin then flagsAckFin else flagsAck
  let s ← swapEthernet id s
  let s ← s.fbWrite tcpFlags flags
  let s ← buildTcpHeader rel false true s
  let s ← s.memWrite ipTotalLen 2 (20 + 20)
  let s ← swapIp id s
  let s ← fillTcpChecksum (8 + 20) s
  s.send (20 + 20 + 14)

/-- TCP_ACK_FROM_ANY (R283). -/
def execTcpAckFromAny (s : State) : Host.Outcome State Fault Refusal :=
  finish .tcpAckFromAny s (tcpAckFromAnyBody s)

/-- The body of R285 from `FB[47] <- 0x19` on, which R286 shares. -/
def ackWithData (n : Nat) (s : State) : Except Err State := do
  let s ← s.fbWrite tcpFlags flagsAckPshFin
  let s ← s.memWrite ipTotalLen 2 (20 + 20 + n)
  let s ← fillIpChecksum s
  let s ← s.memWrite tcpCsum 2 0x0000
  let s ← fillTcpChecksum (8 + 20 + n) s
  s.send (20 + 20 + n + 14)

/-- TCP_ACK_WITH_DATA (R285); it needs no identity. -/
def tcpAckWithDataBody (l : Half) (s : State) : Except Err State := do
  raiseIf (!s.ackBuilt) .seq
  raiseIf (54 + l.toNat > s.params.bufSize) .range
  ackWithData l.toNat s

/-- TCP_ACK_WITH_DATA (R285). -/
def execTcpAckWithData (l : Half) (s : State) : Host.Outcome State Fault Refusal :=
  finish (.tcpAckWithData l) s (tcpAckWithDataBody l s)

/-- TCP_RESPOND_DATA (R286). -/
def tcpRespondDataBody (l : Half) (s : State) : Except Err State := do
  raiseIf (!s.ackBuilt) .seq
  raiseIf (l.toNat > s.params.pbSize || 54 + l.toNat > s.params.bufSize) .range
  let s ← copyPayload tcpOptions l.toNat s
  ackWithData l.toNat s

/-- TCP_RESPOND_DATA (R286). -/
def execTcpRespondData (l : Half) (s : State) : Host.Outcome State Fault Refusal :=
  finish (.tcpRespondData l) s (tcpRespondDataBody l s)

/-- clearAckOnSyn: with Z = 1 the acknowledgment number of a SYN is zero (R287). -/
def clearAck (z : Bool) (flags : Byte) (s : State) : Except Err State :=
  if z && (flags &&& flagSyn != 0) then s.fbWriteBytes tcpAck [0, 0, 0, 0] else .ok s

/-- `if M = 1`: the MSS option and the fixed advertised window (R287). -/
def clientOptions (m : Bool) (s : State) : Except Err State :=
  if m then do
    let s ← s.fbWriteBytes tcpOptions mssOption
    s.memWrite tcpWindow 2 s.params.clientWindow.toNat
  else .ok s

/-- The TCP header length of a client segment (R287). -/
def clientHdrLen (m : Bool) : Nat := if m then 24 else 20

/-- The body of R287 from its first access to FB up to Send. -/
def clientFrame (id : Identity) (dport sport : Half) (flags : Byte) (rel : Half) (dmac : BitVec 48) (dip : BitVec 32)
    (m z : Bool) (len : Nat) (s : State) : Except Err State := do
  let s ← ackLoop true [3, 2, 1, 0] rel.toNat s
  let s ← clearAck z flags s
  let s ← forEach (fun i s => do
    let s ← s.fbWrite (ethDst + i) (macByte dmac i)
    s.fbWrite (ethSrc + i) (macByte id.mac i)) [0, 1, 2, 3, 4, 5] s
  let s ← s.memWrite ethType 2 typeIpv4
  let s ← newIpHeaderForTcp id (20 + clientHdrLen m + len) dip s
  let s ← s.memWrite tcpSrcPort 2 sport.toNat
  let s ← s.memWrite tcpDstPort 2 dport.toNat
  let s ← s.fbWrite tcpHlen (if m then hlen24 else hlen20)
  let s ← s.fbWrite tcpFlags flags
  let s ← clientOptions m s
  let s ← s.memWrite tcpCsum 2 0x0000
  fillTcpChecksum (8 + clientHdrLen m + len) s

/-- TCP_CLIENT (R287). -/
def tcpClientBody (m z : Bool) (l : Half) (s : State) : Except Err State := do
  let id ← s.needIdentity
  let dport ← orUndef s.argPort
  let sport ← orUndef s.argSport
  let flags ← orUndef s.argFlags
  let rel ← orUndef s.argAck
  let dmac ← orUndef s.argMac
  let dip ← orUndef s.argIp
  raiseIf (34 + clientHdrLen m + l.toNat > s.params.bufSize) .range
  let s ← clientFrame id dport sport flags rel dmac dip m z l.toNat s
  s.send (34 + clientHdrLen m + l.toNat)

/-- TCP_CLIENT (R287). -/
def execTcpClient (m z : Bool) (l : Half) (s : State) : Host.Outcome State Fault Refusal :=
  finish (.tcpClient m z l) s (tcpClientBody m z l s)

/-- INBOUND_INFO (R292). -/
def inboundInfoBody (s : State) : Except Err State := do
  let (d, hl) ← inboundInfo s
  return { s with infoDlen := some (BitVec.ofNat 16 d), infoHlen := some (BitVec.ofNat 8 hl) }

/-- INBOUND_INFO (R292). -/
def execInboundInfo (s : State) : Host.Outcome State Fault Refusal :=
  finish .inboundInfo s (inboundInfoBody s)

/-- GET_DATA_OFFSET (R293). -/
def getDataOffsetBody (s : State) : Except Err State := do
  let (d, hl) ← inboundInfo s
  return s.setResult (if d = 0 then 0 else BitVec.ofNat 16 (34 + hl))

/-- GET_DATA_OFFSET (R293). -/
def execGetDataOffset (s : State) : Host.Outcome State Fault Refusal :=
  finish .getDataOffset s (getDataOffsetBody s)

/-- GET_DATA_LEN (R294). -/
def getDataLenBody (s : State) : Except Err State := do
  let (d, _) ← inboundInfo s
  return s.setResult (BitVec.ofNat 16 d)

/-- GET_DATA_LEN (R294). -/
def execGetDataLen (s : State) : Host.Outcome State Fault Refusal :=
  finish .getDataLen s (getDataLenBody s)

end Sys2Proof.Machine
end

