-- ==== Sys2Proof/Machine/Dispatch.lean ====
section
/-! DEFINITION. One arm per command (R117): the meaning each runs. -/

namespace Sys2Proof.Machine

def exec (i : Instr) (s : State) : Host.Outcome State Fault Refusal :=
  match i with
  | .initAddr => Sys2Proof.Machine.execInitAddr s
  | .checksum k l => Sys2Proof.Machine.execChecksum k l s
  | .isArpForMe l => Sys2Proof.Machine.execIsArpForMe l s
  | .isIpForMe l => Sys2Proof.Machine.execIsIpForMe l s
  | .classify l => Sys2Proof.Machine.execClassify l s
  | .swapEth => Sys2Proof.Machine.execSwapEth s
  | .swapIp => Sys2Proof.Machine.execSwapIp s
  | .fillIpCsum => Sys2Proof.Machine.execFillIpCsum s
  | .newIpHdrTcp l => Sys2Proof.Machine.execNewIpHdrTcp l s
  | .arpReply => Sys2Proof.Machine.execArpReply s
  | .arpRequest => Sys2Proof.Machine.execArpRequest s
  | .isArpReplyForMe => Sys2Proof.Machine.execIsArpReplyForMe s
  | .echoReply l => Sys2Proof.Machine.execEchoReply l s
  | .udpReply l => Sys2Proof.Machine.execUdpReply l s
  | .buildTcpHdr m c => Sys2Proof.Machine.execBuildTcpHdr m c s
  | .tcpSynack => Sys2Proof.Machine.execTcpSynack s
  | .tcpAckFromAny => Sys2Proof.Machine.execTcpAckFromAny s
  | .tcpAckWithData l => Sys2Proof.Machine.execTcpAckWithData l s
  | .tcpRespondData l => Sys2Proof.Machine.execTcpRespondData l s
  | .tcpClient m z l => Sys2Proof.Machine.execTcpClient m z l s
  | .inboundInfo => Sys2Proof.Machine.execInboundInfo s
  | .getDataOffset => Sys2Proof.Machine.execGetDataOffset s
  | .getDataLen => Sys2Proof.Machine.execGetDataLen s

end Sys2Proof.Machine
end

