-- ==== Sys2Proof/Machine/HostPort.lean ====
section
/-! DEFINITION. The host's and the link's side of CORE: the host registers (R39 to R48), the write of CMD (R40,
R119, R365), the accesses to FB and PB (R45, R46), the link deposit (R377), reset (R400), and the meaning of one
move. -/

namespace Sys2Proof.Machine

/-- The host registers of R45. -/
inductive HostReg where
  | cmd | status | result | infoDlen | infoHlen | faultCmd | rxLen
  | argOff | argPort | argSport | argFlags | argAck | argMacHi | argMacLo | argIp
deriving DecidableEq, Repr

/-- The register a number names; 7, 16 and above are reserved (R45). -/
def hostReg : Nat → Option HostReg
  | 0 => some .cmd
  | 1 => some .status
  | 2 => some .result
  | 3 => some .infoDlen
  | 4 => some .infoHlen
  | 5 => some .faultCmd
  | 6 => some .rxLen
  | 8 => some .argOff
  | 9 => some .argPort
  | 10 => some .argSport
  | 11 => some .argFlags
  | 12 => some .argAck
  | 13 => some .argMacHi
  | 14 => some .argMacLo
  | 15 => some .argIp
  | _ => none

/-- A host write of CMD: ignored while the latch is set (R365), otherwise the word is decoded and the command
runs to completion (R40, R97), an illegal word raising Error(ILLEGAL) (R119; log entry 13). -/
def writeCmd (w : Word) (s : State) : Host.Outcome State Fault Refusal :=
  if s.fault then .next s
  else
    match decode w with
    | .error _ => .next (s.raise .illegal w)
    | .ok i => exec i s

/-- `RegWrite(n, v)` (R45): the value is stored at the register's width (R46), ARG_MAC in its halves (R47). -/
def regWrite (n : Nat) (v : Word) (s : State) : Host.Outcome State Fault Refusal :=
  match hostReg n with
  | none => .refused (.reservedRegister n)
  | some .cmd => writeCmd v s
  | some .status | some .result | some .infoDlen | some .infoHlen | some .faultCmd | some .rxLen =>
    .refused (.writeOfReadOnlyRegister n)
  | some .argOff => .next { s with argOff := some (v.extractLsb' 0 16) }
  | some .argPort => .next { s with argPort := some (v.extractLsb' 0 16) }
  | some .argSport => .next { s with argSport := some (v.extractLsb' 0 16) }
  | some .argFlags => .next { s with argFlags := some (v.extractLsb' 0 8) }
  | some .argAck => .next { s with argAck := some (v.extractLsb' 0 16) }
  | some .argMacHi => .next { s with argMacHi := some (v.extractLsb' 0 16) }
  | some .argMacLo => .next { s with argMacLo := some v }
  | some .argIp => .next { s with argIp := some v }

/-- The value of a register that may hold none, zero-extended, or the refusal of R46 and R378 (log
entry 8). -/
def valueOr {w : Nat} (n : Nat) : Option (BitVec w) → Except Refusal Word
  | some v => .ok (v.setWidth 32)
  | none => .error (.readOfRegisterWithNoValue n)

/-- `RegRead(n)` (R41 to R46). -/
def regRead (n : Nat) (s : State) : Except Refusal Word :=
  match hostReg n with
  | none => .error (.reservedRegister n)
  | some .status => .ok s.status
  | some .result => valueOr n s.result
  | some .infoDlen => valueOr n s.infoDlen
  | some .infoHlen => valueOr n s.infoHlen
  | some .faultCmd => .ok s.faultCmd
  | some .rxLen => valueOr n s.rxLen
  | some .cmd | some .argOff | some .argPort | some .argSport | some .argFlags | some .argAck
  | some .argMacHi | some .argMacLo | some .argIp => .error (.readOfWriteOnlyRegister n)

/-- A host read of byte i of a buffer of the given size (R46). -/
def bufRead (size : Nat) (m : Memory) (i : Nat) : Except Refusal Byte :=
  if i < size then
    match m.read i with
    | some b => .ok b
    | none => .error (.readOfUndefinedByte i)
  else .error (.indexOutsideArray i)

/-- `FbWrite(i, b)` (R45, R46). -/
def hostFbWrite (i : Nat) (b : Byte) (s : State) : Host.Outcome State Fault Refusal :=
  if i < s.params.bufSize then .next { s with fb := s.fb.write i b } else .refused (.indexOutsideArray i)

/-- `PbWrite(i, b)` (R45, R46). -/
def hostPbWrite (i : Nat) (b : Byte) (s : State) : Host.Outcome State Fault Refusal :=
  if i < s.params.pbSize then .next { s with pb := s.pb.write i b } else .refused (.indexOutsideArray i)

/-- The bytes of a frame stored from an index on. -/
def Memory.writeBytes (m : Memory) : Nat → List Byte → Memory
  | _, [] => m
  | a, b :: bs => Memory.writeBytes (m.write a b) (a + 1) bs

/-- A receive by the link (R377). A receive of no bytes, and a frame longer than FB, deposit nothing (log
entry 12). -/
def deposit (bytes : List Byte) (s : State) : State :=
  if 1 ≤ bytes.length ∧ bytes.length ≤ s.params.bufSize then
    { s with
      fb := s.fb.writeBytes 0 bytes
      rxLen := some (BitVec.ofNat 16 bytes.length)
      ackBuilt := false }
  else s

/-- The host is given the value it read (R378). A read has no other effect (R95). -/
def giveHost (r : Except Refusal Word) (s : State) : Host.Outcome State Fault Refusal :=
  match r with
  | .ok v => .next { s with reads := s.reads ++ [v] }
  | .error e => .refused e

/-- The host reads a value and runs its next `len` moves only when it equals `v` (R122; log entry 11). -/
def hostIf (r : Except Refusal Word) (v : Word) (len : Nat) (s : State) : Host.Outcome State Fault Refusal :=
  match r with
  | .ok x =>
    .next { s with
      reads := s.reads ++ [x]
      host := if x = v then s.host else s.host.drop len }
  | .error e => .refused e

/-- A byte as the word the host is given. -/
def asWord (r : Except Refusal Byte) : Except Refusal Word :=
  match r with
  | .ok b => .ok (b.setWidth 32)
  | .error e => .error e

/-- One move (R45, R122, R377, R378). -/
def runMove (e : HostMove) (s : State) : Host.Outcome State Fault Refusal :=
  match e with
  | .regWrite n v => regWrite n v s
  | .regRead n => giveHost (regRead n s) s
  | .fbWrite i b => hostFbWrite i b s
  | .fbRead i => giveHost (asWord (bufRead s.params.bufSize s.fb i)) s
  | .pbWrite i b => hostPbWrite i b s
  | .pbRead i => giveHost (asWord (bufRead s.params.pbSize s.pb i)) s
  | .rx bytes => .next (deposit bytes s)
  | .reset => .next s.doReset
  | .ifReg n v len => hostIf (regRead n s) v len s
  | .ifFb i b len => hostIf (asWord (bufRead s.params.bufSize s.fb i)) (b.setWidth 32) len s

/-- The next event of the total order of R99: the first move still to come. With none left CORE is idle and
nothing changes (R401, R415; log entry 6). -/
def nextEvent (s : State) : Host.Outcome State Fault Refusal :=
  match s.host with
  | [] => .next s
  | e :: rest => runMove e { s with host := rest }

/-- The host's next move writes this word to CMD; nothing else changes. -/
def State.queueCmd (s : State) (w : Word) : State := { s with host := .regWrite 0 w :: s.host }

end Sys2Proof.Machine
end

