-- ==== Sys2Proof/Machine/Step.lean ====
section
/-! DEFINITION. One step of the machine, and how a command word comes to be the next thing it runs. -/

namespace Sys2Proof.Machine

/-- One step: the next event of the total order (R99; log entries 6, 14). -/
def step (s : State) : Host.Outcome State Fault Refusal := nextEvent s

/-- CORE fetches nothing (R31): a command runs when the host writes its word to CMD, so the word goes where the
host's next move is taken from (log entry 6). -/
def State.withFetchWord (s : State) (nbits w : Nat) : State := s.queueCmd (tableWord nbits w)

end Sys2Proof.Machine
end

