-- ==== Sys2Proof/Machine/HostCalls.lean ====
section
/-! DEFINITION. The host's written program: the command syntax (R121), the statements that stand for several
moves (R122), and the section 6 calls as fixed sequences of moves (R123). -/

namespace Sys2Proof.Machine

/-! ## Command syntax (R121) -/

/-- The fields written after a mnemonic: `L=n` and `K=...` when present, M, S, Z when written. -/
structure AsmFields where
  l : Option Nat := none
  k : Option Kind := none
  m : Bool := false
  s : Bool := false
  z : Bool := false
deriving DecidableEq, Repr

/-- The value of a number that fits L. -/
def asmLength (n : Nat) : Option Half := if n < 65536 then some (BitVec.ofNat 16 n) else none

/-- A command written with no field. -/
def asmPlain (i : Instr) (f : AsmFields) : Option Instr := if f = {} then some i else none

/-- A command written with L alone. -/
def asmLengthOnly (mk : Half → Instr) (f : AsmFields) : Option Instr :=
  match f with
  | ⟨some n, none, false, false, false⟩ => (asmLength n).map mk
  | _ => none

/-- CHECKSUM, written with K and L. -/
def asmChecksum (f : AsmFields) : Option Instr :=
  match f with
  | ⟨some n, some k, false, false, false⟩ =>
    if k = .reserved then none else (asmLength n).map (Instr.checksum k)
  | _ => none

/-- BUILD_TCP_HDR, which may be written with M and S. -/
def asmBuildTcpHdr (f : AsmFields) : Option Instr :=
  match f with
  | ⟨none, none, m, s, false⟩ => some (.buildTcpHdr m s)
  | _ => none

/-- TCP_CLIENT, which is written with L and may be written with M and Z. -/
def asmTcpClient (f : AsmFields) : Option Instr :=
  match f with
  | ⟨some n, none, m, false, z⟩ => (asmLength n).map (Instr.tcpClient m z)
  | _ => none

/-- The command that `MNEMONIC fields` writes (R121): a field is written only when the command uses it, and L and
K must be written when it does (log entry 15). -/
def assemble (mnemonic : String) (f : AsmFields) : Option Instr :=
  match mnemonic with
  | "INIT_ADDR" => asmPlain .initAddr f
  | "CHECKSUM" => asmChecksum f
  | "IS_ARP_FOR_ME" => asmLengthOnly .isArpForMe f
  | "IS_IP_FOR_ME" => asmLengthOnly .isIpForMe f
  | "CLASSIFY" => asmLengthOnly .classify f
  | "SWAP_ETH" => asmPlain .swapEth f
  | "SWAP_IP" => asmPlain .swapIp f
  | "FILL_IP_CSUM" => asmPlain .fillIpCsum f
  | "NEW_IP_HDR_TCP" => asmLengthOnly .newIpHdrTcp f
  | "ARP_REPLY" => asmPlain .arpReply f
  | "ARP_REQUEST" => asmPlain .arpRequest f
  | "IS_ARP_REPLY_FOR_ME" => asmPlain .isArpReplyForMe f
  | "ECHO_REPLY" => asmLengthOnly .echoReply f
  | "UDP_REPLY" => asmLengthOnly .udpReply f
  | "BUILD_TCP_HDR" => asmBuildTcpHdr f
  | "TCP_SYNACK" => asmPlain .tcpSynack f
  | "TCP_ACK_FROM_ANY" => asmPlain .tcpAckFromAny f
  | "TCP_ACK_WITH_DATA" => asmLengthOnly .tcpAckWithData f
  | "TCP_RESPOND_DATA" => asmLengthOnly .tcpRespondData f
  | "TCP_CLIENT" => asmTcpClient f
  | "INBOUND_INFO" => asmPlain .inboundInfo f
  | "GET_DATA_OFFSET" => asmPlain .getDataOffset f
  | "GET_DATA_LEN" => asmPlain .getDataLen f
  | _ => none

/-! ## Statements (R122) -/

/-- `CMD <word>` of a command: a RegWrite of CMD. -/
def cmdMove (i : Instr) : HostMove := .regWrite 0 (encode i)

/-- `RD RESULT`. -/
def readResult : HostMove := .regRead 2

/-- `FBW i, bytes`. -/
def fbwMoves (i : Nat) : List Byte → List HostMove
  | [] => []
  | b :: bs => .fbWrite i b :: fbwMoves (i + 1) bs

/-- `PBW i, bytes`. -/
def pbwMoves (i : Nat) : List Byte → List HostMove
  | [] => []
  | b :: bs => .pbWrite i b :: pbwMoves (i + 1) bs

/-- `SET ARG_MAC_HI`, `SET ARG_MAC_LO` with the bytes of a MAC address (R47, R123). -/
def setMacMoves (mac : BitVec 48) : List HostMove :=
  [.regWrite 13 ((mac.extractLsb' 32 16).setWidth 32), .regWrite 14 (mac.extractLsb' 0 32)]

/-- `IF <reg> = v THEN body END`. -/
def ifRegMoves (n : Nat) (v : Word) (body : List HostMove) : List HostMove :=
  .ifReg n v body.length :: body

/-- `IF FBR i = b THEN body END`. -/
def ifFbMoves (i : Nat) (b : Byte) (body : List HostMove) : List HostMove :=
  .ifFb i b body.length :: body

/-! ## The section 6 calls (R123) -/

/-- `initAddressing(mac[6], ip[4])`. -/
def callInitAddressing (mac : BitVec 48) (ip : BitVec 32) : List HostMove :=
  setMacMoves mac ++ [.regWrite 15 ip, cmdMove .initAddr]

/-- `classify(buffer, length)`. -/
def callClassify (length : Half) : List HostMove := [cmdMove (.classify length), readResult]

/-- `replyToArp(buffer)`. -/
def callReplyToArp : List HostMove := [cmdMove .arpReply]

/-- `replyToIcmpEcho(buffer, length)`. -/
def callReplyToIcmpEcho (length : Half) : List HostMove := [cmdMove (.echoReply length)]

/-- `replyToUdp(buffer, payload, payloadLength, destPort)`. -/
def callReplyToUdp (payload : List Byte) (payloadLength destPort : Half) : List HostMove :=
  pbwMoves 0 payload ++ [.regWrite 9 (destPort.setWidth 32), cmdMove (.udpReply payloadLength)]

/-- `handleTcpSyn(buffer)`. -/
def callHandleTcpSyn : List HostMove := [cmdMove .tcpSynack]

/-- `handleTcpAckNoData(buffer)`. -/
def callHandleTcpAckNoData : List HostMove := [cmdMove .tcpAckFromAny]

/-- `respondTcpWithData(buffer, payload, payloadLength)`. -/
def callRespondTcpWithData (payload : List Byte) (payloadLength : Half) : List HostMove :=
  pbwMoves 0 payload ++ [cmdMove (.tcpRespondData payloadLength)]

/-- `getTcpDataOffset(buffer)`. -/
def callGetTcpDataOffset : List HostMove := [cmdMove .getDataOffset, readResult]

/-- `getTcpDataLength(buffer)`. -/
def callGetTcpDataLength : List HostMove := [cmdMove .getDataLen, readResult]

end Sys2Proof.Machine
end

