-- ==== Sys2Proof/Safety.lean ====
section
/-! DEFINITION. What a safe run is, and the terms the statements use: bytes and big-endian fields of a buffer, the
one's-complement sum in closed form, the legal command words of the opcode table, the invariant of every step. -/

namespace Sys2Proof.Safety

open Sys2Proof.Machine

/-! ## Reading a buffer -/

/-- A byte of a buffer; 0 where it is not defined, so a statement uses it only where definedness is given. -/
def byteAt (m : Memory) (a : Nat) : Byte := (m.read a).getD 0

/-- The n-byte big-endian value at an index (R81). -/
def beAt (m : Memory) (a : Nat) : Nat → Nat
  | 0 => 0
  | n + 1 => (byteAt m a).toNat * 256 ^ n + beAt m (a + 1) n

/-- The bytes m[a..a+n-1] are all defined (R52). -/
abbrev Defined (m : Memory) (a n : Nat) : Prop := ∀ k < n, (m.read (a + k)).isSome = true

/-- A list of n bytes is m[0..n-1]: what `Send(n)` carries (R376). -/
def IsFrame (m : Memory) (n : Nat) (bytes : List Byte) : Prop :=
  bytes.length = n ∧ ∀ k < n, m.read k = bytes[k]?

/-- m[a..a+bs.length-1] holds the bytes bs. -/
def Holds (m : Memory) (a : Nat) (bs : List Byte) : Prop := ∀ k < bs.length, m.read (a + k) = bs[k]?

/-- The bytes from lo up to, not including, hi are as before. -/
def Same (lo hi : Nat) (m m' : Memory) : Prop := ∀ a, lo ≤ a → a < hi → m'.read a = m.read a

/-- Every byte from lo on is as before. -/
def SameFrom (lo : Nat) (m m' : Memory) : Prop := ∀ a, lo ≤ a → m'.read a = m.read a

/-- The n bytes at dst are the n bytes that stood at src before. -/
def Copied (src dst n : Nat) (m m' : Memory) : Prop := ∀ k < n, m'.read (dst + k) = m.read (src + k)

/-- The 16-bit big-endian field at a holds v. -/
def HasField (m : Memory) (a v : Nat) : Prop := Defined m a 2 ∧ beAt m a 2 = v

/-- The bytes of a MAC address in wire order. -/
def macBytes (m : BitVec 48) : List Byte :=
  [macByte m 0, macByte m 1, macByte m 2, macByte m 3, macByte m 4, macByte m 5]

/-! ## The Internet checksum in closed form (R151, R152) -/

/-- The sum of the big-endian words of m[a..a+n-1], an odd last byte counted as a high byte. -/
def wordSum (m : Memory) (a n : Nat) : Nat :=
  ((List.range n).map fun k => (byteAt m (a + k)).toNat * (if k % 2 = 0 then 256 else 1)).sum

/-- The value the fold of R151 ends with: 0 for 0, otherwise the representative from 1 to 0xFFFF modulo 0xFFFF. -/
def ocFold (sum : Nat) : Nat := if sum = 0 then 0 else (sum - 1) % 65535 + 1

/-- The one's complement of the folded sum. -/
def ocChecksum (sum : Nat) : Nat := 65535 - ocFold sum

/-- The 16-bit field at `field`, which lies inside the range of n bytes at `a`, holds the checksum of the range
taken with the field zero, over the given seed. -/
def CsumField (m : Memory) (seed a n field : Nat) : Prop :=
  Defined m field 2 ∧ beAt m field 2 = ocChecksum (seed + (wordSum m a n - beAt m field 2))

/-! ## Parts of a reply (R190 to R194, R288) -/

/-- The Ethernet addresses are turned around: to the inbound source, from this host (R190). -/
def EthTurned (id : Identity) (m m' : Memory) : Prop := Copied 6 0 6 m m' ∧ Holds m' 6 (macBytes id.mac)

/-- The IP header has DF, offset 0 and TTL 64, and its checksum is in place (R194). -/
def IpNormal (m' : Memory) : Prop := Holds m' 20 [0x40, 0x00, 64] ∧ CsumField m' 0 14 20 24

/-- The IP addresses are turned around: from this host, to the inbound source (R192). -/
def IpTurned (id : Identity) (m m' : Memory) : Prop := Holds m' 26 (ipBytes id.ip) ∧ Copied 26 30 4 m m'

/-- The TCP ports are exchanged (R288). -/
def PortsExchanged (m m' : Memory) : Prop := Copied 36 34 2 m m' ∧ Copied 34 36 2 m m'

/-- The acknowledgment number is the inbound sequence number plus rel (R289). -/
def Acknowledges (rel : Nat) (m m' : Memory) : Prop :=
  Defined m' 42 4 ∧ beAt m' 42 4 = (beAt m 38 4 + rel) % 4294967296

/-- D of R291: the inbound payload length. -/
def inboundLen (m : Memory) : Nat := beAt m 16 2 - 20 - 4 * ((byteAt m 46).toNat / 16)

/-- HL of R291: the inbound TCP header length. -/
def inboundHdr (m : Memory) : Nat := 4 * ((byteAt m 46).toNat / 16)

/-! ## Legal command words (R115, R117) -/

/-- The columns match and mask of spec/opcode_table.json. -/
def legalPatterns : List (Nat × Nat) :=
  [ (0x00000001, 0xFFFFFFFF), (0x00000002, 0x0000F9FF), (0x00000003, 0x0000FFFF), (0x00000004, 0x0000FFFF),
    (0x00000005, 0x0000FFFF), (0x00000006, 0xFFFFFFFF), (0x00000007, 0xFFFFFFFF), (0x00000008, 0xFFFFFFFF),
    (0x00000009, 0x0000FFFF), (0x0000000A, 0xFFFFFFFF), (0x0000000B, 0xFFFFFFFF), (0x0000000C, 0xFFFFFFFF),
    (0x0000000D, 0x0000FFFF), (0x0000000E, 0x0000FFFF), (0x0000000F, 0xFFFFFF3F), (0x00000010, 0xFFFFFFFF),
    (0x00000011, 0xFFFFFFFF), (0x00000012, 0x0000FFFF), (0x00000013, 0x0000FFFF), (0x00000014, 0x0000FEBF),
    (0x00000015, 0xFFFFFFFF), (0x00000016, 0xFFFFFFFF), (0x00000017, 0xFFFFFFFF) ]

/-- A legal command word (R115): it matches a row, and a CHECKSUM has K ≠ 3. -/
def LegalWord (w : Word) : Prop :=
  (∃ r ∈ legalPatterns, w.toNat &&& r.2 = r.1) ∧ (w.toNat % 64 = 2 → w.toNat / 512 % 4 ≠ 3)

/-! ## The written form of a command (R121) -/

/-- The mnemonic and the fields that write a command: the mnemonic of R117, and the fields its row uses (R121). -/
def written : Instr → String × AsmFields
  | .initAddr => ("INIT_ADDR", {})
  | .checksum k l => ("CHECKSUM", { l := some l.toNat, k := some k })
  | .isArpForMe l => ("IS_ARP_FOR_ME", { l := some l.toNat })
  | .isIpForMe l => ("IS_IP_FOR_ME", { l := some l.toNat })
  | .classify l => ("CLASSIFY", { l := some l.toNat })
  | .swapEth => ("SWAP_ETH", {})
  | .swapIp => ("SWAP_IP", {})
  | .fillIpCsum => ("FILL_IP_CSUM", {})
  | .newIpHdrTcp l => ("NEW_IP_HDR_TCP", { l := some l.toNat })
  | .arpReply => ("ARP_REPLY", {})
  | .arpRequest => ("ARP_REQUEST", {})
  | .isArpReplyForMe => ("IS_ARP_REPLY_FOR_ME", {})
  | .echoReply l => ("ECHO_REPLY", { l := some l.toNat })
  | .udpReply l => ("UDP_REPLY", { l := some l.toNat })
  | .buildTcpHdr m s => ("BUILD_TCP_HDR", { m := m, s := s })
  | .tcpSynack => ("TCP_SYNACK", {})
  | .tcpAckFromAny => ("TCP_ACK_FROM_ANY", {})
  | .tcpAckWithData l => ("TCP_ACK_WITH_DATA", { l := some l.toNat })
  | .tcpRespondData l => ("TCP_RESPOND_DATA", { l := some l.toNat })
  | .tcpClient m z l => ("TCP_CLIENT", { l := some l.toNat, m := m, z := z })
  | .inboundInfo => ("INBOUND_INFO", {})
  | .getDataOffset => ("GET_DATA_OFFSET", {})
  | .getDataLen => ("GET_DATA_LEN", {})

/-! ## Commands by what the spec says of them (R117, R42, R376) -/

/-- The commands marked "ID" in R117. -/
def needsIdentity : Instr → Bool
  | .isArpForMe _ | .isIpForMe _ | .classify _ | .swapEth | .swapIp | .newIpHdrTcp _ | .arpReply | .arpRequest
  | .isArpReplyForMe | .echoReply _ | .udpReply _ | .tcpSynack | .tcpAckFromAny | .tcpClient _ _ _ => true
  | .initAddr | .checksum _ _ | .fillIpCsum | .buildTcpHdr _ _ | .tcpAckWithData _ | .tcpRespondData _
  | .inboundInfo | .getDataOffset | .getDataLen => false

/-- The query commands of R42, which write RESULT. -/
def isQuery : Instr → Bool
  | .checksum _ _ | .isArpForMe _ | .isIpForMe _ | .classify _ | .isArpReplyForMe | .getDataOffset
  | .getDataLen => true
  | .initAddr | .swapEth | .swapIp | .fillIpCsum | .newIpHdrTcp _ | .arpReply | .arpRequest | .echoReply _
  | .udpReply _ | .buildTcpHdr _ _ | .tcpSynack | .tcpAckFromAny | .tcpAckWithData _ | .tcpRespondData _
  | .tcpClient _ _ _ | .inboundInfo => false

/-- The commands whose pseudocode ends in Send (R376). -/
def sends : Instr → Bool
  | .arpReply | .arpRequest | .echoReply _ | .udpReply _ | .tcpSynack | .tcpAckFromAny | .tcpAckWithData _
  | .tcpRespondData _ | .tcpClient _ _ _ => true
  | .initAddr | .checksum _ _ | .isArpForMe _ | .isIpForMe _ | .classify _ | .swapEth | .swapIp | .fillIpCsum
  | .newIpHdrTcp _ | .isArpReplyForMe | .buildTcpHdr _ _ | .inboundInfo | .getDataOffset | .getDataLen => false

/-- The commands that write FB. -/
def writesFb : Instr → Bool
  | .swapEth | .swapIp | .fillIpCsum | .newIpHdrTcp _ | .arpReply | .arpRequest | .echoReply _ | .udpReply _
  | .buildTcpHdr _ _ | .tcpSynack | .tcpAckFromAny | .tcpAckWithData _ | .tcpRespondData _
  | .tcpClient _ _ _ => true
  | .initAddr | .checksum _ _ | .isArpForMe _ | .isIpForMe _ | .classify _ | .isArpReplyForMe | .inboundInfo
  | .getDataOffset | .getDataLen => false

/-! ## Errors (R360, R361, R367) -/

/-- A state with a fault latched: the code in STATUS.ERR, the command word in FAULT_CMD (R361). -/
def latched (s : State) (code : Byte) (w : Word) : State :=
  { s with fault := true, err := code, faultCmd := w }

/-- The commands that must follow TCP_ACK_FROM_ANY (R38). -/
def needsAck : Instr → Bool
  | .tcpAckWithData _ | .tcpRespondData _ => true
  | .initAddr | .checksum _ _ | .isArpForMe _ | .isIpForMe _ | .classify _ | .swapEth | .swapIp | .fillIpCsum
  | .newIpHdrTcp _ | .arpReply | .arpRequest | .isArpReplyForMe | .echoReply _ | .udpReply _ | .buildTcpHdr _ _
  | .tcpSynack | .tcpAckFromAny | .tcpClient _ _ _ | .inboundInfo | .getDataOffset | .getDataLen => false

/-- The argument registers the command reads, by the column "args" of R117, are all set. -/
def argsSet (s : State) : Instr → Bool
  | .initAddr => s.argMacHi.isSome && s.argMacLo.isSome && s.argIp.isSome
  | .checksum _ _ => s.argOff.isSome
  | .newIpHdrTcp _ | .arpRequest => s.argIp.isSome
  | .udpReply _ => s.argPort.isSome
  | .buildTcpHdr _ _ => s.argAck.isSome
  | .tcpClient _ _ _ => s.argPort.isSome && s.argSport.isSome && s.argFlags.isSome && s.argAck.isSome &&
      (s.argMacHi.isSome && s.argMacLo.isSome) && s.argIp.isSome
  | .isArpForMe _ | .isIpForMe _ | .classify _ | .swapEth | .swapIp | .fillIpCsum | .arpReply | .isArpReplyForMe
  | .echoReply _ | .tcpSynack | .tcpAckFromAny | .tcpAckWithData _ | .tcpRespondData _ | .inboundInfo
  | .getDataOffset | .getDataLen => true

/-- CHECKSUM with kind UDP or TCP over fewer than 8 bytes (R150). -/
def badLength : Instr → Bool
  | .checksum k l => (k == .udp || k == .tcp) && decide (l.toNat < 8)
  | .initAddr | .isArpForMe _ | .isIpForMe _ | .classify _ | .swapEth | .swapIp | .fillIpCsum | .newIpHdrTcp _
  | .arpReply | .arpRequest | .isArpReplyForMe | .echoReply _ | .udpReply _ | .buildTcpHdr _ _ | .tcpSynack
  | .tcpAckFromAny | .tcpAckWithData _ | .tcpRespondData _ | .tcpClient _ _ _ | .inboundInfo | .getDataOffset
  | .getDataLen => false

/-- The payload length UDP_REPLY uses (R261). -/
def udpLength (l : Half) : Nat := min l.toNat 220

/-- The TCP header length TCP_CLIENT uses (R287). -/
def clientHdr (m : Bool) : Nat := if m then 24 else 20

/-- The length checks a command makes before it reads FB all pass (R150, R240, R260, R285 to R287). -/
def lengthsFit (s : State) : Instr → Bool
  | .checksum _ l => decide ((s.argOff.getD 0).toNat + l.toNat ≤ s.params.bufSize)
  | .echoReply l => decide (l.toNat ≤ s.params.bufSize)
  | .udpReply l => decide (udpLength l ≤ s.params.pbSize ∧ 42 + udpLength l ≤ s.params.bufSize)
  | .tcpAckWithData l => decide (54 + l.toNat ≤ s.params.bufSize)
  | .tcpRespondData l => decide (l.toNat ≤ s.params.pbSize ∧ 54 + l.toNat ≤ s.params.bufSize)
  | .tcpClient m _ l => decide (34 + clientHdr m + l.toNat ≤ s.params.bufSize)
  | .initAddr | .isArpForMe _ | .isIpForMe _ | .classify _ | .swapEth | .swapIp | .fillIpCsum | .newIpHdrTcp _
  | .arpReply | .arpRequest | .isArpReplyForMe | .buildTcpHdr _ _ | .tcpSynack | .tcpAckFromAny | .inboundInfo
  | .getDataOffset | .getDataLen => true

/-- The code of the first error that applies before a command reads FB or PB, in the order 2 to 6 of R367. -/
def upFrontError (s : State) (i : Instr) : Option Byte :=
  if needsAck i && !s.ackBuilt then some 0x07
  else if needsIdentity i && s.identity.isNone then some 0x02
  else if i == .initAddr && s.identity.isSome then some 0x03
  else if !argsSet s i then some 0x05
  else if badLength i then some 0x06
  else if !lengthsFit s i then some 0x04
  else none

/-- The index is in lo..hi-1. -/
def within (lo hi a : Nat) : Bool := decide (lo ≤ a ∧ a < hi)

/-- What IS_ARP_FOR_ME reads: each test is made only when the ones before it hold (R170). -/
def arpTestReads (s : State) (l : Half) (a : Nat) : Bool :=
  decide (41 ≤ l.toNat) && (within 12 14 a || (beAt s.fb 12 2 == 0x0806 && within 38 42 a))

/-- What IS_IP_FOR_ME reads (R171). -/
def ipTestReads (s : State) (l : Half) (a : Nat) : Bool :=
  decide (42 ≤ l.toNat) && (within 12 14 a ||
    (beAt s.fb 12 2 == 0x0800 && (a == 14 || (byteAt s.fb 14 == 0x45 && within 30 34 a))))

/-- The bytes of FB whose value before the command the command reads; a byte the command writes before it reads it
is not one of them (R362). They are the bytes of the line "Errors" of each rule, with those that only Send reads. -/
def readsFb (s : State) : Instr → Nat → Bool
  | .checksum _ l, a => within (s.argOff.getD 0).toNat ((s.argOff.getD 0).toNat + l.toNat) a
  | .isArpForMe l, a => arpTestReads s l a
  | .isIpForMe l, a => ipTestReads s l a
  | .classify l, a => arpTestReads s l a || ipTestReads s l a
  | .swapEth, a => within 6 12 a
  | .swapIp, a => within 14 20 a || a == 23 || within 26 30 a
  | .fillIpCsum, a => within 14 20 a || a == 23 || within 26 34 a
  | .arpReply, a => within 6 20 a || within 22 32 a
  | .isArpReplyForMe, a => within 12 14 a ||
      (beAt s.fb 12 2 == 0x0806 && (within 20 22 a || (beAt s.fb 20 2 == 2 && within 38 42 a)))
  | .echoReply l, a => within 6 12 a || within 14 20 a || a == 23 || within 26 30 a || a == 36 ||
      (a == 37 && decide (0xF8 ≤ (byteAt s.fb 36).toNat)) ||
      (decide (a < l.toNat) && (within 12 20 a || a == 23 || a == 35 || decide (37 ≤ a)))
  | .udpReply _, a => within 6 16 a || within 18 20 a || a == 23 || within 26 30 a || within 34 36 a
  | .buildTcpHdr _ _, a => within 34 46 a
  | .tcpSynack, a => within 6 16 a || within 18 20 a || a == 23 || within 26 30 a || within 34 46 a ||
      within 48 50 a || within 52 54 a
  | .tcpAckFromAny, a => within 6 20 a || a == 23 || within 26 30 a || within 34 47 a ||
      (a == 47 && decide (s.params.ackFin = .echoFin)) || within 48 50 a || within 52 54 a
  | .tcpAckWithData l, a => within 0 16 a || within 18 20 a || a == 23 || within 26 47 a || within 48 50 a ||
      within 52 (54 + l.toNat) a
  | .tcpRespondData _, a => within 0 16 a || within 18 20 a || a == 23 || within 26 47 a || within 48 50 a ||
      within 52 54 a
  | .tcpClient m _ l, a => within 38 46 a || (!m && within 48 50 a) || within 52 54 a ||
      within (34 + clientHdr m) (34 + clientHdr m + l.toNat) a
  | .inboundInfo, a | .getDataOffset, a | .getDataLen, a => within 16 18 a || a == 46
  | .initAddr, _ | .newIpHdrTcp _, _ | .arpRequest, _ => false

/-- The bytes of PB a command reads (R260, R286). -/
def readsPb : Instr → Nat → Bool
  | .udpReply l, a => decide (a < udpLength l)
  | .tcpRespondData l, a => decide (a < l.toNat)
  | .initAddr, _ | .checksum _ _, _ | .isArpForMe _, _ | .isIpForMe _, _ | .classify _, _ | .swapEth, _
  | .swapIp, _ | .fillIpCsum, _ | .newIpHdrTcp _, _ | .arpReply, _ | .arpRequest, _ | .isArpReplyForMe, _
  | .echoReply _, _ | .buildTcpHdr _ _, _ | .tcpSynack, _ | .tcpAckFromAny, _ | .tcpAckWithData _, _
  | .tcpClient _ _ _, _ | .inboundInfo, _ | .getDataOffset, _ | .getDataLen, _ => false

/-- Every byte the command reads is defined (R362). -/
def Readable (s : State) (i : Instr) : Prop :=
  (∀ a, readsFb s i a = true → (s.fb.read a).isSome = true) ∧
    ∀ a, readsPb i a = true → (s.pb.read a).isSome = true

/-- No error applies: the command has its effect. -/
def Ready (s : State) (i : Instr) : Prop := i.wellFormed = true ∧ upFrontError s i = none ∧ Readable s i

/-- The error codes a command can raise after decoding, by the column "raised by" of R360. -/
def mayRaise (i : Instr) (code : Byte) : Bool :=
  (code == 0x02 && needsIdentity i) || (code == 0x03 && i == .initAddr) ||
  (code == 0x04 && match i with
    | .checksum _ _ | .echoReply _ | .udpReply _ | .tcpAckWithData _ | .tcpRespondData _ | .tcpClient _ _ _ => true
    | _ => false) ||
  code == 0x05 ||
  (code == 0x06 && match i with
    | .checksum _ _ => true
    | _ => false) ||
  (code == 0x07 && needsAck i)

/-! ## Safe runs -/

/-- A run from the first state reaches the second. -/
inductive Reaches : State → State → Prop
  | here (s : State) : Reaches s s
  | next {s t u : State} (h : step s = .next t) (rest : Reaches t u) : Reaches s u

/-- The run ends in this state: no move is left (R415). The observation is its transmit events and the state itself. -/
def Ends (s t : State) : Prop := Reaches s t ∧ t.host = []

/-- The run from a state is successful: no state it reaches has a fault latched (R365) and no move of it is refused (R46,
R415). DEDUCED (log entry 18): the states before a reset are of the same run, and a refused run is not successful. Safe. -/
def Successful (s : State) : Prop := ∀ t, Reaches s t → t.fault = false ∧ ∃ u, step t = .next u

/-- The invariant every step keeps. -/
structure CoreInv (s : State) : Prop where
  /-- The parameters are in the ranges of R10. -/
  legal : s.params.Legal
  /-- FB is in canonical form and has P_BUF_SIZE bytes (R32). -/
  fbForm : s.fb.wf = true ∧ s.fb.below s.params.bufSize = true
  /-- PB is in canonical form and has P_PB_SIZE bytes (R33). -/
  pbForm : s.pb.wf = true ∧ s.pb.below s.params.pbSize = true
  /-- Without a latched fault STATUS.ERR and FAULT_CMD are 0; with one, STATUS.ERR is a code that is raised
  (R41, R43, R360). -/
  latch : if s.fault then s.err ≠ 0 ∧ s.err.toNat ≤ 7 else s.err = 0 ∧ s.faultCmd = 0
  /-- While ACK_BUILT = 1 the identity is set and FB holds the whole frame of a bare ACK (R38, R283). -/
  built : s.ackBuilt = true → s.identity.isSome = true ∧ Defined s.fb 0 54
  /-- Every transmit event carries as many bytes as it says, no more than FB has (R376). -/
  frames : ∀ f ∈ s.tx, f.bytes.length = f.len ∧ f.len ≤ s.params.bufSize
  /-- RX_LEN is a length the link can deposit (R377). -/
  received : ∀ n, s.rxLen = some n → 1 ≤ n.toNat ∧ n.toNat ≤ s.params.bufSize
  /-- INFO_HLEN is a header length: four times a nibble (R291). -/
  headerLen : ∀ h, s.infoHlen = some h → h.toNat % 4 = 0 ∧ h.toNat ≤ 60

end Sys2Proof.Safety
end

