-- ==== Sys2Proof/Certificates/Slice0/Obligations.lean ====
section
/-! DEFINITION. The statements for the provers. A statement about one command has the form: where no error applies
(`Ready`), `exec` answers exactly this next state. The record update says what the command leaves alone; the clauses on
`m` say what every byte of FB is afterwards. -/

open Sys2Proof Sys2Proof.Machine Sys2Proof.Safety

/-! ## The command word -/

/-- The decoder gives back every command some legal word encodes, with every operand (R111, R117, R119). -/
def Obligations.EncodeThenDecode : Prop := ∀ i : Instr, i.wellFormed = true → decode (encode i) = .ok i

/-- A word that decodes is the word of the command it decodes to: no two words are one command (R115). -/
def Obligations.DecodeThenEncode : Prop :=
  ∀ (w : Word) (i : Instr), decode w = .ok i → i.wellFormed = true ∧ encode i = w

/-- R115: the words that decode are those that match their row of the opcode table and, for CHECKSUM, have K ≠ 3;
every other word, written to CMD, raises ILLEGAL. -/
def Obligations.LegalWordsRunAndOthersAreIllegal : Prop :=
  ∀ w : Word, (LegalWord w → ∃ i, decode w = .ok i) ∧
    (¬ LegalWord w → ∀ s : State, s.fault = false → writeCmd w s = .next (latched s 0x01 w))

/-- R113: in a CHECKSUM word (OP = 2, L in bits 31:16, every other field zero) K = 0, 1, 2 are IP, UDP, TCP, and K = 3
raises ILLEGAL. -/
def Obligations.ChecksumKindField : Prop :=
  ∀ l : Half, (decode (BitVec.ofNat 32 (l.toNat * 65536 + 0 * 512 + 2)) = .ok (.checksum .ip l)) ∧
    (decode (BitVec.ofNat 32 (l.toNat * 65536 + 1 * 512 + 2)) = .ok (.checksum .udp l)) ∧
    (decode (BitVec.ofNat 32 (l.toNat * 65536 + 2 * 512 + 2)) = .ok (.checksum .tcp l)) ∧
    ∀ s : State, s.fault = false → writeCmd (BitVec.ofNat 32 (l.toNat * 65536 + 3 * 512 + 2)) s =
      .next (latched s 0x01 (BitVec.ofNat 32 (l.toNat * 65536 + 3 * 512 + 2)))

/-- Words written out from the layout of R111 and the opcodes of R117 decode to what they stand for. -/
def Obligations.SpecWordsDecode : Prop :=
  decode 0x00000001#32 = .ok .initAddr ∧ decode 0x00200402#32 = .ok (.checksum .tcp 32) ∧
  decode 0x002A0005#32 = .ok (.classify 42) ∧ decode 0x00000006#32 = .ok .swapEth ∧
  decode 0x0000000A#32 = .ok .arpReply ∧ decode 0x002E000D#32 = .ok (.echoReply 46) ∧
  decode 0x0003000E#32 = .ok (.udpReply 3) ∧ decode 0x0000004F#32 = .ok (.buildTcpHdr true false) ∧
  decode 0x0000008F#32 = .ok (.buildTcpHdr false true) ∧ decode 0x00000154#32 = .ok (.tcpClient true true 0) ∧
  decode 0x00030114#32 = .ok (.tcpClient false true 3) ∧ decode 0x00000015#32 = .ok .inboundInfo

/-- R121: a line of a mnemonic and fields stands for the command that `Safety.written` writes so, with the values of L, K,
M, S and Z; what it stands for is a legal command; and R121's three examples are its words. That no other line stands for a
command is the model's choice (log entry 15). -/
def Obligations.AssembledCommandsAreLegal : Prop :=
  (∀ (mnemonic : String) (f : AsmFields) (i : Instr),
    assemble mnemonic f = some i ↔ i.wellFormed = true ∧ written i = (mnemonic, f)) ∧
  (∀ (mnemonic : String) (f : AsmFields) (i : Instr), assemble mnemonic f = some i → decode (encode i) = .ok i) ∧
  (assemble "CHECKSUM" { k := some .tcp, l := some 32 }).map encode = some 0x00200402 ∧
  (assemble "BUILD_TCP_HDR" { m := true }).map encode = some 0x0000004F ∧
  (assemble "TCP_CLIENT" { m := true, z := true, l := some 0 }).map encode = some 0x00000154

/-! ## A step -/

/-- A step whose first move is a write of CMD runs the decoded command on the state without that move; and a word
placed with `withFetchWord` is what the next step runs. The list of moves is the model's (log entry 6). -/
def Obligations.StepRunsDecodedCommand : Prop :=
  (∀ (s : State) (w : Word) (rest : List HostMove) (i : Instr), s.host = .regWrite 0 w :: rest → s.fault = false →
    decode w = .ok i → step s = exec i { s with host := rest }) ∧
  ∀ (s : State) (nbits w : Nat) (i : Instr), s.fault = false → decode (tableWord nbits w) = .ok i →
    step (s.withFetchWord nbits w) = exec i s

/-- With no move left a step changes nothing (the model's choice, log entry 6). -/
def Obligations.IdleStepChangesNothing : Prop := ∀ s : State, s.host = [] → step s = .next s

/-- R365: while a fault is latched a write of CMD changes nothing, and every other move than reset and a read of STATUS
does what it does without the fault. -/
def Obligations.FaultedCoreIgnoresOnlyCommands : Prop :=
  ∀ s : State, s.fault = true →
    (∀ w, runMove (.regWrite 0 w) s = .next s) ∧
    ∀ (e : HostMove) (t : State), (∀ w, e ≠ .regWrite 0 w) → e ≠ .reset → e ≠ .regRead 1 →
      (∀ v len, e ≠ .ifReg 1 v len) → runMove e { s with fault := false } = .next t →
      runMove e s = .next { t with fault := true }

/-- The latch keeps the first fault until reset (R365, R366). -/
def Obligations.FaultIsStickyUntilReset : Prop :=
  ∀ s t : State, s.fault = true → step s = .next t →
    (t.fault = true ∧ t.err = s.err ∧ t.faultCmd = s.faultCmd) ∨ ∃ rest, s.host = .reset :: rest

/-- Every step keeps the invariant `CoreInv`, from every state that meets it. -/
def Obligations.StepKeepsInvariant : Prop := ∀ s t : State, CoreInv s → step s = .next t → CoreInv t

/-- The state after reset meets the invariant. -/
def Obligations.ResetMeetsInvariant : Prop := CoreInv State.reset

/-! ## Errors -/

/-- R361: a command that faults has no effect but the latch, its code and the command word. -/
def Obligations.FaultEntryIsPrecise : Prop :=
  ∀ (s t : State) (w : Word), s.params.Legal → s.fault = false → writeCmd w s = .next t → t.fault = true →
    ∃ code : Byte, 1 ≤ code.toNat ∧ code.toNat ≤ 7 ∧ t = latched s code w

/-- R367: the error reported is the first that applies: ILLEGAL, SEQ, NOT_INIT or REINIT, UNDEF of an argument register,
ARG, RANGE, UNDEF of a byte of FB or PB; and without any of them the command has no fault. -/
def Obligations.FirstErrorIsReported : Prop :=
  ∀ (s : State) (w : Word), s.params.Legal → s.fault = false →
    (¬ LegalWord w → writeCmd w s = .next (latched s 0x01 w)) ∧
    ∀ i : Instr, decode w = .ok i →
      (∀ code, upFrontError s i = some code → writeCmd w s = .next (latched s code w)) ∧
      (upFrontError s i = none → ¬ Readable s i → writeCmd w s = .next (latched s 0x05 w)) ∧
      (upFrontError s i = none → Readable s i → ∃ t, writeCmd w s = .next t ∧ t.fault = false)

/-- Each command raises only the errors that R360 lists it for; those with fixed offsets raise no RANGE. -/
def Obligations.CommandsRaiseOnlyTheirErrors : Prop :=
  ∀ (s t : State) (i : Instr), s.params.Legal → i.wellFormed = true → s.fault = false → exec i s = .next t →
    t.fault = true → ∃ code, mayRaise i code = true ∧ t = latched s code (encode i)

/-- R363: a command marked "ID" raises NOT_INIT while ID_VALID = 0. -/
def Obligations.NotInitIsRaised : Prop :=
  ∀ (s : State) (i : Instr), needsIdentity i = true → s.identity = none →
    exec i s = .next (latched s 0x02 (encode i))

/-- The identity, once set, stays until reset, and only INIT_ADDR sets it, to ARG_MAC and ARG_IP (R34, R351). -/
def Obligations.IdentityIsSetOnce : Prop :=
  ∀ s t : State, s.params.Legal → step s = .next t →
    (∀ id, s.identity = some id → t.identity = some id ∨ ∃ rest, s.host = .reset :: rest) ∧
    ∀ id, s.identity = none → t.identity = some id →
      (∃ rest, s.host = .regWrite 0 0x00000001 :: rest) ∧ s.argMac = some id.mac ∧ s.argIp = some id.ip

/-! ## Address initialisation and checksum -/

/-- INIT_ADDR: REINIT when the identity is set, UNDEF when an argument is unset, otherwise the identity is set to
ARG_MAC and ARG_IP (R350). -/
def Obligations.InitAddrSetsIdentity : Prop :=
  ∀ s : State,
    (s.identity.isSome = true → exec .initAddr s = .next (latched s 0x03 0x00000001)) ∧
    (s.identity = none → s.argMacHi = none ∨ s.argMacLo = none ∨ s.argIp = none →
      exec .initAddr s = .next (latched s 0x05 0x00000001)) ∧
    ∀ (hi : BitVec 16) (lo ip : BitVec 32), s.identity = none → s.argMacHi = some hi → s.argMacLo = some lo →
      s.argIp = some ip →
      exec .initAddr s = .next { s with identity := some ⟨hi ++ lo, ip⟩, ackBuilt := false }

/-- CHECKSUM gives the one's complement of the folded sum of the big-endian words, over the seed of its kind (R150,
R151, R155). -/
def Obligations.ChecksumGivesResult : Prop :=
  ∀ (s : State) (off l : Half) (k : Kind), s.params.Legal → s.argOff = some off → Ready s (.checksum k l) →
    exec (.checksum k l) s = .next { s with
      result := some (BitVec.ofNat 16 (ocChecksum ((match k with
        | .ip => 0
        | .udp => 17 + (l.toNat - 8)
        | .tcp => 6 + (l.toNat - 8)
        | .reserved => 0) + wordSum s.fb off.toNat l.toNat)))
      ackBuilt := false }

/-- R152: the folded sum lies in 0 to 0xFFFF and is 0 only for the sum 0; the result is 0xFFFF exactly for kind IP over
bytes that are all zero; it can be 0. -/
def Obligations.ChecksumResultRange : Prop :=
  (∀ sum, foldCarries sum ≤ 0xFFFF ∧ (foldCarries sum = 0 ↔ sum = 0)) ∧
  (∀ (s : State) (a n : Nat) (k : Kind) (c : Half), k ≠ .reserved → inetChecksum s a n k = .ok c →
    (c = 0xFFFF ↔ k = .ip ∧ ∀ j < n, byteAt s.fb (a + j) = 0)) ∧
  ∀ (s : State) (a : Nat), a + 2 ≤ s.params.bufSize → Holds s.fb a [0xFF, 0xFF] → inetChecksum s a 2 .ip = .ok 0

/-- R153: a checksum computed while its field is zero and written into that field, at an even distance from the start,
makes the range's checksum 0. -/
def Obligations.ChecksumRoundTrip : Prop :=
  ∀ (s : State) (a n f : Nat) (k : Kind) (c : Half), a ≤ f → f + 2 ≤ a + n → (f - a) % 2 = 0 → beAt s.fb f 2 = 0 →
    a + n ≤ s.params.bufSize → inetChecksum s a n k = .ok c →
    ∃ t, s.memWrite f 2 c.toNat = .ok t ∧ inetChecksum t a n k = .ok 0

/-- A 32-bit accumulator holds every sum, and two folds end it, for buffers of the size R10 allows. (R156 gives the
bound 2^31; a full 65535-byte UDP range of FF bytes passes it and stays below 2^32: log entry 16.) -/
def Obligations.ChecksumFitsAccumulator : Prop :=
  ∀ (s : State) (a n sum : Nat) (k : Kind), s.params.Legal → a + n ≤ s.params.bufSize →
    sumWords s a n (checksumSeed k n) = .ok sum → sum < 4294967296 ∧ foldLoop 2 sum = foldCarries sum

/-! ## Classifier -/

/-- IS_ARP_FOR_ME and IS_IP_FOR_ME give 1 exactly when their tests hold (R170, R171). -/
def Obligations.FrameTestsGiveResult : Prop :=
  ∀ (s : State) (l : Half) (id : Identity), s.params.Legal → s.identity = some id →
    (Ready s (.isArpForMe l) → exec (.isArpForMe l) s = .next { s with
      result := some (if 41 ≤ l.toNat ∧ beAt s.fb 12 2 = 0x0806 ∧ beAt s.fb 38 4 = id.ip.toNat then 1 else 0)
      ackBuilt := false }) ∧
    (Ready s (.isIpForMe l) → exec (.isIpForMe l) s = .next { s with
      result := some (if 42 ≤ l.toNat ∧ beAt s.fb 12 2 = 0x0800 ∧ byteAt s.fb 14 = 0x45 ∧
        beAt s.fb 30 4 = id.ip.toNat then 1 else 0)
      ackBuilt := false })

/-- CLASSIFY gives 1 for an ARP packet for this host, 2 for an IP datagram for it, 0 otherwise (R172). -/
def Obligations.ClassifyGivesResult : Prop :=
  ∀ (s : State) (l : Half) (id : Identity), s.params.Legal → s.identity = some id → Ready s (.classify l) →
    exec (.classify l) s = .next { s with
      result := some (
        if 41 ≤ l.toNat ∧ beAt s.fb 12 2 = 0x0806 ∧ beAt s.fb 38 4 = id.ip.toNat then 1
        else if 42 ≤ l.toNat ∧ beAt s.fb 12 2 = 0x0800 ∧ byteAt s.fb 14 = 0x45 ∧ beAt s.fb 30 4 = id.ip.toNat then 2
        else 0)
      ackBuilt := false }

/-! ## Envelope -/

/-- R191: after SWAP_ETH, FB[0..5] is the inbound FB[6..11], FB[6..11] is MAC_ADDR, and no other byte changes. -/
def Obligations.SwapEthExchangesMacs : Prop :=
  ∀ (s : State) (id : Identity), s.params.Legal → s.identity = some id → Ready s .swapEth →
    ∃ m, exec .swapEth s = .next { s with fb := m, ackBuilt := false } ∧ EthTurned id s.fb m ∧ SameFrom 12 s.fb m

/-- SWAP_IP: the inbound source becomes the destination, IP_ADDR the source, and the header is normalised with a fresh
checksum (R192, R194). -/
def Obligations.SwapIpExchangesAddresses : Prop :=
  ∀ (s : State) (id : Identity), s.params.Legal → s.identity = some id → Ready s .swapIp →
    ∃ m, exec .swapIp s = .next { s with fb := m, ackBuilt := false } ∧ IpTurned id s.fb m ∧ IpNormal m ∧
      Same 0 20 s.fb m ∧ Same 23 24 s.fb m ∧ SameFrom 34 s.fb m

/-- R195: after fillIpChecksum the header's checksum verifies; and FILL_IP_CSUM sets DF, offset 0, TTL 64 and the
checksum, and no other byte. -/
def Obligations.FillIpCsumMakesHeaderVerify : Prop :=
  (∀ s t : State, fillIpChecksum s = .ok t → inetChecksum t 14 20 .ip = .ok 0) ∧
  ∀ s : State, s.params.Legal → Ready s .fillIpCsum →
    ∃ m, exec .fillIpCsum s = .next { s with fb := m, ackBuilt := false } ∧ IpNormal m ∧
      Same 0 20 s.fb m ∧ Same 23 24 s.fb m ∧ SameFrom 26 s.fb m

/-- R197: the header newIpHeaderForTcp leaves has DF and TTL 64, not the zero flags and TTL 128 it writes first; and
NEW_IP_HDR_TCP builds that header with the identification IPID, which it moves on. -/
def Obligations.NewIpHdrTcpBuildsHeader : Prop :=
  (∀ (s t : State) (id : Identity) (tl : Nat) (dip : BitVec 32), newIpHeaderForTcp id tl dip s = .ok t →
    Holds t.fb 20 [0x40, 0x00, 64]) ∧
  ∀ (s : State) (l : Half) (id : Identity) (dip : BitVec 32), s.params.Legal → s.identity = some id →
    s.argIp = some dip →
    ∃ m, exec (.newIpHdrTcp l) s = .next { s with fb := m, ipid := s.ipid + 1, ackBuilt := false } ∧
      Same 0 14 s.fb m ∧ Holds m 14 [0x45, 0x00] ∧ HasField m 16 l.toNat ∧ HasField m 18 s.ipid.toNat ∧ IpNormal m ∧
      Holds m 23 [6] ∧ Holds m 26 (ipBytes id.ip) ∧ Holds m 30 (ipBytes dip) ∧ SameFrom 34 s.fb m

/-! ## ARP -/

/-- R221: in the reply of ARP_REPLY both sources are this host, both targets the requestor; the frame of 42 bytes is
sent. -/
def Obligations.ArpReplySendsReply : Prop :=
  ∀ (s : State) (id : Identity), s.params.Legal → s.identity = some id → Ready s .arpReply →
    ∃ m bytes, exec .arpReply s = .next { s with fb := m, tx := s.tx ++ [⟨42, bytes⟩], ackBuilt := false } ∧
      IsFrame m 42 bytes ∧ EthTurned id s.fb m ∧ Same 12 20 s.fb m ∧ Holds m 20 [0x00, 0x02] ∧
      Holds m 22 (macBytes id.mac) ∧ Holds m 28 (ipBytes id.ip) ∧ Copied 22 32 6 s.fb m ∧ Copied 28 38 4 s.fb m ∧
      SameFrom 42 s.fb m

/-- R223: the target MAC of an ARP request is six zero bytes; and ARP_REQUEST builds and sends the whole broadcast
request for ARG_IP. -/
def Obligations.ArpRequestSendsRequest : Prop :=
  ∀ (s : State) (id : Identity) (tip : BitVec 32), s.params.Legal → s.identity = some id → s.argIp = some tip →
    ∃ m bytes, exec .arpRequest s = .next { s with fb := m, tx := s.tx ++ [⟨42, bytes⟩], ackBuilt := false } ∧
      IsFrame m 42 bytes ∧ Holds m 0 [0xFF, 0xFF, 0xFF, 0xFF, 0xFF, 0xFF] ∧ Holds m 6 (macBytes id.mac) ∧
      Holds m 12 [0x08, 0x06, 0x00, 0x01, 0x08, 0x00, 6, 4, 0x00, 0x01] ∧ Holds m 22 (macBytes id.mac) ∧
      Holds m 28 (ipBytes id.ip) ∧ Holds m 32 [0x00, 0x00, 0x00, 0x00, 0x00, 0x00] ∧ Holds m 38 (ipBytes tip) ∧
      SameFrom 42 s.fb m

/-- IS_ARP_REPLY_FOR_ME gives 1 exactly for an ARP reply whose target IP is this host's (R224). -/
def Obligations.IsArpReplyForMeGivesResult : Prop :=
  ∀ (s : State) (id : Identity), s.params.Legal → s.identity = some id → Ready s .isArpReplyForMe →
    exec .isArpReplyForMe s = .next { s with
      result := some (if beAt s.fb 12 2 = 0x0806 ∧ beAt s.fb 20 2 = 2 ∧ beAt s.fb 38 4 = id.ip.toNat then 1 else 0)
      ackBuilt := false }

/-! ## ICMP -/

/-- ECHO_REPLY turns the frame around, writes type 0, adds 8 to the checksum byte at 36, with the end-around carry into
the byte at 37, and sends L bytes (R240, R241). -/
def Obligations.EchoReplySendsReply : Prop :=
  ∀ (s : State) (l : Half) (id : Identity), s.params.Legal → s.identity = some id → Ready s (.echoReply l) →
    ∃ m bytes, exec (.echoReply l) s = .next { s with
        fb := m, tx := s.tx ++ [⟨l.toNat, bytes⟩], ackBuilt := false } ∧
      IsFrame m l.toNat bytes ∧ EthTurned id s.fb m ∧ Same 12 20 s.fb m ∧ IpNormal m ∧ Same 23 24 s.fb m ∧
      IpTurned id s.fb m ∧ Holds m 34 [0x00] ∧ Same 35 36 s.fb m ∧ Holds m 36 [byteAt s.fb 36 + 8] ∧
      (if 0xF8 ≤ (byteAt s.fb 36).toNat then Holds m 37 [byteAt s.fb 37 + 1] else Same 37 38 s.fb m) ∧
      SameFrom 38 s.fb m

/-- R242: for an echo request of n bytes from offset 34 whose checksum is in place, the reply's checksum is the full
recomputation over the changed message, but when the inbound checksum is 0xF7FF (the reply then carries 0xFFFF) or one of
0xF8FF, 0xF9FF, ..., 0xFEFF (it is then 0x0100 below the recomputation). What the recomputation is for 0xF7FF is left out,
because R242's value there is not exact (log entry 16). -/
def Obligations.EchoChecksumMatchesRecomputation : Prop :=
  ∀ (s t : State) (l : Half) (n : Nat), s.params.Legal → 4 ≤ n → 34 + n ≤ s.params.bufSize → Ready s (.echoReply l) →
    Defined s.fb 34 n → byteAt s.fb 34 = 8 → CsumField s.fb 0 34 n 36 → exec (.echoReply l) s = .next t →
    let c := beAt s.fb 36 2
    let full := ocChecksum (wordSum t.fb 34 n - beAt t.fb 36 2)
    if c = 0xF7FF then beAt t.fb 36 2 = 0xFFFF
    else if 0xF8FF ≤ c ∧ c % 256 = 0xFF then beAt t.fb 36 2 + 0x0100 = full
    else beAt t.fb 36 2 = full

/-! ## UDP -/

/-- R265: the UDP checksum covers the addresses, the protocol 17, the UDP length 8 + n and FB[34..41+n], and verifies;
and UDP_REPLY turns the datagram around with the payload of PB and sends 42 + n bytes (R260, R264). -/
def Obligations.UdpReplySendsReply : Prop :=
  ∀ (s : State) (l port : Half) (id : Identity), s.params.Legal → s.identity = some id → s.argPort = some port →
    Ready s (.udpReply l) →
    let n := udpLength l
    ∃ m bytes, exec (.udpReply l) s = .next { s with
        fb := m, tx := s.tx ++ [⟨42 + n, bytes⟩], ackBuilt := false } ∧
      IsFrame m (42 + n) bytes ∧ EthTurned id s.fb m ∧ Same 12 16 s.fb m ∧ HasField m 16 (28 + n) ∧ Same 18 20 s.fb m ∧
      IpNormal m ∧ Same 23 24 s.fb m ∧ IpTurned id s.fb m ∧ Same 34 36 s.fb m ∧ HasField m 36 port.toNat ∧
      HasField m 38 (8 + n) ∧ CsumField m (17 + (8 + n)) 26 (16 + n) 40 ∧
      (∀ t : State, t.fb = m → t.params = s.params → inetChecksum t 26 (16 + n) .udp = .ok 0) ∧
      Copied 0 42 n s.pb m ∧ SameFrom (42 + n) s.fb m

/-- R261: UDP_REPLY with L > 220 behaves as with L = 220: it sends 262 bytes and raises no error of its own. -/
def Obligations.UdpPayloadIsClamped : Prop :=
  ∀ (s : State) (l : Half), 220 < l.toNat → s.params.Legal →
    (Ready s (.udpReply 220) → exec (.udpReply l) s = exec (.udpReply 220) s ∧
      ∃ t f, exec (.udpReply l) s = .next t ∧ t.tx = s.tx ++ [f] ∧ f.len = 262 ∧ t.fault = s.fault) ∧
    ∀ code, exec (.udpReply 220) s = .next (latched s code (encode (.udpReply 220))) →
      exec (.udpReply l) s = .next (latched s code (encode (.udpReply l)))

/-! ## TCP -/

/-- BUILD_TCP_HDR: the ports are exchanged, the acknowledgment number is the inbound sequence number plus ARG_ACK, the
sequence number is the inbound acknowledgment number or the fresh one, the checksum is zero, and the header length and
option are those of M; ISN moves on when the sequence number is fresh (R288). -/
def Obligations.BuildTcpHdrRebuildsHeader : Prop :=
  ∀ (s : State) (mss copySeq : Bool) (rel : Half), s.params.Legal → s.argAck = some rel →
    Ready s (.buildTcpHdr mss copySeq) →
    ∃ m, exec (.buildTcpHdr mss copySeq) s = .next { s with
        fb := m, isn := if copySeq then s.isn else s.isn + 2, ackBuilt := false } ∧
      Same 0 34 s.fb m ∧ PortsExchanged s.fb m ∧
      (if copySeq then Copied 42 38 4 s.fb m else Holds m 38 [0x00, 0x00, s.isn, 0x00]) ∧
      Acknowledges rel.toNat s.fb m ∧ Holds m 46 [if mss then 0x60 else 0x50] ∧ Same 47 50 s.fb m ∧
      Holds m 50 [0x00, 0x00] ∧ Same 52 54 s.fb m ∧
      (if mss then Holds m 54 [0x02, 0x04, 0x05, 0x80] else Same 54 58 s.fb m) ∧ SameFrom 58 s.fb m

/-- R289: the byte-wise addition of buildTcpHeader, and of the loop of TCP_CLIENT, is addition modulo 2^32; and
0xFFFFFFFF + 1 gives 0. -/
def Obligations.AcknowledgmentLaw : Prop :=
  (∀ (s t : State) (rel : Nat) (mss copySeq : Bool), s.params.Legal → buildTcpHeader rel mss copySeq s = .ok t →
    beAt t.fb 42 4 = (beAt s.fb 38 4 + rel) % 4294967296) ∧
  (∀ (s t : State) (rel : Nat), s.params.Legal → ackLoop true [3, 2, 1, 0] rel s = .ok t →
    beAt t.fb 42 4 = (beAt s.fb 38 4 + rel) % 4294967296) ∧
  ∀ (s t : State) (mss copySeq : Bool), s.params.Legal → beAt s.fb 38 4 = 0xFFFFFFFF →
    buildTcpHeader 1 mss copySeq s = .ok t → beAt t.fb 42 4 = 0

/-- R290: with copySeq = 1 the outbound sequence number is the inbound acknowledgment number; with copySeq = 0 it is
ISN << 8 and ISN grows by 2, so it keeps its parity. -/
def Obligations.SequenceLaw : Prop :=
  ∀ (s t : State) (rel : Nat) (mss : Bool), s.params.Legal →
    (buildTcpHeader rel mss true s = .ok t → beAt t.fb 38 4 = beAt s.fb 42 4 ∧ t.isn = s.isn) ∧
    (buildTcpHeader rel mss false s = .ok t → beAt t.fb 38 4 = s.isn.toNat * 256 ∧
      t.isn.toNat = (s.isn.toNat + 2) % 256 ∧ t.isn.toNat % 2 = s.isn.toNat % 2)

/-- TCP_SYNACK turns the segment around as a SYN-ACK with the MSS option and a fresh sequence number, acknowledges the
inbound sequence number plus 1, and sends 58 bytes (R282). -/
def Obligations.TcpSynackSendsSynAck : Prop :=
  ∀ (s : State) (id : Identity), s.params.Legal → s.identity = some id → Ready s .tcpSynack →
    ∃ m bytes, exec .tcpSynack s = .next { s with
        fb := m, isn := s.isn + 2, tx := s.tx ++ [⟨58, bytes⟩], ackBuilt := false } ∧
      IsFrame m 58 bytes ∧ EthTurned id s.fb m ∧ Same 12 16 s.fb m ∧ HasField m 16 44 ∧ Same 18 20 s.fb m ∧ IpNormal m ∧
      Same 23 24 s.fb m ∧ IpTurned id s.fb m ∧ PortsExchanged s.fb m ∧ Holds m 38 [0x00, 0x00, s.isn, 0x00] ∧
      Acknowledges 1 s.fb m ∧ Holds m 46 [0x60, 0x12] ∧ Same 48 50 s.fb m ∧ CsumField m (6 + 24) 26 32 50 ∧
      Same 52 54 s.fb m ∧ Holds m 54 [0x02, 0x04, 0x05, 0x80] ∧ SameFrom 58 s.fb m

/-- R284: the flags of TCP_ACK_FROM_ANY are 0x11 exactly when FINs are echoed, D = 0 and the inbound FIN is set, and
0x10 otherwise; FB[47] is read only when FINs are echoed (`Ready` asks for it only then); and the command acknowledges D
bytes, or 1 when D = 0, sends the 54-byte bare ACK and sets ACK_BUILT (R283). -/
def Obligations.TcpAckFromAnySendsAck : Prop :=
  ∀ (s : State) (id : Identity), s.params.Legal → s.identity = some id → Ready s .tcpAckFromAny →
    let d := inboundLen s.fb
    ∃ m bytes, exec .tcpAckFromAny s = .next { s with
        fb := m, tx := s.tx ++ [⟨54, bytes⟩], ackBuilt := true } ∧
      IsFrame m 54 bytes ∧ EthTurned id s.fb m ∧ Same 12 16 s.fb m ∧ HasField m 16 40 ∧ Same 18 20 s.fb m ∧ IpNormal m ∧
      Same 23 24 s.fb m ∧ IpTurned id s.fb m ∧ PortsExchanged s.fb m ∧ Copied 42 38 4 s.fb m ∧
      Acknowledges (if d = 0 then 1 else d) s.fb m ∧ Holds m 46 [0x50] ∧
      Holds m 47 [if s.params.ackFin = .echoFin ∧ d = 0 ∧ (byteAt s.fb 47).toNat % 2 = 1 then 0x11 else 0x10] ∧
      Same 48 50 s.fb m ∧ CsumField m (6 + 20) 26 28 50 ∧ SameFrom 52 s.fb m

/-- TCP_ACK_WITH_DATA makes the bare ACK in FB a PSH+ACK+FIN segment with the L payload bytes at offset 54, writes only
the flags, total length and checksums, and sends 54 + L bytes (R285). -/
def Obligations.TcpAckWithDataSendsSegment : Prop :=
  ∀ (s : State) (l : Half), s.params.Legal → Ready s (.tcpAckWithData l) →
    ∃ m bytes, exec (.tcpAckWithData l) s = .next { s with
        fb := m, tx := s.tx ++ [⟨54 + l.toNat, bytes⟩], ackBuilt := false } ∧
      IsFrame m (54 + l.toNat) bytes ∧ Same 0 16 s.fb m ∧ HasField m 16 (40 + l.toNat) ∧ Same 18 20 s.fb m ∧ IpNormal m ∧
      Same 23 24 s.fb m ∧ Same 26 47 s.fb m ∧ Holds m 47 [0x19] ∧ Same 48 50 s.fb m ∧
      CsumField m (6 + (20 + l.toNat)) 26 (28 + l.toNat) 50 ∧ SameFrom 52 s.fb m

/-- TCP_RESPOND_DATA copies L bytes of PB to offset 54 and then does the same (R286). -/
def Obligations.TcpRespondDataSendsSegment : Prop :=
  ∀ (s : State) (l : Half), s.params.Legal → Ready s (.tcpRespondData l) →
    ∃ m bytes, exec (.tcpRespondData l) s = .next { s with
        fb := m, tx := s.tx ++ [⟨54 + l.toNat, bytes⟩], ackBuilt := false } ∧
      IsFrame m (54 + l.toNat) bytes ∧ Same 0 16 s.fb m ∧ HasField m 16 (40 + l.toNat) ∧ Same 18 20 s.fb m ∧ IpNormal m ∧
      Same 23 24 s.fb m ∧ Same 26 47 s.fb m ∧ Holds m 47 [0x19] ∧ Same 48 50 s.fb m ∧
      CsumField m (6 + (20 + l.toNat)) 26 (28 + l.toNat) 50 ∧ Same 52 54 s.fb m ∧ Copied 0 54 l.toNat s.pb m ∧
      SameFrom (54 + l.toNat) s.fb m

/-- TCP_CLIENT builds the whole envelope of a client segment, with the acknowledgment number cleared for a SYN when
Z = 1, and the MSS option and window when M = 1, moves IPID on and sends 34 + h + L bytes (R287). -/
def Obligations.TcpClientSendsSegment : Prop :=
  ∀ (s : State) (mss z : Bool) (l dport sport rel : Half) (flags : Byte) (dmac : BitVec 48) (dip : BitVec 32)
    (id : Identity), s.params.Legal → s.identity = some id → s.argPort = some dport → s.argSport = some sport →
    s.argFlags = some flags → s.argAck = some rel → s.argMac = some dmac → s.argIp = some dip →
    Ready s (.tcpClient mss z l) →
    let h := clientHdr mss
    ∃ m bytes, exec (.tcpClient mss z l) s = .next { s with
        fb := m, ipid := s.ipid + 1, tx := s.tx ++ [⟨34 + h + l.toNat, bytes⟩], ackBuilt := false } ∧
      IsFrame m (34 + h + l.toNat) bytes ∧ Holds m 0 (macBytes dmac) ∧ Holds m 6 (macBytes id.mac) ∧
      Holds m 12 [0x08, 0x00, 0x45, 0x00] ∧ HasField m 16 (20 + h + l.toNat) ∧ HasField m 18 s.ipid.toNat ∧ IpNormal m ∧
      Holds m 23 [6] ∧ Holds m 26 (ipBytes id.ip) ∧ Holds m 30 (ipBytes dip) ∧ HasField m 34 sport.toNat ∧
      HasField m 36 dport.toNat ∧ Copied 42 38 4 s.fb m ∧
      (if z = true ∧ flags.getLsbD 1 = true then Holds m 42 [0x00, 0x00, 0x00, 0x00] else Acknowledges rel.toNat s.fb m) ∧
      Holds m 46 [if mss then 0x60 else 0x50, flags] ∧
      (if mss then HasField m 48 s.params.clientWindow.toNat else Same 48 50 s.fb m) ∧
      CsumField m (6 + (h + l.toNat)) 26 (8 + h + l.toNat) 50 ∧ Same 52 54 s.fb m ∧
      (if mss then Holds m 54 [0x02, 0x04, 0x05, 0x80] else Same 54 58 s.fb m) ∧ SameFrom 58 s.fb m

/-- INBOUND_INFO keeps D and HL, GET_DATA_OFFSET gives 34 + HL or 0, GET_DATA_LEN gives D, where D is
max(0, T - 20 - HL) and HL is 4 times the header-length nibble (R291 to R294). -/
def Obligations.InboundQueriesGiveLengths : Prop :=
  ∀ s : State, s.params.Legal →
    (Ready s .inboundInfo → exec .inboundInfo s = .next { s with
      infoDlen := some (BitVec.ofNat 16 (inboundLen s.fb)), infoHlen := some (BitVec.ofNat 8 (inboundHdr s.fb))
      ackBuilt := false }) ∧
    (Ready s .getDataOffset → exec .getDataOffset s = .next { s with
      result := some (if inboundLen s.fb = 0 then 0 else BitVec.ofNat 16 (34 + inboundHdr s.fb)), ackBuilt := false }) ∧
    (Ready s .getDataLen → exec .getDataLen s = .next { s with
      result := some (BitVec.ofNat 16 (inboundLen s.fb)), ackBuilt := false })

/-! ## What every command does or leaves alone -/

/-- R295: a command without a fault sets ACK_BUILT when it is TCP_ACK_FROM_ANY and clears it otherwise; a command that
faults leaves it; a deposit clears it; no other host access changes it. -/
def Obligations.AckBuiltUpdate : Prop :=
  (∀ (s t : State) (w : Word) (i : Instr), s.fault = false → decode w = .ok i → writeCmd w s = .next t →
    t.fault = false → t.ackBuilt = decide (i = .tcpAckFromAny)) ∧
  (∀ (s t : State) (w : Word), s.params.Legal → s.fault = false → writeCmd w s = .next t → t.fault = true →
    t.ackBuilt = s.ackBuilt) ∧
  (∀ (s t : State) (bytes : List Byte), 1 ≤ bytes.length → bytes.length ≤ s.params.bufSize →
    runMove (.rx bytes) s = .next t → t.ackBuilt = false) ∧
  ∀ (s t : State) (e : HostMove), (∀ w, e ≠ .regWrite 0 w) → (∀ bytes, e ≠ .rx bytes) → e ≠ .reset →
    runMove e s = .next t → t.ackBuilt = s.ackBuilt

/-- What no command changes, and what only some change: PB, the argument registers and RX_LEN by none (R39, R44, R92),
FB only by those that build a frame, RESULT only by the queries (R42), INFO_DLEN and INFO_HLEN only by INBOUND_INFO
(R37), the identity only by INIT_ADDR (R34). -/
def Obligations.CommandsLeaveTheRestAlone : Prop :=
  ∀ (s t : State) (i : Instr), s.params.Legal → exec i s = .next t →
    t.params = s.params ∧ t.pb = s.pb ∧ t.argOff = s.argOff ∧ t.argPort = s.argPort ∧ t.argSport = s.argSport ∧
    t.argFlags = s.argFlags ∧ t.argAck = s.argAck ∧ t.argMacHi = s.argMacHi ∧ t.argMacLo = s.argMacLo ∧
    t.argIp = s.argIp ∧ t.rxLen = s.rxLen ∧ t.host = s.host ∧ t.reads = s.reads ∧
    (writesFb i = false → t.fb = s.fb) ∧ (isQuery i = false → t.result = s.result) ∧
    (i ≠ .inboundInfo → t.infoDlen = s.infoDlen ∧ t.infoHlen = s.infoHlen) ∧
    (i ≠ .initAddr → t.identity = s.identity)

/-- IPID grows by one in NEW_IP_HDR_TCP and TCP_CLIENT, ISN by two in TCP_SYNACK and in BUILD_TCP_HDR with S = 0; no
other command changes either, and a command that faults changes neither (R35, R36; log entry 16). -/
def Obligations.CountersMoveOnlyWithTheirCommands : Prop :=
  ∀ (s t : State) (i : Instr), s.params.Legal → s.fault = false → exec i s = .next t →
    if t.fault then t.ipid = s.ipid ∧ t.isn = s.isn
    else
      t.ipid = (match i with
        | .newIpHdrTcp _ | .tcpClient _ _ _ => s.ipid + 1
        | _ => s.ipid) ∧
      t.isn = (match i with
        | .tcpSynack | .buildTcpHdr _ false => s.isn + 2
        | _ => s.isn)

/-- A command whose pseudocode ends in Send emits one event, with the bytes of FB as it leaves them; any other command,
and one that faults, emits none (R376). -/
def Obligations.SendEmitsOneEvent : Prop :=
  ∀ (s t : State) (i : Instr), s.params.Legal → s.fault = false → exec i s = .next t →
    if t.fault = false ∧ sends i = true then ∃ f, t.tx = s.tx ++ [f] ∧ IsFrame t.fb f.len f.bytes
    else t.tx = s.tx

/-- A byte of FB or PB, once defined, stays defined until reset (R52). -/
def Obligations.DefinedBytesStayDefined : Prop :=
  ∀ s t : State, s.params.Legal → (∀ rest, s.host ≠ .reset :: rest) → step s = .next t →
    ∀ a, ((s.fb.read a).isSome = true → (t.fb.read a).isSome = true) ∧
      ((s.pb.read a).isSome = true → (t.pb.read a).isSome = true)

/-! ## Access to FB, PB and the registers -/

/-- R90 to R92: a command's read needs an index in range and a defined byte, its write an index in range; a write
stores the byte, defines it and changes no other; what is read is what a command, the host or a deposit wrote last; only
the host's PbWrite writes PB. -/
def Obligations.AccessRules : Prop :=
  (∀ (s : State) (i : Nat) (v : Byte),
    s.fbRead i = (if i < s.params.bufSize then (match s.fb.read i with
      | some b => .ok b
      | none => .error .undef) else .error .range) ∧
    (i < s.params.bufSize → ∃ t, s.fbWrite i v = .ok t ∧ t = { s with fb := t.fb } ∧ t.fbRead i = .ok v ∧
      ∀ a, a ≠ i → t.fb.read a = s.fb.read a) ∧
    (s.params.bufSize ≤ i → s.fbWrite i v = .error .range) ∧
    s.pbRead i = (if i < s.params.pbSize then (match s.pb.read i with
      | some b => .ok b
      | none => .error .undef) else .error .range)) ∧
  (∀ (s t : State) (i : Nat) (b : Byte), runMove (.fbWrite i b) s = .next t → t.fbRead i = .ok b) ∧
  (∀ (s t : State) (bytes : List Byte) (i : Nat) (b : Byte), bytes.length ≤ s.params.bufSize → bytes[i]? = some b →
    runMove (.rx bytes) s = .next t → t.fbRead i = .ok b) ∧
  ∀ (s t : State) (e : HostMove), s.params.Legal → runMove e s = .next t → (∀ i b, e ≠ .pbWrite i b) → e ≠ .reset →
    t.pb = s.pb

/-- MemWrite stores the low n bytes big-endian, and MemRead reads them back (R12, R81). -/
def Obligations.MemoryFieldRoundTrip : Prop :=
  ∀ (s : State) (a n v : Nat), a + n ≤ s.params.bufSize →
    ∃ t, s.memWrite a n v = .ok t ∧ t.memRead a n = .ok (v % 256 ^ n) ∧
      ∀ b, b < a ∨ a + n ≤ b → t.fb.read b = s.fb.read b

/-- R377: a deposit of 1 to P_BUF_SIZE bytes writes and defines FB[0..len-1], sets RX_LEN, clears ACK_BUILT and leaves
the rest, also while a fault is latched; a receive of nothing, and a longer frame, change nothing. -/
def Obligations.DepositWritesFrame : Prop :=
  ∀ (s : State) (bytes : List Byte), s.params.Legal →
    (1 ≤ bytes.length → bytes.length ≤ s.params.bufSize →
      ∃ m, runMove (.rx bytes) s = .next { s with
          fb := m, rxLen := some (BitVec.ofNat 16 bytes.length), ackBuilt := false } ∧
        (BitVec.ofNat 16 bytes.length).toNat = bytes.length ∧ Holds m 0 bytes ∧ SameFrom bytes.length s.fb m) ∧
    (bytes = [] ∨ s.params.bufSize < bytes.length → runMove (.rx bytes) s = .next s)

/-- R47: a write of ARG_MAC_HI and ARG_MAC_LO stores the half and sets the bytes of ARG_MAC in wire order, whatever the
other half is; ARG_MAC is defined when both halves are; and the other argument registers take the low bits of their width
(R45). -/
def Obligations.ArgumentWritesAreStored : Prop :=
  (∀ (s : State) (v : Word),
    runMove (.regWrite 13 v) s = .next { s with argMacHi := some (v.extractLsb' 0 16) } ∧
    runMove (.regWrite 14 v) s = .next { s with argMacLo := some v }) ∧
  (∀ (s : State) (hi : BitVec 16) (lo : BitVec 32),
    (s.argMacHi = some hi → s.argMacLo = some lo → s.argMac = some (hi ++ lo)) ∧
    (s.argMacHi = none ∨ s.argMacLo = none → s.argMac = none)) ∧
  (∀ (v : Word) (lo : BitVec 32), macByte (v.extractLsb' 0 16 ++ lo) 0 = v.extractLsb' 8 8 ∧
    macByte (v.extractLsb' 0 16 ++ lo) 1 = v.extractLsb' 0 8) ∧
  (∀ (v : Word) (hi : BitVec 16), macByte (hi ++ v) 2 = v.extractLsb' 24 8 ∧ macByte (hi ++ v) 3 = v.extractLsb' 16 8 ∧
    macByte (hi ++ v) 4 = v.extractLsb' 8 8 ∧ macByte (hi ++ v) 5 = v.extractLsb' 0 8) ∧
  ∀ (s : State) (v : Word),
    runMove (.regWrite 8 v) s = .next { s with argOff := some (BitVec.ofNat 16 v.toNat) } ∧
    runMove (.regWrite 9 v) s = .next { s with argPort := some (BitVec.ofNat 16 v.toNat) } ∧
    runMove (.regWrite 10 v) s = .next { s with argSport := some (BitVec.ofNat 16 v.toNat) } ∧
    runMove (.regWrite 11 v) s = .next { s with argFlags := some (BitVec.ofNat 8 v.toNat) } ∧
    runMove (.regWrite 12 v) s = .next { s with argAck := some (BitVec.ofNat 16 v.toNat) } ∧
    runMove (.regWrite 15 v) s = .next { s with argIp := some v }

/-- Register reads: STATUS with ERR, FAULT, ID_VALID and ACK_BUILT in their places and zeros above (R41), RESULT,
INFO_DLEN, INFO_HLEN and RX_LEN zero-extended (R37, R42, R44), FAULT_CMD (R43). A read adds the value to the record of
what the host was given, and changes nothing else (R95; the record is the model's, log entry 7). -/
def Obligations.RegisterReadsGiveValues : Prop :=
  ∀ s : State,
    (∃ v : Word, runMove (.regRead 1) s = .next { s with reads := s.reads ++ [v] } ∧
      v.toNat = s.err.toNat + 256 * s.fault.toNat + 512 * s.identity.isSome.toNat + 1024 * s.ackBuilt.toNat) ∧
    (∀ x, s.result = some x → runMove (.regRead 2) s = .next { s with reads := s.reads ++ [BitVec.ofNat 32 x.toNat] }) ∧
    (∀ x, s.infoDlen = some x →
      runMove (.regRead 3) s = .next { s with reads := s.reads ++ [BitVec.ofNat 32 x.toNat] }) ∧
    (∀ x, s.infoHlen = some x →
      runMove (.regRead 4) s = .next { s with reads := s.reads ++ [BitVec.ofNat 32 x.toNat] }) ∧
    runMove (.regRead 5) s = .next { s with reads := s.reads ++ [s.faultCmd] } ∧
    ∀ x, s.rxLen = some x → runMove (.regRead 6) s = .next { s with reads := s.reads ++ [BitVec.ofNat 32 x.toNat] }

/-- R46: the accesses without a meaning are refused: a read of a write-only register, a write of a read-only one, any
access to a reserved number, a read of a register or byte that holds no value, an index outside the array; and the bits
above an argument register's width are ignored. -/
def Obligations.MeaninglessAccessesAreRefused : Prop :=
  (∀ (s : State) (n : Nat), n = 0 ∨ (8 ≤ n ∧ n ≤ 15) → ∃ r, runMove (.regRead n) s = .refused r) ∧
  (∀ (s : State) (n : Nat) (v : Word), 1 ≤ n ∧ n ≤ 6 → ∃ r, runMove (.regWrite n v) s = .refused r) ∧
  (∀ (s : State) (n : Nat) (v : Word), n = 7 ∨ 16 ≤ n →
    (∃ r, runMove (.regRead n) s = .refused r) ∧ ∃ r, runMove (.regWrite n v) s = .refused r) ∧
  (∀ s : State, (s.result = none → ∃ r, runMove (.regRead 2) s = .refused r) ∧
    (s.infoDlen = none → ∃ r, runMove (.regRead 3) s = .refused r) ∧
    (s.infoHlen = none → ∃ r, runMove (.regRead 4) s = .refused r) ∧
    (s.rxLen = none → ∃ r, runMove (.regRead 6) s = .refused r)) ∧
  (∀ (s : State) (i : Nat) (b : Byte),
    (s.fb.read i = none → ∃ r, runMove (.fbRead i) s = .refused r) ∧
    (s.pb.read i = none → ∃ r, runMove (.pbRead i) s = .refused r) ∧
    (s.params.bufSize ≤ i → (∃ r, runMove (.fbRead i) s = .refused r) ∧ ∃ r, runMove (.fbWrite i b) s = .refused r) ∧
    (s.params.pbSize ≤ i → (∃ r, runMove (.pbRead i) s = .refused r) ∧ ∃ r, runMove (.pbWrite i b) s = .refused r)) ∧
  ∀ (s : State) (v w : Word), (v.toNat % 65536 = w.toNat % 65536 →
      ∀ n, n = 8 ∨ n = 9 ∨ n = 10 ∨ n = 12 ∨ n = 13 → runMove (.regWrite n v) s = runMove (.regWrite n w) s) ∧
    (v.toNat % 256 = w.toNat % 256 → runMove (.regWrite 11 v) s = runMove (.regWrite 11 w) s)

/-- A byte the host writes into FB or PB is what it reads back, and no other byte changes (R45, R95). -/
def Obligations.HostBytesReadBack : Prop :=
  ∀ (s : State) (i : Nat) (b : Byte),
    (i < s.params.bufSize → ∃ m, runMove (.fbWrite i b) s = .next { s with fb := m } ∧ m.read i = some b ∧
      (∀ a, a ≠ i → m.read a = s.fb.read a) ∧
      runMove (.fbRead i) { s with fb := m } =
        .next { s with fb := m, reads := s.reads ++ [BitVec.ofNat 32 b.toNat] }) ∧
    (i < s.params.pbSize → ∃ m, runMove (.pbWrite i b) s = .next { s with pb := m } ∧ m.read i = some b ∧
      (∀ a, a ≠ i → m.read a = s.pb.read a) ∧
      runMove (.pbRead i) { s with pb := m } =
        .next { s with pb := m, reads := s.reads ++ [BitVec.ofNat 32 b.toNat] })

/-! ## Reset and boot -/

/-- R400: reset gives every state element its reset value, so that STATUS reads 0, in the state after reset and after a
reset of any state; and no command resets IPID. -/
def Obligations.ResetSetsEveryElement : Prop :=
  (∀ s : State, ∃ t, runMove .reset s = .next t) ∧
  (∀ t : State, (t = State.reset ∨ ∃ s, runMove .reset s = .next t) →
    (∀ a, t.fb.read a = none ∧ t.pb.read a = none) ∧ t.identity = none ∧ t.ipid = t.params.ipidInit ∧
    t.isn = t.params.isnInit ∧ t.infoDlen = none ∧ t.infoHlen = none ∧ t.ackBuilt = false ∧ t.argOff = none ∧
    t.argPort = none ∧ t.argSport = none ∧ t.argFlags = none ∧ t.argAck = none ∧ t.argMacHi = none ∧
    t.argMacLo = none ∧ t.argIp = none ∧ t.err = 0x00 ∧ t.fault = false ∧ t.status = 0x00000000 ∧ t.result = none ∧
    t.faultCmd = 0x00000000 ∧ t.rxLen = none) ∧
  ∀ (s t : State) (i : Instr), s.params.Legal → exec i s = .next t → t.ipid = s.ipid ∨ t.ipid = s.ipid + 1

/-- The boot sequence of R402, as the call initAddressing of R123: from a state without an identity or a fault, its four
moves set the identity to the two addresses. -/
def Obligations.InitAddressingSetsIdentity : Prop :=
  ∀ (s : State) (mac : BitVec 48) (ip : BitVec 32) (rest : List HostMove), s.fault = false → s.identity = none →
    s.host = callInitAddressing mac ip ++ rest →
    core.run 4 s = .next { s with
      host := rest, argMacHi := some (mac.extractLsb' 32 16), argMacLo := some (mac.extractLsb' 0 32)
      argIp := some ip, identity := some ⟨mac, ip⟩, ackBuilt := false }

/-- The model's own fields over reset: the parameters are fixed (log entry 1), a reset move leaves the moves still to come
and the two records (log entry 7), and the parameters of `State.reset` are the open ones, which R10's ranges bound
(log entry 2). -/
def Obligations.ResetKeepsModelFields : Prop :=
  (∀ s : State, runMove .reset s = .next { State.resetWith s.params with host := s.host, tx := s.tx, reads := s.reads }) ∧
  State.reset = State.resetWith Config.params ∧ Config.params.Legal

/-- Runs, in the model's reading (log entry 18, DEDUCED): a reset move starts no other run, for the spec does not say
whether it does, so a run that reaches a latched fault is not successful, whatever follows, a reset among it; and a run
that reaches a refused access has no end, so no observation, and is not successful. A run has one end. Without a reset
move the end alone tells: the run is successful exactly when no fault is latched there. -/
def Obligations.RunThatFaultsIsNeverSuccessful : Prop :=
  (∀ s t : State, Reaches s t → t.fault = true → ¬ Successful s) ∧
  (∀ (s t : State) (r : Refusal), Reaches s t → step t = .refused r → ¬ Successful s ∧ ∀ u, ¬ Ends s u) ∧
  (∀ s t u : State, Ends s t → Ends s u → t = u) ∧
  ∀ s t : State, s.params.Legal → .reset ∉ s.host → Ends s t → (Successful s ↔ t.fault = false)
end

