-- ==== Sys2Proof/Laws/Memory.lean ====
section
/-! SUPPORT. The laws of the buffers: a read after a write, definedness, the canonical form, and that two buffers in
canonical form that read alike are equal. -/

namespace Sys2Proof.Laws

open Sys2Proof.Machine Sys2Proof.Safety

@[simp] theorem read_nil (a : Nat) : Memory.read [] a = none := rfl

theorem read_cons (k : Nat) (b : Byte) (m : Memory) (a : Nat) :
    Memory.read ((k, b) :: m) a = if k = a then some b else Memory.read m a := rfl

/-- A read after a write gives the value written, at any other index what it gave before (R91). -/
@[simp] theorem read_write (m : Memory) (a : Nat) (v : Byte) (b : Nat) :
    (m.write a v).read b = if a = b then some v else m.read b := by
  induction m with
  | nil => simp [Memory.write, read_cons]
  | cons c m ih =>
    obtain ⟨k, w⟩ := c
    simp only [Memory.write]
    split
    · simp [read_cons]
    · split
      · subst a; simp only [read_cons]; split <;> rfl
      · simp only [read_cons, ih]; split <;> split <;> first | rfl | omega

/-- A write never loses a defined byte (R52, R91). -/
theorem isSome_write {m : Memory} {a b : Nat} {v : Byte} (h : (m.read b).isSome = true) :
    ((m.write a v).read b).isSome = true := by
  rw [read_write]; split <;> simp [h]

theorem risesFrom_mono {lo lo' : Nat} {m : Memory} (h : lo' ≤ lo) (hm : m.risesFrom lo = true) :
    m.risesFrom lo' = true := by
  cases m with
  | nil => rfl
  | cons c m => simp [Memory.risesFrom] at hm ⊢; exact ⟨by omega, hm.2⟩

theorem risesFrom_write {m : Memory} {lo a : Nat} {v : Byte} (ha : lo ≤ a) (hm : m.risesFrom lo = true) :
    (m.write a v).risesFrom lo = true := by
  induction m generalizing lo with
  | nil => simp [Memory.write, Memory.risesFrom, ha]
  | cons c m ih =>
    obtain ⟨k, w⟩ := c
    simp [Memory.risesFrom] at hm
    simp only [Memory.write]
    split
    · simp [Memory.risesFrom, ha, hm.2]; omega
    · split
      · subst a; simp [Memory.risesFrom, hm]
      · simp [Memory.risesFrom, hm.1]; exact ih (by omega) hm.2

/-- A write keeps the canonical form. -/
theorem wf_write {m : Memory} {a : Nat} {v : Byte} (hm : m.wf = true) : (m.write a v).wf = true :=
  risesFrom_write (Nat.zero_le a) hm

/-- A write inside the buffer keeps every index inside it. -/
theorem below_write {n : Nat} {m : Memory} {a : Nat} {v : Byte} (ha : a < n) (hm : m.below n = true) :
    (m.write a v).below n = true := by
  induction m with
  | nil => simp [Memory.write, Memory.below, ha]
  | cons c m ih =>
    obtain ⟨k, w⟩ := c
    simp only [Memory.below, List.all_cons, Bool.and_eq_true, decide_eq_true_eq] at hm ih
    simp only [Memory.write]
    split
    · simp only [Memory.below, List.all_cons, Bool.and_eq_true, decide_eq_true_eq]; exact ⟨ha, hm⟩
    · split
      · simp only [Memory.below, List.all_cons, Bool.and_eq_true, decide_eq_true_eq]; exact ⟨ha, hm.2⟩
      · simp only [Memory.below, List.all_cons, Bool.and_eq_true, decide_eq_true_eq]; exact ⟨hm.1, ih hm.2⟩

theorem read_eq_none_of_lt {m : Memory} {lo a : Nat} (hm : m.risesFrom lo = true) (ha : a < lo) :
    m.read a = none := by
  induction m generalizing lo with
  | nil => rfl
  | cons c m ih =>
    obtain ⟨k, w⟩ := c
    simp [Memory.risesFrom] at hm
    rw [read_cons, if_neg (by omega)]
    exact ih hm.2 (by omega)

/-- No byte is defined at or above the size of the buffer. -/
theorem lt_of_isSome {n : Nat} {m : Memory} {a : Nat} (hm : m.below n = true) (h : (m.read a).isSome = true) :
    a < n := by
  induction m with
  | nil => simp at h
  | cons c m ih =>
    obtain ⟨k, w⟩ := c
    simp only [Memory.below, List.all_cons, Bool.and_eq_true, decide_eq_true_eq] at hm ih
    rw [read_cons] at h
    split at h
    · omega
    · exact ih hm.2 h

/-- Equal reads make equal buffers: the canonical form is canonical. -/
theorem ext_of_risesFrom {m m' : Memory} {lo : Nat} (hm : m.risesFrom lo = true) (hm' : m'.risesFrom lo = true)
    (h : ∀ a, m.read a = m'.read a) : m = m' := by
  induction m generalizing m' lo with
  | nil =>
    cases m' with
    | nil => rfl
    | cons c m' => obtain ⟨k, w⟩ := c; have := h k; simp [read_cons] at this
  | cons c m ih =>
    obtain ⟨k, w⟩ := c
    cases m' with
    | nil => have := h k; simp [read_cons] at this
    | cons c' m' =>
      obtain ⟨k', w'⟩ := c'
      simp [Memory.risesFrom] at hm hm'
      have hk : k = k' := by
        rcases Nat.lt_trichotomy k k' with hlt | heq | hgt
        · have := h k
          rw [read_cons, if_pos rfl, read_cons, if_neg (by omega),
            read_eq_none_of_lt hm'.2 (by omega)] at this
          cases this
        · exact heq
        · have := h k'
          rw [read_cons, if_neg (by omega), read_cons, if_pos rfl,
            read_eq_none_of_lt hm.2 (by omega)] at this
          cases this
      subst hk
      have hw := h k
      rw [read_cons, if_pos rfl, read_cons, if_pos rfl] at hw
      cases hw
      have := ih hm.2 hm'.2 fun a => by
        rcases Nat.lt_or_ge a (k + 1) with hlt | hge
        · rw [read_eq_none_of_lt hm.2 hlt, read_eq_none_of_lt hm'.2 hlt]
        · have := h a
          rwa [read_cons, if_neg (by omega), read_cons, if_neg (by omega)] at this
      rw [this]

/-- Equal reads make equal buffers. -/
theorem ext_of_wf {m m' : Memory} (hm : m.wf = true) (hm' : m'.wf = true) (h : ∀ a, m.read a = m'.read a) :
    m = m' := ext_of_risesFrom hm hm' h

/-! ## Several bytes at once -/

/-- What a deposit or a byte sequence writes (R377). -/
theorem read_writeBytes (m : Memory) (a : Nat) (bs : List Byte) (b : Nat) :
    (m.writeBytes a bs).read b = if a ≤ b ∧ b < a + bs.length then bs[b - a]? else m.read b := by
  induction bs generalizing m a with
  | nil => simp [Memory.writeBytes]
  | cons v bs ih =>
    rw [Memory.writeBytes, ih, read_write]
    by_cases hb : a = b
    · subst hb; simp
    · have hcons : a ≤ b → (v :: bs)[b - a]? = bs[b - (a + 1)]? := by
        intro hab
        obtain ⟨d, rfl⟩ : ∃ d, b = a + 1 + d := ⟨b - (a + 1), by omega⟩
        rw [show a + 1 + d - a = d + 1 by omega, show a + 1 + d - (a + 1) = d by omega]; simp
      simp only [List.length_cons, hb, if_false]
      split <;> split <;> first | rfl | omega | exact (hcons (by omega)).symm

theorem wf_writeBytes {m : Memory} {a : Nat} {bs : List Byte} (hm : m.wf = true) :
    (m.writeBytes a bs).wf = true := by
  induction bs generalizing m a with
  | nil => exact hm
  | cons v bs ih => exact ih (wf_write hm)

theorem below_writeBytes {n : Nat} {m : Memory} {a : Nat} {bs : List Byte} (ha : a + bs.length ≤ n)
    (hm : m.below n = true) : (m.writeBytes a bs).below n = true := by
  induction bs generalizing m a with
  | nil => exact hm
  | cons v bs ih =>
    simp only [List.length_cons] at ha
    exact ih (by omega) (below_write (by omega) hm)

theorem isSome_writeBytes {m : Memory} {a b : Nat} {bs : List Byte} (h : (m.read b).isSome = true) :
    ((m.writeBytes a bs).read b).isSome = true := by
  induction bs generalizing m a with
  | nil => exact h
  | cons v bs ih => exact ih (isSome_write h)

/-! ## The terms of the statements -/

theorem read_of_isSome {m : Memory} {a : Nat} (h : (m.read a).isSome = true) : m.read a = some (byteAt m a) := by
  rw [byteAt]; cases hm : m.read a with
  | none => simp [hm] at h
  | some b => rfl

theorem read_of_defined {m : Memory} {a n : Nat} (h : Defined m a n) {b : Nat} (h1 : a ≤ b) (h2 : b < a + n) :
    m.read b = some (byteAt m b) := by
  have := h (b - a) (by omega)
  rw [show a + (b - a) = b by omega] at this
  exact read_of_isSome this

@[simp] theorem byteAt_write (m : Memory) (a : Nat) (v : Byte) (b : Nat) :
    byteAt (m.write a v) b = if a = b then v else byteAt m b := by
  simp only [byteAt, read_write]; split <;> rfl

theorem byteAt_of_read {m : Memory} {a : Nat} {b : Byte} (h : m.read a = some b) : byteAt m a = b := by
  simp [byteAt, h]

theorem defined_mono {m m' : Memory} {a n : Nat} (h : Defined m a n)
    (hmm : ∀ b, (m.read b).isSome = true → (m'.read b).isSome = true) : Defined m' a n :=
  fun k hk => hmm _ (h k hk)

theorem defined_sub {m : Memory} {a n b k : Nat} (h : Defined m a n) (h1 : a ≤ b) (h2 : b + k ≤ a + n) :
    Defined m b k := by
  intro j hj
  rw [read_of_defined h (b := b + j) (by omega) (by omega)]; rfl

theorem beAt_two (m : Memory) (a : Nat) :
    beAt m a 2 = (byteAt m a).toNat * 256 + (byteAt m (a + 1)).toNat := by simp [beAt]

theorem beAt_four (m : Memory) (a : Nat) : beAt m a 4 = (byteAt m a).toNat * 16777216 +
    ((byteAt m (a + 1)).toNat * 65536 + ((byteAt m (a + 2)).toNat * 256 + (byteAt m (a + 3)).toNat)) := by
  simp [beAt]

theorem beAt_two_lt (m : Memory) (a : Nat) : beAt m a 2 < 65536 := by
  rw [beAt_two]; have := (byteAt m a).isLt; have := (byteAt m (a + 1)).isLt; omega

end Sys2Proof.Laws
end

