-- ==== Sys2Proof/Laws/State.lean ====
section
/-! SUPPORT. The state's updates, field by field: what each named update gives every field. -/

namespace Sys2Proof.Laws

open Sys2Proof.Machine

/-! ## `State.setFb` -/

@[simp] theorem setFb_params (s : State) (m : Memory) : (s.setFb m).params = s.params := rfl
@[simp] theorem setFb_fb (s : State) (m : Memory) : (s.setFb m).fb = m := rfl
@[simp] theorem setFb_pb (s : State) (m : Memory) : (s.setFb m).pb = s.pb := rfl
@[simp] theorem setFb_identity (s : State) (m : Memory) : (s.setFb m).identity = s.identity := rfl
@[simp] theorem setFb_ipid (s : State) (m : Memory) : (s.setFb m).ipid = s.ipid := rfl
@[simp] theorem setFb_isn (s : State) (m : Memory) : (s.setFb m).isn = s.isn := rfl
@[simp] theorem setFb_infoDlen (s : State) (m : Memory) : (s.setFb m).infoDlen = s.infoDlen := rfl
@[simp] theorem setFb_infoHlen (s : State) (m : Memory) : (s.setFb m).infoHlen = s.infoHlen := rfl
@[simp] theorem setFb_ackBuilt (s : State) (m : Memory) : (s.setFb m).ackBuilt = s.ackBuilt := rfl
@[simp] theorem setFb_argOff (s : State) (m : Memory) : (s.setFb m).argOff = s.argOff := rfl
@[simp] theorem setFb_argPort (s : State) (m : Memory) : (s.setFb m).argPort = s.argPort := rfl
@[simp] theorem setFb_argSport (s : State) (m : Memory) : (s.setFb m).argSport = s.argSport := rfl
@[simp] theorem setFb_argFlags (s : State) (m : Memory) : (s.setFb m).argFlags = s.argFlags := rfl
@[simp] theorem setFb_argAck (s : State) (m : Memory) : (s.setFb m).argAck = s.argAck := rfl
@[simp] theorem setFb_argMacHi (s : State) (m : Memory) : (s.setFb m).argMacHi = s.argMacHi := rfl
@[simp] theorem setFb_argMacLo (s : State) (m : Memory) : (s.setFb m).argMacLo = s.argMacLo := rfl
@[simp] theorem setFb_argIp (s : State) (m : Memory) : (s.setFb m).argIp = s.argIp := rfl
@[simp] theorem setFb_err (s : State) (m : Memory) : (s.setFb m).err = s.err := rfl
@[simp] theorem setFb_fault (s : State) (m : Memory) : (s.setFb m).fault = s.fault := rfl
@[simp] theorem setFb_result (s : State) (m : Memory) : (s.setFb m).result = s.result := rfl
@[simp] theorem setFb_faultCmd (s : State) (m : Memory) : (s.setFb m).faultCmd = s.faultCmd := rfl
@[simp] theorem setFb_rxLen (s : State) (m : Memory) : (s.setFb m).rxLen = s.rxLen := rfl
@[simp] theorem setFb_host (s : State) (m : Memory) : (s.setFb m).host = s.host := rfl
@[simp] theorem setFb_tx (s : State) (m : Memory) : (s.setFb m).tx = s.tx := rfl
@[simp] theorem setFb_reads (s : State) (m : Memory) : (s.setFb m).reads = s.reads := rfl

/-! ## `State.setResult` -/

@[simp] theorem setResult_params (s : State) (v : Half) : (s.setResult v).params = s.params := rfl
@[simp] theorem setResult_fb (s : State) (v : Half) : (s.setResult v).fb = s.fb := rfl
@[simp] theorem setResult_pb (s : State) (v : Half) : (s.setResult v).pb = s.pb := rfl
@[simp] theorem setResult_identity (s : State) (v : Half) : (s.setResult v).identity = s.identity := rfl
@[simp] theorem setResult_ipid (s : State) (v : Half) : (s.setResult v).ipid = s.ipid := rfl
@[simp] theorem setResult_isn (s : State) (v : Half) : (s.setResult v).isn = s.isn := rfl
@[simp] theorem setResult_infoDlen (s : State) (v : Half) : (s.setResult v).infoDlen = s.infoDlen := rfl
@[simp] theorem setResult_infoHlen (s : State) (v : Half) : (s.setResult v).infoHlen = s.infoHlen := rfl
@[simp] theorem setResult_ackBuilt (s : State) (v : Half) : (s.setResult v).ackBuilt = s.ackBuilt := rfl
@[simp] theorem setResult_argOff (s : State) (v : Half) : (s.setResult v).argOff = s.argOff := rfl
@[simp] theorem setResult_argPort (s : State) (v : Half) : (s.setResult v).argPort = s.argPort := rfl
@[simp] theorem setResult_argSport (s : State) (v : Half) : (s.setResult v).argSport = s.argSport := rfl
@[simp] theorem setResult_argFlags (s : State) (v : Half) : (s.setResult v).argFlags = s.argFlags := rfl
@[simp] theorem setResult_argAck (s : State) (v : Half) : (s.setResult v).argAck = s.argAck := rfl
@[simp] theorem setResult_argMacHi (s : State) (v : Half) : (s.setResult v).argMacHi = s.argMacHi := rfl
@[simp] theorem setResult_argMacLo (s : State) (v : Half) : (s.setResult v).argMacLo = s.argMacLo := rfl
@[simp] theorem setResult_argIp (s : State) (v : Half) : (s.setResult v).argIp = s.argIp := rfl
@[simp] theorem setResult_err (s : State) (v : Half) : (s.setResult v).err = s.err := rfl
@[simp] theorem setResult_fault (s : State) (v : Half) : (s.setResult v).fault = s.fault := rfl
@[simp] theorem setResult_result (s : State) (v : Half) : (s.setResult v).result = some v := rfl
@[simp] theorem setResult_faultCmd (s : State) (v : Half) : (s.setResult v).faultCmd = s.faultCmd := rfl
@[simp] theorem setResult_rxLen (s : State) (v : Half) : (s.setResult v).rxLen = s.rxLen := rfl
@[simp] theorem setResult_host (s : State) (v : Half) : (s.setResult v).host = s.host := rfl
@[simp] theorem setResult_tx (s : State) (v : Half) : (s.setResult v).tx = s.tx := rfl
@[simp] theorem setResult_reads (s : State) (v : Half) : (s.setResult v).reads = s.reads := rfl

/-! ## `State.raise` -/

@[simp] theorem raise_params (s : State) (e : Err) (w : Word) : (s.raise e w).params = s.params := rfl
@[simp] theorem raise_fb (s : State) (e : Err) (w : Word) : (s.raise e w).fb = s.fb := rfl
@[simp] theorem raise_pb (s : State) (e : Err) (w : Word) : (s.raise e w).pb = s.pb := rfl
@[simp] theorem raise_identity (s : State) (e : Err) (w : Word) : (s.raise e w).identity = s.identity := rfl
@[simp] theorem raise_ipid (s : State) (e : Err) (w : Word) : (s.raise e w).ipid = s.ipid := rfl
@[simp] theorem raise_isn (s : State) (e : Err) (w : Word) : (s.raise e w).isn = s.isn := rfl
@[simp] theorem raise_infoDlen (s : State) (e : Err) (w : Word) : (s.raise e w).infoDlen = s.infoDlen := rfl
@[simp] theorem raise_infoHlen (s : State) (e : Err) (w : Word) : (s.raise e w).infoHlen = s.infoHlen := rfl
@[simp] theorem raise_ackBuilt (s : State) (e : Err) (w : Word) : (s.raise e w).ackBuilt = s.ackBuilt := rfl
@[simp] theorem raise_argOff (s : State) (e : Err) (w : Word) : (s.raise e w).argOff = s.argOff := rfl
@[simp] theorem raise_argPort (s : State) (e : Err) (w : Word) : (s.raise e w).argPort = s.argPort := rfl
@[simp] theorem raise_argSport (s : State) (e : Err) (w : Word) : (s.raise e w).argSport = s.argSport := rfl
@[simp] theorem raise_argFlags (s : State) (e : Err) (w : Word) : (s.raise e w).argFlags = s.argFlags := rfl
@[simp] theorem raise_argAck (s : State) (e : Err) (w : Word) : (s.raise e w).argAck = s.argAck := rfl
@[simp] theorem raise_argMacHi (s : State) (e : Err) (w : Word) : (s.raise e w).argMacHi = s.argMacHi := rfl
@[simp] theorem raise_argMacLo (s : State) (e : Err) (w : Word) : (s.raise e w).argMacLo = s.argMacLo := rfl
@[simp] theorem raise_argIp (s : State) (e : Err) (w : Word) : (s.raise e w).argIp = s.argIp := rfl
@[simp] theorem raise_err (s : State) (e : Err) (w : Word) : (s.raise e w).err = e.code := rfl
@[simp] theorem raise_fault (s : State) (e : Err) (w : Word) : (s.raise e w).fault = true := rfl
@[simp] theorem raise_result (s : State) (e : Err) (w : Word) : (s.raise e w).result = s.result := rfl
@[simp] theorem raise_faultCmd (s : State) (e : Err) (w : Word) : (s.raise e w).faultCmd = w := rfl
@[simp] theorem raise_rxLen (s : State) (e : Err) (w : Word) : (s.raise e w).rxLen = s.rxLen := rfl
@[simp] theorem raise_host (s : State) (e : Err) (w : Word) : (s.raise e w).host = s.host := rfl
@[simp] theorem raise_tx (s : State) (e : Err) (w : Word) : (s.raise e w).tx = s.tx := rfl
@[simp] theorem raise_reads (s : State) (e : Err) (w : Word) : (s.raise e w).reads = s.reads := rfl

/-! ## `State.bumpIpid` -/

@[simp] theorem bumpIpid_params (s : State) : (s.bumpIpid).params = s.params := rfl
@[simp] theorem bumpIpid_fb (s : State) : (s.bumpIpid).fb = s.fb := rfl
@[simp] theorem bumpIpid_pb (s : State) : (s.bumpIpid).pb = s.pb := rfl
@[simp] theorem bumpIpid_identity (s : State) : (s.bumpIpid).identity = s.identity := rfl
@[simp] theorem bumpIpid_ipid (s : State) : (s.bumpIpid).ipid = s.ipid + 1 := rfl
@[simp] theorem bumpIpid_isn (s : State) : (s.bumpIpid).isn = s.isn := rfl
@[simp] theorem bumpIpid_infoDlen (s : State) : (s.bumpIpid).infoDlen = s.infoDlen := rfl
@[simp] theorem bumpIpid_infoHlen (s : State) : (s.bumpIpid).infoHlen = s.infoHlen := rfl
@[simp] theorem bumpIpid_ackBuilt (s : State) : (s.bumpIpid).ackBuilt = s.ackBuilt := rfl
@[simp] theorem bumpIpid_argOff (s : State) : (s.bumpIpid).argOff = s.argOff := rfl
@[simp] theorem bumpIpid_argPort (s : State) : (s.bumpIpid).argPort = s.argPort := rfl
@[simp] theorem bumpIpid_argSport (s : State) : (s.bumpIpid).argSport = s.argSport := rfl
@[simp] theorem bumpIpid_argFlags (s : State) : (s.bumpIpid).argFlags = s.argFlags := rfl
@[simp] theorem bumpIpid_argAck (s : State) : (s.bumpIpid).argAck = s.argAck := rfl
@[simp] theorem bumpIpid_argMacHi (s : State) : (s.bumpIpid).argMacHi = s.argMacHi := rfl
@[simp] theorem bumpIpid_argMacLo (s : State) : (s.bumpIpid).argMacLo = s.argMacLo := rfl
@[simp] theorem bumpIpid_argIp (s : State) : (s.bumpIpid).argIp = s.argIp := rfl
@[simp] theorem bumpIpid_err (s : State) : (s.bumpIpid).err = s.err := rfl
@[simp] theorem bumpIpid_fault (s : State) : (s.bumpIpid).fault = s.fault := rfl
@[simp] theorem bumpIpid_result (s : State) : (s.bumpIpid).result = s.result := rfl
@[simp] theorem bumpIpid_faultCmd (s : State) : (s.bumpIpid).faultCmd = s.faultCmd := rfl
@[simp] theorem bumpIpid_rxLen (s : State) : (s.bumpIpid).rxLen = s.rxLen := rfl
@[simp] theorem bumpIpid_host (s : State) : (s.bumpIpid).host = s.host := rfl
@[simp] theorem bumpIpid_tx (s : State) : (s.bumpIpid).tx = s.tx := rfl
@[simp] theorem bumpIpid_reads (s : State) : (s.bumpIpid).reads = s.reads := rfl

/-! ## `State.bumpIsn` -/

@[simp] theorem bumpIsn_params (s : State) : (s.bumpIsn).params = s.params := rfl
@[simp] theorem bumpIsn_fb (s : State) : (s.bumpIsn).fb = s.fb := rfl
@[simp] theorem bumpIsn_pb (s : State) : (s.bumpIsn).pb = s.pb := rfl
@[simp] theorem bumpIsn_identity (s : State) : (s.bumpIsn).identity = s.identity := rfl
@[simp] theorem bumpIsn_ipid (s : State) : (s.bumpIsn).ipid = s.ipid := rfl
@[simp] theorem bumpIsn_isn (s : State) : (s.bumpIsn).isn = s.isn + 2 := rfl
@[simp] theorem bumpIsn_infoDlen (s : State) : (s.bumpIsn).infoDlen = s.infoDlen := rfl
@[simp] theorem bumpIsn_infoHlen (s : State) : (s.bumpIsn).infoHlen = s.infoHlen := rfl
@[simp] theorem bumpIsn_ackBuilt (s : State) : (s.bumpIsn).ackBuilt = s.ackBuilt := rfl
@[simp] theorem bumpIsn_argOff (s : State) : (s.bumpIsn).argOff = s.argOff := rfl
@[simp] theorem bumpIsn_argPort (s : State) : (s.bumpIsn).argPort = s.argPort := rfl
@[simp] theorem bumpIsn_argSport (s : State) : (s.bumpIsn).argSport = s.argSport := rfl
@[simp] theorem bumpIsn_argFlags (s : State) : (s.bumpIsn).argFlags = s.argFlags := rfl
@[simp] theorem bumpIsn_argAck (s : State) : (s.bumpIsn).argAck = s.argAck := rfl
@[simp] theorem bumpIsn_argMacHi (s : State) : (s.bumpIsn).argMacHi = s.argMacHi := rfl
@[simp] theorem bumpIsn_argMacLo (s : State) : (s.bumpIsn).argMacLo = s.argMacLo := rfl
@[simp] theorem bumpIsn_argIp (s : State) : (s.bumpIsn).argIp = s.argIp := rfl
@[simp] theorem bumpIsn_err (s : State) : (s.bumpIsn).err = s.err := rfl
@[simp] theorem bumpIsn_fault (s : State) : (s.bumpIsn).fault = s.fault := rfl
@[simp] theorem bumpIsn_result (s : State) : (s.bumpIsn).result = s.result := rfl
@[simp] theorem bumpIsn_faultCmd (s : State) : (s.bumpIsn).faultCmd = s.faultCmd := rfl
@[simp] theorem bumpIsn_rxLen (s : State) : (s.bumpIsn).rxLen = s.rxLen := rfl
@[simp] theorem bumpIsn_host (s : State) : (s.bumpIsn).host = s.host := rfl
@[simp] theorem bumpIsn_tx (s : State) : (s.bumpIsn).tx = s.tx := rfl
@[simp] theorem bumpIsn_reads (s : State) : (s.bumpIsn).reads = s.reads := rfl

/-! ## `State.queueCmd` -/

@[simp] theorem queueCmd_params (s : State) (w : Word) : (s.queueCmd w).params = s.params := rfl
@[simp] theorem queueCmd_fb (s : State) (w : Word) : (s.queueCmd w).fb = s.fb := rfl
@[simp] theorem queueCmd_pb (s : State) (w : Word) : (s.queueCmd w).pb = s.pb := rfl
@[simp] theorem queueCmd_identity (s : State) (w : Word) : (s.queueCmd w).identity = s.identity := rfl
@[simp] theorem queueCmd_ipid (s : State) (w : Word) : (s.queueCmd w).ipid = s.ipid := rfl
@[simp] theorem queueCmd_isn (s : State) (w : Word) : (s.queueCmd w).isn = s.isn := rfl
@[simp] theorem queueCmd_infoDlen (s : State) (w : Word) : (s.queueCmd w).infoDlen = s.infoDlen := rfl
@[simp] theorem queueCmd_infoHlen (s : State) (w : Word) : (s.queueCmd w).infoHlen = s.infoHlen := rfl
@[simp] theorem queueCmd_ackBuilt (s : State) (w : Word) : (s.queueCmd w).ackBuilt = s.ackBuilt := rfl
@[simp] theorem queueCmd_argOff (s : State) (w : Word) : (s.queueCmd w).argOff = s.argOff := rfl
@[simp] theorem queueCmd_argPort (s : State) (w : Word) : (s.queueCmd w).argPort = s.argPort := rfl
@[simp] theorem queueCmd_argSport (s : State) (w : Word) : (s.queueCmd w).argSport = s.argSport := rfl
@[simp] theorem queueCmd_argFlags (s : State) (w : Word) : (s.queueCmd w).argFlags = s.argFlags := rfl
@[simp] theorem queueCmd_argAck (s : State) (w : Word) : (s.queueCmd w).argAck = s.argAck := rfl
@[simp] theorem queueCmd_argMacHi (s : State) (w : Word) : (s.queueCmd w).argMacHi = s.argMacHi := rfl
@[simp] theorem queueCmd_argMacLo (s : State) (w : Word) : (s.queueCmd w).argMacLo = s.argMacLo := rfl
@[simp] theorem queueCmd_argIp (s : State) (w : Word) : (s.queueCmd w).argIp = s.argIp := rfl
@[simp] theorem queueCmd_err (s : State) (w : Word) : (s.queueCmd w).err = s.err := rfl
@[simp] theorem queueCmd_fault (s : State) (w : Word) : (s.queueCmd w).fault = s.fault := rfl
@[simp] theorem queueCmd_result (s : State) (w : Word) : (s.queueCmd w).result = s.result := rfl
@[simp] theorem queueCmd_faultCmd (s : State) (w : Word) : (s.queueCmd w).faultCmd = s.faultCmd := rfl
@[simp] theorem queueCmd_rxLen (s : State) (w : Word) : (s.queueCmd w).rxLen = s.rxLen := rfl
@[simp] theorem queueCmd_host (s : State) (w : Word) : (s.queueCmd w).host = .regWrite 0 w :: s.host := rfl
@[simp] theorem queueCmd_tx (s : State) (w : Word) : (s.queueCmd w).tx = s.tx := rfl
@[simp] theorem queueCmd_reads (s : State) (w : Word) : (s.queueCmd w).reads = s.reads := rfl

/-! ## Updates of updates -/

@[simp] theorem setFb_setFb (s : State) (m m' : Memory) : (s.setFb m).setFb m' = s.setFb m' := (rfl)

@[simp] theorem setFb_self (s : State) : s.setFb s.fb = s := (rfl)

@[simp] theorem bumpIpid_setFb (s : State) (m : Memory) : (s.setFb m).bumpIpid = s.bumpIpid.setFb m := (rfl)

@[simp] theorem bumpIsn_setFb (s : State) (m : Memory) : (s.setFb m).bumpIsn = s.bumpIsn.setFb m := (rfl)

@[simp] theorem setFb_argMac (s : State) (m : Memory) : (s.setFb m).argMac = s.argMac := (rfl)

end Sys2Proof.Laws
end

