-- ==== Sys2Proof/Laws/Ops.lean ====
section
/-! SUPPORT. One law per shared operation: what it answers where the bytes it reads are defined and inside FB. -/

namespace Sys2Proof.Laws

open Sys2Proof.Machine Sys2Proof.Safety

/-! ## Sequencing

These are proved by `(rfl)`, so that `simp` records each use as a step of the proof: a chain of steps taken by
definitional unfolding alone is checked in a time exponential in its length. -/

@[simp] theorem bind_ok {α β : Type} (a : α) (f : α → Except Err β) : (Except.ok a >>= f) = f a := (rfl)

@[simp] theorem bind_error {α β : Type} (e : Err) (f : α → Except Err β) :
    ((Except.error e : Except Err α) >>= f) = Except.error e := (rfl)

@[simp] theorem pure_eq_ok {α : Type} (a : α) : (pure a : Except Err α) = Except.ok a := (rfl)

theorem bind_eq_ok {α β : Type} {x : Except Err α} {f : α → Except Err β} {b : β} (h : x >>= f = .ok b) :
    ∃ a, x = .ok a ∧ f a = .ok b := by
  cases x with
  | error e => cases h
  | ok a => exact ⟨a, rfl, h⟩

@[simp] theorem raiseIf_false (e : Err) : raiseIf false e = .ok () := (rfl)

@[simp] theorem raiseIf_true (e : Err) : raiseIf true e = .error e := (rfl)

@[simp] theorem orUndef_some {α : Type} (v : α) : orUndef (some v) = .ok v := (rfl)

@[simp] theorem orUndef_none {α : Type} : orUndef (none : Option α) = .error .undef := (rfl)

theorem needIdentity_some {s : State} {id : Identity} (h : s.identity = some id) : s.needIdentity = .ok id := by
  simp [State.needIdentity, h]

theorem needIdentity_none {s : State} (h : s.identity = none) : s.needIdentity = .error .notInit := by
  simp [State.needIdentity, h]

@[simp] theorem forEach_nil (body : Nat → State → Except Err State) (s : State) : forEach body [] s = .ok s := (rfl)

@[simp] theorem forEach_cons (body : Nat → State → Except Err State) (i : Nat) (is : List Nat) (s : State) :
    forEach body (i :: is) s = body i s >>= forEach body is := (rfl)

/-! ## Single bytes -/

theorem fbRead_ok {s : State} {i : Nat} (hi : i < s.params.bufSize) (h : (s.fb.read i).isSome = true) :
    s.fbRead i = .ok (byteAt s.fb i) := by
  simp [State.fbRead, hi, read_of_isSome h]

theorem fbRead_eq_ok {s : State} {i : Nat} {b : Byte} (h : s.fbRead i = .ok b) :
    i < s.params.bufSize ∧ s.fb.read i = some b := by
  unfold State.fbRead at h
  split at h
  · split at h
    · cases h; exact ⟨‹_›, ‹_›⟩
    · cases h
  · cases h

theorem fbWrite_ok {s : State} {i : Nat} {v : Byte} (hi : i < s.params.bufSize) :
    s.fbWrite i v = .ok (s.setFb (s.fb.write i v)) := by
  simp [State.fbWrite, hi]

theorem fbWrite_eq_ok {s t : State} {i : Nat} {v : Byte} (h : s.fbWrite i v = .ok t) :
    i < s.params.bufSize ∧ t = s.setFb (s.fb.write i v) := by
  unfold State.fbWrite at h
  split at h
  · cases h; exact ⟨‹_›, rfl⟩
  · cases h

theorem pbRead_ok {s : State} {i : Nat} (hi : i < s.params.pbSize) (h : (s.pb.read i).isSome = true) :
    s.pbRead i = .ok (byteAt s.pb i) := by
  simp [State.pbRead, hi, read_of_isSome h]

/-! ## Fields and byte sequences -/

theorem memRead_ok {s : State} {a n : Nat} (hi : a + n ≤ s.params.bufSize) (h : Defined s.fb a n) :
    s.memRead a n = .ok (beAt s.fb a n) := by
  induction n generalizing a with
  | zero => rfl
  | succ n ih =>
    have h0 : (s.fb.read a).isSome = true := h 0 (by omega)
    rw [State.memRead, fbRead_ok (by omega) h0, bind_ok, ih (by omega) (defined_sub h (by omega) (by omega)), bind_ok,
      beAt, Nat.shiftLeft_eq, show (256 : Nat) = 2 ^ 8 from rfl, ← Nat.pow_mul]
    rfl

/-- The buffer after `MemWrite(a, 2, v)`. -/
def put2 (m : Memory) (a v : Nat) : Memory :=
  (m.write a (BitVec.ofNat 8 (v >>> 8))).write (a + 1) (BitVec.ofNat 8 v)

theorem memWrite_two {s : State} {a v : Nat} (hi : a + 1 < s.params.bufSize) :
    s.memWrite a 2 v = .ok (s.setFb (put2 s.fb a v)) := by
  rw [State.memWrite, fbWrite_ok (by omega), bind_ok, State.memWrite, fbWrite_ok (by simpa using hi), bind_ok]
  rfl

theorem read_put2 (m : Memory) (a v b : Nat) : (put2 m a v).read b =
    if a = b then some (BitVec.ofNat 8 (v >>> 8)) else if a + 1 = b then some (BitVec.ofNat 8 v) else m.read b := by
  simp only [put2, read_write]; split <;> split <;> first | rfl | omega

/-- A field written with a 16-bit value reads back as that value. -/
theorem beAt_put2 (m : Memory) {a v : Nat} (hv : v < 65536) : beAt (put2 m a v) a 2 = v := by
  simp only [beAt_two, byteAt, read_put2]
  simp [Nat.shiftRight_eq_div_pow]; omega

theorem fbBytes_ok {s : State} {a n : Nat} (hi : a + n ≤ s.params.bufSize) (h : Defined s.fb a n) :
    s.fbBytes a n = .ok ((List.range n).map fun k => byteAt s.fb (a + k)) := by
  induction n generalizing a with
  | zero => rfl
  | succ n ih =>
    have h0 : (s.fb.read a).isSome = true := h 0 (by omega)
    rw [State.fbBytes, fbRead_ok (by omega) h0, bind_ok, ih (by omega) (defined_sub h (by omega) (by omega)), bind_ok,
      pure_eq_ok, List.range_succ_eq_map, List.map_cons, List.map_map]
    refine congrArg Except.ok (congrArg₂ List.cons rfl (List.map_congr_left fun k _ => ?_))
    simp [Nat.add_comm, Nat.add_left_comm]

theorem fbBytes_eq_ok {s : State} {a n : Nat} {bs : List Byte} (h : s.fbBytes a n = .ok bs) :
    bs.length = n ∧ ∀ k < n, a + k < s.params.bufSize ∧ s.fb.read (a + k) = bs[k]? := by
  induction n generalizing a bs with
  | zero => cases h; exact ⟨rfl, fun k hk => absurd hk (by omega)⟩
  | succ n ih =>
    obtain ⟨b, hb, h⟩ := bind_eq_ok h
    obtain ⟨r, hr, h⟩ := bind_eq_ok h
    cases h
    obtain ⟨hlen, hrd⟩ := ih hr
    refine ⟨by simp [hlen], fun k hk => ?_⟩
    cases k with
    | zero => simpa using fbRead_eq_ok hb
    | succ k =>
      have := hrd k (by omega)
      rw [show a + 1 + k = a + (k + 1) by omega] at this
      simpa using this

/-- `Send(n)` where FB[0..n-1] is defined: one event with those bytes (R376). -/
theorem send_ok {s : State} {n : Nat} (hi : n ≤ s.params.bufSize) (h : Defined s.fb 0 n) :
    s.send n = .ok { s with tx := s.tx ++ [⟨n, (List.range n).map fun k => byteAt s.fb k⟩] } := by
  rw [State.send, fbBytes_ok (by omega) h]; simp

/-- The bytes `Send` reads are the frame in FB. -/
theorem isFrame_of_defined {m : Memory} {n : Nat} (h : Defined m 0 n) :
    IsFrame m n ((List.range n).map fun k => byteAt m k) := by
  refine ⟨by simp, fun k hk => ?_⟩
  rw [read_of_defined h (b := k) (by omega) (by omega)]; simp [hk]

theorem fbWriteBytes_ok {s : State} {a : Nat} {bs : List Byte} (hi : a + bs.length ≤ s.params.bufSize) :
    s.fbWriteBytes a bs = .ok (s.setFb (s.fb.writeBytes a bs)) := by
  induction bs generalizing s a with
  | nil => rfl
  | cons b bs ih =>
    simp only [List.length_cons] at hi
    rw [State.fbWriteBytes, fbWrite_ok (by omega), bind_ok, ih (by simp; omega)]
    rfl

/-! ## The operations on a state whose buffer is named

A command's effects before its end are changes of FB, so each state on the way is `s.setFb m`. -/

/-- FB has the 64 bytes R10 requires. -/
abbrev Roomy (s : State) : Prop := 64 ≤ s.params.bufSize

theorem fbRead_at {s : State} {m : Memory} {i : Nat} (hi : i < s.params.bufSize) (h : (m.read i).isSome = true) :
    (s.setFb m).fbRead i = .ok (byteAt m i) := fbRead_ok hi h

theorem fbWrite_at {s : State} {m : Memory} {i : Nat} {v : Byte} (hi : i < s.params.bufSize) :
    (s.setFb m).fbWrite i v = .ok (s.setFb (m.write i v)) := fbWrite_ok hi

theorem memRead_at {s : State} {m : Memory} {a n : Nat} (hi : a + n ≤ s.params.bufSize) (h : Defined m a n) :
    (s.setFb m).memRead a n = .ok (beAt m a n) := memRead_ok hi h

theorem memWrite_at {s : State} {m : Memory} {a v : Nat} (hi : a + 1 < s.params.bufSize) :
    (s.setFb m).memWrite a 2 v = .ok (s.setFb (put2 m a v)) := memWrite_two hi

theorem fbBytes_at {s : State} {m : Memory} {a n : Nat} (hi : a + n ≤ s.params.bufSize) (h : Defined m a n) :
    (s.setFb m).fbBytes a n = .ok ((List.range n).map fun k => byteAt m (a + k)) := fbBytes_ok hi h

theorem fbWriteBytes_at {s : State} {m : Memory} {a : Nat} {bs : List Byte}
    (hi : a + bs.length ≤ s.params.bufSize) :
    (s.setFb m).fbWriteBytes a bs = .ok (s.setFb (m.writeBytes a bs)) := fbWriteBytes_ok hi

/-- The state after `Send(n)` from a named buffer. -/
def sentFrom (s : State) (m : Memory) (n : Nat) : State :=
  { s with fb := m, tx := s.tx ++ [⟨n, (List.range n).map fun k => byteAt m k⟩] }

theorem send_at {s : State} {m : Memory} {n : Nat} (hi : n ≤ s.params.bufSize) (h : Defined m 0 n) :
    (s.setFb m).send n = .ok (sentFrom s m n) := send_ok hi h

theorem fbRead_low {s : State} {m : Memory} {i : Nat} (hs : Roomy s) (hi : i < 64) (h : (m.read i).isSome = true) :
    (s.setFb m).fbRead i = .ok (byteAt m i) := fbRead_at (by omega) h

theorem fbWrite_low {s : State} {m : Memory} {i : Nat} {v : Byte} (hs : Roomy s) (hi : i < 64) :
    (s.setFb m).fbWrite i v = .ok (s.setFb (m.write i v)) := fbWrite_at (by omega)

theorem memWrite_low {s : State} {m : Memory} {a v : Nat} (hs : Roomy s) (ha : a + 1 < 64) :
    (s.setFb m).memWrite a 2 v = .ok (s.setFb (put2 m a v)) := memWrite_at (by omega)

theorem isSome_put2 {m : Memory} {a v b : Nat} (h : (m.read b).isSome = true) :
    ((put2 m a v).read b).isSome = true := isSome_write (isSome_write h)

end Sys2Proof.Laws
end

