-- ==== Sys2Proof/Laws/Checksum.lean ====
section
/-! SUPPORT. The Checksum Engine meets its closed form (R151, R152), and a checksum written into its field makes the
range verify (R153). -/

namespace Sys2Proof.Laws

open Sys2Proof.Machine Sys2Proof.Safety

/-! ## The word sum -/

@[simp] theorem wordSum_zero (m : Memory) (a : Nat) : wordSum m a 0 = 0 := rfl

@[simp] theorem wordSum_one (m : Memory) (a : Nat) : wordSum m a 1 = (byteAt m a).toNat * 256 := by
  simp [wordSum, List.range_succ]

theorem wordSum_add_two (m : Memory) (a n : Nat) : wordSum m a (n + 2) = beAt m a 2 + wordSum m (a + 2) n := by
  simp only [wordSum, beAt_two]
  rw [show n + 2 = 2 + n by omega, List.range_add]
  simp only [List.map_append, List.sum_append, List.map_map]
  congr 1
  · simp [List.range_succ]
  · refine congrArg List.sum (List.map_congr_left fun k _ => ?_)
    simp only [Function.comp, Nat.add_mod_left, Nat.add_assoc]

theorem wordSum_congr {m m' : Memory} {a n : Nat} (h : ∀ k < n, byteAt m (a + k) = byteAt m' (a + k)) :
    wordSum m a n = wordSum m' a n := by
  simp only [wordSum]
  refine congrArg List.sum (List.map_congr_left fun k hk => ?_)
  rw [h k (List.mem_range.mp hk)]

/-- What writing a 16-bit field at an even distance from the start does to the word sum. -/
theorem wordSum_put2 (m : Memory) {a n f v : Nat} (hv : v < 65536) (h1 : a ≤ f) (h2 : f + 2 ≤ a + n)
    (heven : (f - a) % 2 = 0) : wordSum (put2 m f v) a n + beAt m f 2 = wordSum m a n + v := by
  induction n using Nat.strongRecOn generalizing a with
  | ind n ih =>
    match n, ih with
    | 0, _ => omega
    | 1, _ => omega
    | n + 2, ih =>
      rw [wordSum_add_two, wordSum_add_two]
      by_cases hf : a = f
      · subst hf
        rw [beAt_put2 m hv, wordSum_congr (m := put2 m a v) (m' := m)]
        · omega
        · intro k _
          simp only [byteAt, read_put2]
          rw [if_neg (by omega), if_neg (by omega)]
      · have hb : beAt (put2 m f v) a 2 = beAt m a 2 := by
          simp only [beAt_two, byteAt, read_put2]
          rw [if_neg (by omega), if_neg (by omega), if_neg (by omega), if_neg (by omega)]
        have := ih n (by omega) (a := a + 2) (by omega) (by omega) (by omega)
        rw [hb]; omega

theorem sumWords_ok {s : State} {a n acc : Nat} (hi : a + n ≤ s.params.bufSize) (h : Defined s.fb a n) :
    sumWords s a n acc = .ok (acc + wordSum s.fb a n) := by
  induction n using Nat.strongRecOn generalizing a acc with
  | ind n ih =>
    match n, ih with
    | 0, _ => simp [sumWords]
    | 1, _ =>
      have h0 : (s.fb.read a).isSome = true := h 0 (by omega)
      rw [sumWords, fbRead_ok (by omega) h0, bind_ok, pure_eq_ok, wordSum_one, Nat.shiftLeft_eq]
    | n + 2, ih =>
      rw [sumWords, memRead_ok (by omega) (defined_sub h (by omega) (by omega)), bind_ok,
        ih n (by omega) (by omega) (defined_sub h (by omega) (by omega)), wordSum_add_two]
      exact congrArg Except.ok (by omega)

/-! ## The fold -/

theorem ocFold_lt (sum : Nat) : ocFold sum < 65536 := by unfold ocFold; split <;> omega

theorem ocFold_small {sum : Nat} (h : sum < 65536) : ocFold sum = sum := by unfold ocFold; split <;> omega

theorem ocFold_step (sum : Nat) :
    ocFold ((sum &&& 0xFFFF) + (sum >>> 16)) = ocFold sum := by
  rw [show (0xFFFF : Nat) = 2 ^ 16 - 1 from rfl, Nat.and_two_pow_sub_one_eq_mod]
  rw [Nat.shiftRight_eq_div_pow]
  unfold ocFold
  split <;> split <;> omega

theorem foldLoop_eq {fuel sum : Nat} (h : sum ≤ fuel + 65535) : foldLoop fuel sum = ocFold sum := by
  induction fuel generalizing sum with
  | zero => rw [foldLoop, ocFold_small (by omega)]
  | succ fuel ih =>
    rw [foldLoop]
    split
    · rename_i hs
      have hb : (sum &&& 0xFFFF) + (sum >>> 16) ≤ fuel + 65535 := by
        rw [show (0xFFFF : Nat) = 2 ^ 16 - 1 from rfl, Nat.and_two_pow_sub_one_eq_mod]
        rw [Nat.shiftRight_eq_div_pow] at *
        omega
      rw [ih hb, ocFold_step]
    · rename_i hs
      rw [ocFold_small]
      rw [Nat.shiftRight_eq_div_pow] at hs
      omega

/-- The fold loop ends with the closed form (R151). -/
theorem foldCarries_eq (sum : Nat) : foldCarries sum = ocFold sum := foldLoop_eq (by omega)

theorem ocChecksum_lt (sum : Nat) : ocChecksum sum < 65536 := by unfold ocChecksum; omega

/-- `Checksum(a, n, kind)` over defined bytes inside FB (R151). -/
theorem inetChecksum_ok {s : State} {a n : Nat} {k : Kind} (hi : a + n ≤ s.params.bufSize)
    (h : Defined s.fb a n) :
    inetChecksum s a n k = .ok (BitVec.ofNat 16 (ocChecksum (checksumSeed k n + wordSum s.fb a n))) := by
  rw [inetChecksum, sumWords_ok hi h, bind_ok, pure_eq_ok, foldCarries_eq]
  refine congrArg Except.ok (BitVec.eq_of_toNat_eq ?_)
  have := ocFold_lt (checksumSeed k n + wordSum s.fb a n)
  simp [ocChecksum]; omega

theorem inetChecksum_at {s : State} {m : Memory} {a n : Nat} {k : Kind} (hi : a + n ≤ s.params.bufSize)
    (h : Defined m a n) :
    inetChecksum (s.setFb m) a n k = .ok (BitVec.ofNat 16 (ocChecksum (checksumSeed k n + wordSum m a n))) :=
  inetChecksum_ok hi h

/-! ## The round trip -/

/-- A sum to which its own checksum is added has the checksum 0 (R153). -/
theorem ocChecksum_add_self (sum : Nat) : ocChecksum (sum + ocChecksum sum) = 0 := by
  unfold ocChecksum ocFold
  split <;> split <;> omega

/-- A checksum computed over a range whose field is zero, and written into that field, is in place. -/
theorem csumField_put2 {m : Memory} {seed a n f : Nat} (h1 : a ≤ f) (h2 : f + 2 ≤ a + n)
    (heven : (f - a) % 2 = 0) (hz : beAt m f 2 = 0) :
    CsumField (put2 m f (ocChecksum (seed + wordSum m a n))) seed a n f := by
  have hlt := ocChecksum_lt (seed + wordSum m a n)
  refine ⟨fun k hk => ?_, ?_⟩
  · rw [read_put2]
    rcases (show k = 0 ∨ k = 1 by omega) with rfl | rfl <;> simp
  · rw [beAt_put2 m hlt]
    have := wordSum_put2 m (v := ocChecksum (seed + wordSum m a n)) hlt h1 h2 heven
    rw [hz, Nat.add_zero] at this
    rw [this, Nat.add_sub_cancel]

/-- A range whose checksum field is in place verifies: its checksum is 0 (R153). -/
theorem ocChecksum_of_csumField {m : Memory} {seed a n f : Nat} (h1 : a ≤ f) (h2 : f + 2 ≤ a + n)
    (heven : (f - a) % 2 = 0) (h : CsumField m seed a n f) : ocChecksum (seed + wordSum m a n) = 0 := by
  have hw := wordSum_put2 m (v := 0) (by omega) h1 h2 heven
  obtain ⟨x, hx⟩ : ∃ x, wordSum m a n = x + beAt m f 2 := ⟨wordSum m a n - beAt m f 2, by omega⟩
  have hf := h.2
  rw [hx, Nat.add_sub_cancel] at hf
  rw [hx, ← Nat.add_assoc, hf]
  exact ocChecksum_add_self _

end Sys2Proof.Laws
end

