-- ==== Sys2Proof/Laws/Effects.lean ====
section
/-! SUPPORT. What an operation of a command can do to the state, said once for each operation: the bytes of FB and PB
it reads before it writes them, the bytes of FB it may write, how often it moves IPID and ISN on, and that UNDEF is
the one error it raises once the sizes are known to be large enough. -/

namespace Sys2Proof.Laws

open Sys2Proof.Machine Sys2Proof.Safety

/-- The effect of an operation: `reads` and `pbReads` are bytes it is sure to read as they stood before it, `writes`
are the bytes it may write, `ipid` and `isn` count the increments. -/
structure Fx where
  reads : Nat → Prop
  writes : Nat → Prop
  pbReads : Nat → Prop
  ipid : Nat
  isn : Nat

/-- No effect. -/
def Fx.none : Fx := ⟨fun _ => False, fun _ => False, fun _ => False, 0, 0⟩

/-- A read of one byte of FB. -/
def Fx.read (i : Nat) : Fx := { Fx.none with reads := fun a => a = i }

/-- A read of one byte of PB. -/
def Fx.pbRead (i : Nat) : Fx := { Fx.none with pbReads := fun a => a = i }

/-- Writes inside lo..hi-1. -/
def Fx.write (lo hi : Nat) : Fx := { Fx.none with writes := fun a => lo ≤ a ∧ a < hi }

/-- One effect after the other: a byte written first is no longer read as it stood before. -/
def Fx.seq (x y : Fx) : Fx where
  reads := fun a => x.reads a ∨ (y.reads a ∧ ¬ x.writes a)
  writes := fun a => x.writes a ∨ y.writes a
  pbReads := fun a => x.pbReads a ∨ y.pbReads a
  ipid := x.ipid + y.ipid
  isn := x.isn + y.isn

/-- The effects of a list of operations, in order. -/
def Fx.all (fx : Nat → Fx) : List Nat → Fx
  | [] => Fx.none
  | i :: is => (fx i).seq (Fx.all fx is)

/-- What has changed after an operation with the effect. -/
structure Moved (fx : Fx) (s t : State) : Prop where
  eq : t = { s with
    fb := t.fb, ipid := s.ipid + BitVec.ofNat 16 fx.ipid, isn := s.isn + BitVec.ofNat 8 (2 * fx.isn) }
  keeps : ∀ a, ¬ fx.writes a → t.fb.read a = s.fb.read a
  grows : ∀ a, (s.fb.read a).isSome = true → (t.fb.read a).isSome = true
  wf : s.fb.wf = true → t.fb.wf = true
  below : s.fb.below s.params.bufSize = true → t.fb.below s.params.bufSize = true

/-- The bytes the effect reads were defined. -/
def WasReadable (fx : Fx) (s : State) : Prop :=
  (∀ a, fx.reads a → (s.fb.read a).isSome = true) ∧ ∀ a, fx.pbReads a → (s.pb.read a).isSome = true

/-- An operation has the effect, on a machine with the parameters `p`. -/
def Does (p : Config.Params) (fx : Fx) (f : State → Except Err State) : Prop :=
  ∀ s, s.params = p →
    (∀ t, f s = .ok t → Moved fx s t ∧ WasReadable fx s) ∧ ∀ e, f s = .error e → e = .undef

theorem Moved.params {fx : Fx} {s t : State} (h : Moved fx s t) : t.params = s.params := by rw [h.eq]

theorem Moved.pb {fx : Fx} {s t : State} (h : Moved fx s t) : t.pb = s.pb := by rw [h.eq]

theorem Moved.refl (s : State) : Moved Fx.none s s :=
  ⟨by simp [Fx.none], fun _ _ => rfl, fun _ h => h, fun h => h, fun h => h⟩

theorem Moved.trans {x y : Fx} {s t u : State} (h : Moved x s t) (h' : Moved y t u) : Moved (x.seq y) s u where
  eq := by
    rw [h'.eq, h.eq]
    simp only [Fx.seq, BitVec.add_assoc]
    congr 1
    · rw [BitVec.ofNat_add]
    · rw [Nat.mul_add, BitVec.ofNat_add]
  keeps a ha := by
    simp only [Fx.seq, not_or] at ha
    rw [h'.keeps a ha.2, h.keeps a ha.1]
  grows a ha := h'.grows a (h.grows a ha)
  wf hw := h'.wf (h.wf hw)
  below hb := by rw [← h.params]; exact h'.below (by rw [h.params]; exact h.below hb)

/-! ## The primitives -/

theorem Does.pure {p : Config.Params} : Does p Fx.none fun s => .ok s := by
  intro s _
  refine ⟨fun t h => ?_, fun e h => by cases h⟩
  cases h
  exact ⟨Moved.refl s, fun _ h => h.elim, fun _ h => h.elim⟩

theorem Does.bind {p : Config.Params} {x y : Fx} {f g : State → Except Err State} (hf : Does p x f)
    (hg : Does p y g) : Does p (x.seq y) fun s => f s >>= g := by
  intro s hs
  cases hr : f s with
  | error e =>
    refine ⟨fun t h => by simp [hr] at h, fun e' h => ?_⟩
    simp [hr] at h
    exact h ▸ (hf s hs).2 e hr
  | ok t =>
    obtain ⟨hm, hrd⟩ := (hf s hs).1 t hr
    have hg' := hg t (hm.params.trans hs)
    refine ⟨fun u h => ?_, fun e h => hg'.2 e (by simpa [hr] using h)⟩
    obtain ⟨hm', hrd'⟩ := hg'.1 u (by simpa [hr] using h)
    refine ⟨hm.trans hm', fun a ha => ?_, fun a ha => ?_⟩
    · rcases ha with ha | ⟨ha, hw⟩
      · exact hrd.1 a ha
      · rw [← hm.keeps a hw]; exact hrd'.1 a ha
    · rcases ha with ha | ha
      · exact hrd.2 a ha
      · rw [← hm.pb]; exact hrd'.2 a ha

/-- A part of a command that computes a value from what it reads, and changes nothing. -/
def Asks {α : Type} (p : Config.Params) (fx : Fx) (q : State → Except Err α) : Prop :=
  ∀ s, s.params = p → (∀ v, q s = .ok v → WasReadable fx s) ∧ ∀ e, q s = .error e → e = .undef

theorem Does.ask {α : Type} {p : Config.Params} {x y : Fx} {q : State → Except Err α}
    {g : α → State → Except Err State} (hq : Asks p x q) (hi : x.ipid = 0) (hn : x.isn = 0)
    (hg : ∀ v, Does p y (g v)) : Does p (x.seq y) fun s => q s >>= fun v => g v s := by
  intro s hs
  cases hr : q s with
  | error e =>
    refine ⟨fun t h => by simp [hr] at h, fun e' h => ?_⟩
    simp [hr] at h
    exact h ▸ (hq s hs).2 e hr
  | ok v =>
    have hg' := hg v s hs
    have hrd := (hq s hs).1 v hr
    refine ⟨fun u h => ?_, fun e h => hg'.2 e (by simpa [hr] using h)⟩
    obtain ⟨hm, hrd'⟩ := hg'.1 u (by simpa [hr] using h)
    refine ⟨⟨?_, fun a ha => hm.keeps a fun h => ha (Or.inr h), hm.grows, hm.wf, hm.below⟩, fun a ha => ?_, fun a ha => ?_⟩
    · simp only [Fx.seq, hi, hn, Nat.zero_add]; exact hm.eq
    · rcases ha with ha | ⟨ha, -⟩
      · exact hrd.1 a ha
      · exact hrd'.1 a ha
    · rcases ha with ha | ha
      · exact hrd.2 a ha
      · exact hrd'.2 a ha

theorem Asks.bind {α β : Type} {p : Config.Params} {x y : Fx} {q : State → Except Err α}
    {r : α → State → Except Err β} (hq : Asks p x q) (hr : ∀ v, Asks p y (r v)) :
    Asks p (x.seq y) fun s => q s >>= fun v => r v s := by
  intro s hs
  cases hv : q s with
  | error e =>
    refine ⟨fun t h => by simp [hv] at h, fun e' h => ?_⟩
    simp [hv] at h
    exact h ▸ (hq s hs).2 e hv
  | ok v =>
    refine ⟨fun w h => ?_, fun e h => (hr v s hs).2 e (by simpa [hv] using h)⟩
    have h1 := (hq s hs).1 v hv
    have h2 := (hr v s hs).1 w (by simpa [hv] using h)
    exact ⟨fun a ha => ha.elim (h1.1 a) fun h => h2.1 a h.1, fun a ha => ha.elim (h1.2 a) (h2.2 a)⟩

theorem Asks.pure {α : Type} {p : Config.Params} {v : α} : Asks p Fx.none fun _ => .ok v := by
  intro s _
  exact ⟨fun _ _ => ⟨fun _ h => h.elim, fun _ h => h.elim⟩, fun e h => by cases h⟩

theorem Asks.fbRead {p : Config.Params} {i : Nat} (hi : i < p.bufSize) : Asks p (Fx.read i) (·.fbRead i) := by
  intro s hs
  subst hs
  refine ⟨fun v h => ⟨fun a ha => ?_, fun _ h => h.elim⟩, fun e h => ?_⟩
  · cases (ha : a = i); simp [(fbRead_eq_ok h).2]
  · simp only [State.fbRead, hi, if_true] at h
    split at h
    · cases h
    · cases h; rfl

theorem Asks.pbRead {p : Config.Params} {i : Nat} (hi : i < p.pbSize) : Asks p (Fx.pbRead i) (·.pbRead i) := by
  intro s hs
  subst hs
  refine ⟨fun v h => ⟨fun _ h => h.elim, fun a ha => ?_⟩, fun e h => ?_⟩
  · cases (ha : a = i)
    simp only [State.pbRead, hi, if_true] at h
    split at h
    · rename_i hb; simp [hb]
    · cases h
  · simp only [State.pbRead, hi, if_true] at h
    split at h
    · cases h
    · cases h; rfl

/-- The reads of lo..hi-1, and nothing else. -/
def Fx.range (lo hi : Nat) : Fx := { Fx.none with reads := fun a => lo ≤ a ∧ a < hi }

theorem Asks.weaken {α : Type} {p : Config.Params} {x y : Fx} {q : State → Except Err α} (h : Asks p x q)
    (hr : ∀ a, y.reads a → x.reads a) (hp : ∀ a, y.pbReads a → x.pbReads a) : Asks p y q := fun s hs =>
  ⟨fun v hv => ⟨fun a ha => ((h s hs).1 v hv).1 a (hr a ha), fun a ha => ((h s hs).1 v hv).2 a (hp a ha)⟩, (h s hs).2⟩

theorem Asks.memRead {p : Config.Params} {a n : Nat} (hi : a + n ≤ p.bufSize) :
    Asks p (Fx.range a (a + n)) (·.memRead a n) := by
  induction n generalizing a with
  | zero => exact Asks.pure.weaken (fun b hb => by simp only [Fx.range] at hb; omega) fun _ h => h
  | succ n ih =>
    refine Asks.weaken (Asks.bind (Asks.fbRead (i := a) (by omega)) fun _ =>
      Asks.bind (ih (a := a + 1) (by omega)) fun _ => Asks.pure) (fun b hb => ?_) fun _ h => h.elim
    simp only [Fx.range, Fx.seq, Fx.read, Fx.none, not_false_eq_true, and_true, or_false] at hb ⊢
    omega

theorem Asks.fbBytes {p : Config.Params} {a n : Nat} (hi : a + n ≤ p.bufSize) :
    Asks p (Fx.range a (a + n)) (·.fbBytes a n) := by
  induction n generalizing a with
  | zero => exact Asks.pure.weaken (fun b hb => by simp only [Fx.range] at hb; omega) fun _ h => h
  | succ n ih =>
    refine Asks.weaken (Asks.bind (Asks.fbRead (i := a) (by omega)) fun _ =>
      Asks.bind (ih (a := a + 1) (by omega)) fun _ => Asks.pure) (fun b hb => ?_) fun _ h => h.elim
    simp only [Fx.range, Fx.seq, Fx.read, Fx.none, not_false_eq_true, and_true, or_false] at hb ⊢
    omega

theorem Asks.sumWords {p : Config.Params} {a n acc : Nat} (hi : a + n ≤ p.bufSize) :
    Asks p (Fx.range a (a + n)) fun s => sumWords s a n acc := by
  induction n using Nat.strongRecOn generalizing a acc with
  | ind n ih =>
    match n, ih with
    | 0, _ => exact Asks.pure.weaken (fun b hb => by simp only [Fx.range] at hb; omega) fun _ h => h
    | 1, _ =>
      refine Asks.weaken (Asks.bind (Asks.fbRead (i := a) (by omega)) fun _ => Asks.pure)
        (fun b hb => ?_) fun _ h => h.elim
      simp only [Fx.range, Fx.seq, Fx.read, Fx.none, not_false_eq_true, and_true, or_false] at hb ⊢
      omega
    | n + 2, ih =>
      refine Asks.weaken (Asks.bind (Asks.memRead (a := a) (n := 2) (by omega)) fun _ =>
        ih n (by omega) (a := a + 2) (by omega)) (fun b hb => ?_) fun _ h => h.elim
      simp only [Fx.range, Fx.seq, Fx.none, not_false_eq_true, and_true] at hb ⊢
      omega

theorem Asks.inetChecksum {p : Config.Params} {a n : Nat} {k : Kind} (hi : a + n ≤ p.bufSize) :
    Asks p (Fx.range a (a + n)) fun s => inetChecksum s a n k := by
  refine Asks.weaken (Asks.bind (Asks.sumWords hi) fun _ => Asks.pure) (fun b hb => ?_) fun _ h =>
    h.elim
  exact Or.inl hb

theorem Does.weaken {p : Config.Params} {x y : Fx} {f : State → Except Err State} (h : Does p x f)
    (hr : ∀ a, y.reads a → x.reads a) (hw : ∀ a, x.writes a → y.writes a) (hp : ∀ a, y.pbReads a → x.pbReads a)
    (hi : x.ipid = y.ipid) (hn : x.isn = y.isn) : Does p y f := fun s hs =>
  ⟨fun t ht =>
    have hm := ((h s hs).1 t ht).1
    ⟨⟨by rw [← hi, ← hn]; exact hm.eq, fun a ha => hm.keeps a fun hx => ha (hw a hx), hm.grows, hm.wf, hm.below⟩,
      fun a ha => ((h s hs).1 t ht).2.1 a (hr a ha), fun a ha => ((h s hs).1 t ht).2.2 a (hp a ha)⟩, (h s hs).2⟩

theorem Does.fbWrite {p : Config.Params} {i : Nat} {v : State → Byte} (hi : i < p.bufSize) :
    Does p (Fx.write i (i + 1)) fun s => s.fbWrite i (v s) := by
  intro s hs
  subst hs
  simp only [fbWrite_ok hi]
  refine ⟨fun t h => ?_, fun e h => by cases h⟩
  cases h
  refine ⟨⟨by simp [Fx.write, Fx.none, State.setFb], fun a ha => ?_, fun a ha => isSome_write ha, fun hw => wf_write hw,
    fun hb => below_write hi hb⟩, fun _ h => h.elim, fun _ h => h.elim⟩
  simp only [Fx.write] at ha
  simp only [setFb_fb, read_write]
  rw [if_neg (by omega)]

theorem Does.memWrite {p : Config.Params} {a n : Nat} {v : State → Nat} (hi : a + n ≤ p.bufSize) :
    Does p (Fx.write a (a + n)) fun s => s.memWrite a n (v s) := by
  induction n generalizing a v with
  | zero =>
    exact Does.pure.weaken (fun _ h => h) (fun _ h => h.elim) (fun _ h => h) rfl rfl
  | succ n ih =>
    intro s hs
    have h := Does.weaken (y := Fx.write a (a + (n + 1)))
      (Does.bind (Does.fbWrite (i := a) (v := fun _ => BitVec.ofNat 8 (v s >>> (8 * n))) (by omega))
        (ih (a := a + 1) (v := fun _ => v s) (by omega))) (fun _ h => h.elim) (fun b hb => by
          simp only [Fx.seq, Fx.write] at hb ⊢; omega) (fun _ h => h.elim) rfl rfl s hs
    exact h

theorem Does.fbWriteBytes {p : Config.Params} {a : Nat} {bs : State → List Byte} {n : Nat}
    (hn : ∀ s, (bs s).length = n) (hi : a + n ≤ p.bufSize) :
    Does p (Fx.write a (a + n)) fun s => s.fbWriteBytes a (bs s) := by
  intro s hs
  have hlen := hn s
  subst hs
  simp only [fbWriteBytes_ok (show a + (bs s).length ≤ s.params.bufSize by omega)]
  refine ⟨fun t h => ?_, fun e h => by cases h⟩
  cases h
  refine ⟨⟨by simp [Fx.write, Fx.none, State.setFb], fun b hb => ?_, fun b hb => isSome_writeBytes hb,
    fun hw => wf_writeBytes hw, fun hb => below_writeBytes (by omega) hb⟩, fun _ h => h.elim, fun _ h => h.elim⟩
  simp only [Fx.write] at hb
  simp only [setFb_fb, read_writeBytes]
  rw [if_neg (by omega)]

theorem Does.ite {p : Config.Params} {x : Fx} {c : Prop} [Decidable c] {f g : State → Except Err State}
    (hf : c → Does p x f) (hg : ¬ c → Does p x g) : Does p x fun s => if c then f s else g s := by
  by_cases hc : c
  · simpa [hc] using hf hc
  · simpa [hc] using hg hc

theorem Does.forEach {p : Config.Params} {fx : Nat → Fx} {body : Nat → State → Except Err State} {l : List Nat}
    (h : ∀ i ∈ l, Does p (fx i) (body i)) : Does p (Fx.all fx l) (forEach body l) := by
  induction l with
  | nil => exact Does.pure
  | cons i is ih => exact Does.bind (h i (by simp)) (ih fun j hj => h j (by simp [hj]))

theorem Does.bumpIpid {p : Config.Params} : Does p { Fx.none with ipid := 1 } fun s => .ok s.bumpIpid := by
  intro s _
  refine ⟨fun t h => ?_, fun e h => by cases h⟩
  cases h
  exact ⟨⟨by simp [State.bumpIpid, Fx.none], fun _ _ => rfl, fun _ h => h, fun h => h, fun h => h⟩, fun _ h => h.elim,
    fun _ h => h.elim⟩

theorem Does.bumpIsn {p : Config.Params} : Does p { Fx.none with isn := 1 } fun s => .ok s.bumpIsn := by
  intro s _
  refine ⟨fun t h => ?_, fun e h => by cases h⟩
  cases h
  exact ⟨⟨by simp [State.bumpIsn, Fx.none], fun _ _ => rfl, fun _ h => h, fun h => h, fun h => h⟩, fun _ h => h.elim,
    fun _ h => h.elim⟩

end Sys2Proof.Laws
end

