-- ==== Sys2Proof/Laws/Envelope.lean ====
section
/-! SUPPORT. The Envelope Swapper's helpers: the buffer each leaves where the bytes it reads are defined, and what
every byte of that buffer is. -/

namespace Sys2Proof.Laws

open Sys2Proof.Machine Sys2Proof.Safety

/-! ## swapEthernet (R190) -/

/-- The buffer after `swapEthernet`. -/
def swapEthMem (mac : BitVec 48) (m : Memory) : Memory :=
  [0, 1, 2, 3, 4, 5].foldl (fun m i => (m.write i (byteAt m (6 + i))).write (6 + i) (macByte mac i)) m

theorem swapEthernet_ok {s : State} {m : Memory} {id : Identity} (hs : Roomy s) (h : Defined m 6 6) :
    swapEthernet id (s.setFb m) = .ok (s.setFb (swapEthMem id.mac m)) := by
  have h0 := h 0 (by omega); have h1 := h 1 (by omega); have h2 := h 2 (by omega)
  have h3 := h 3 (by omega); have h4 := h 4 (by omega); have h5 := h 5 (by omega)
  simp only [Nat.reduceAdd] at h0 h1 h2 h3 h4 h5
  simp [swapEthernet, swapEthMem, fbRead_low, fbWrite_low, hs, h0, h1, h2, h3, h4, h5]

/-- What `swapEthernet` leaves: the source MAC at the destination, the own MAC as the source, the rest alone (R191). -/
theorem read_swapEthMem {mac : BitVec 48} {m : Memory} (h : Defined m 6 6) (a : Nat) :
    (swapEthMem mac m).read a =
      if a < 6 then m.read (6 + a) else if a < 12 then some (macByte mac (a - 6)) else m.read a := by
  have h0 := read_of_isSome (h 0 (by omega)); have h1 := read_of_isSome (h 1 (by omega))
  have h2 := read_of_isSome (h 2 (by omega)); have h3 := read_of_isSome (h 3 (by omega))
  have h4 := read_of_isSome (h 4 (by omega)); have h5 := read_of_isSome (h 5 (by omega))
  simp only [Nat.reduceAdd] at h0 h1 h2 h3 h4 h5
  by_cases ha : a < 12
  · interval_cases a <;> simp [swapEthMem, *]
  · rw [if_neg (by omega), if_neg ha]
    simp only [swapEthMem, List.foldl_cons, List.foldl_nil, read_write, Nat.reduceAdd]
    repeat rw [if_neg (by omega)]

/-! ## fillIpChecksum (R194) -/

/-- The header with flags, offset and TTL set and the checksum field zero. -/
def fillIpZeroed (m : Memory) : Memory := (((put2 m 24 0).write 20 0x40).write 21 0x00).write 22 64

/-- The buffer after `fillIpChecksum`. -/
def fillIpMem (m : Memory) : Memory := put2 (fillIpZeroed m) 24 (ocChecksum (wordSum (fillIpZeroed m) 14 20))

/-- The bytes `fillIpChecksum` reads before it writes them. -/
abbrev IpHeaderRead (m : Memory) : Prop := Defined m 14 6 ∧ Defined m 23 1 ∧ Defined m 26 8

theorem isSome_fillIpZeroed {m : Memory} {b : Nat} (h : (m.read b).isSome = true) :
    ((fillIpZeroed m).read b).isSome = true :=
  isSome_write (isSome_write (isSome_write (isSome_put2 h)))

theorem defined_fillIpZeroed {m : Memory} (h : IpHeaderRead m) : Defined (fillIpZeroed m) 14 20 := by
  intro k hk
  by_cases h1 : k < 6
  · exact isSome_fillIpZeroed (h.1 k h1)
  by_cases h2 : k = 9
  · subst h2; exact isSome_fillIpZeroed (h.2.1 0 (by omega))
  by_cases h3 : 12 ≤ k
  · obtain ⟨j, rfl⟩ : ∃ j, k = 12 + j := ⟨k - 12, by omega⟩
    have := isSome_fillIpZeroed (h.2.2 j (by omega))
    rwa [show 14 + (12 + j) = 26 + j by omega]
  · interval_cases k <;> simp_all [fillIpZeroed, read_put2]

theorem fillIpChecksum_ok {s : State} {m : Memory} (hs : Roomy s) (h : IpHeaderRead m) :
    fillIpChecksum (s.setFb m) = .ok (s.setFb (fillIpMem m)) := by
  have hck := inetChecksum_at (s := s) (k := .ip) (by omega) (defined_fillIpZeroed h)
  have hc := ocChecksum_lt (wordSum (fillIpZeroed m) 14 20)
  have hz : (((put2 m 24 0).write 20 64#8).write 21 0#8).write 22 64#8 = fillIpZeroed m := rfl
  simp only [checksumSeed, Nat.zero_add] at hck
  simp [fillIpChecksum, fillIpMem, memWrite_low, fbWrite_low, hs, hz, hck, Nat.mod_eq_of_lt hc]

theorem read_fillIpMem {m : Memory} (a : Nat) (h24 : a ≠ 24) (h25 : a ≠ 25) :
    (fillIpMem m).read a =
      if a = 20 then some 0x40 else if a = 21 then some 0x00 else if a = 22 then some 64 else m.read a := by
  simp only [fillIpMem, fillIpZeroed, read_put2, read_write]
  rw [if_neg (by omega), if_neg (by omega), if_neg (show ¬ 24 = a by omega), if_neg (show ¬ 24 + 1 = a by omega)]
  simp only [eq_comm (a := a)]
  split
  · rename_i h; subst h; rfl
  · split
    · rename_i h; subst h; rfl
    · rfl

/-- The header checksum is in place, so the header verifies (R195). -/
theorem csumField_fillIpMem (m : Memory) : CsumField (fillIpMem m) 0 14 20 24 := by
  have := csumField_put2 (m := fillIpZeroed m) (seed := 0) (a := 14) (n := 20) (f := 24) (by omega) (by omega) (by omega)
    (by simp [beAt_two, fillIpZeroed, byteAt, read_put2])
  simpa [fillIpMem] using this

theorem isSome_fillIpMem {m : Memory} {b : Nat} (h : (m.read b).isSome = true) :
    ((fillIpMem m).read b).isSome = true := isSome_put2 (isSome_fillIpZeroed h)

/-- Every byte of the IP header is defined after `fillIpChecksum`. -/
theorem defined_fillIpMem {m : Memory} (h : IpHeaderRead m) : Defined (fillIpMem m) 14 20 :=
  defined_mono (defined_fillIpZeroed h) fun _ hb => isSome_put2 hb

/-! ## swapIp (R192) -/

/-- The buffer after the address loop of `swapIp`. -/
def swapIpAddrs (ip : BitVec 32) (m : Memory) : Memory :=
  [0, 1, 2, 3].foldl (fun m i => (m.write (30 + i) (byteAt m (26 + i))).write (26 + i) (ipByte ip i)) m

/-- The buffer after `swapIp`. -/
def swapIpMem (ip : BitVec 32) (m : Memory) : Memory := fillIpMem (swapIpAddrs ip m)

/-- The bytes `swapIp` reads before it writes them. -/
abbrev SwapIpRead (m : Memory) : Prop := Defined m 14 6 ∧ Defined m 23 1 ∧ Defined m 26 4

theorem read_swapIpAddrs {ip : BitVec 32} {m : Memory} (h : Defined m 26 4) (a : Nat) :
    (swapIpAddrs ip m).read a =
      if 26 ≤ a ∧ a < 30 then some (ipByte ip (a - 26)) else if 30 ≤ a ∧ a < 34 then m.read (a - 4) else m.read a := by
  have h0 := read_of_isSome (h 0 (by omega)); have h1 := read_of_isSome (h 1 (by omega))
  have h2 := read_of_isSome (h 2 (by omega)); have h3 := read_of_isSome (h 3 (by omega))
  simp only [Nat.reduceAdd] at h0 h1 h2 h3
  by_cases ha : 26 ≤ a ∧ a < 34
  · obtain ⟨ha1, ha2⟩ := ha
    interval_cases a <;> simp [swapIpAddrs, *]
  · rw [if_neg (by omega), if_neg (by omega)]
    simp only [swapIpAddrs, List.foldl_cons, List.foldl_nil, read_write, Nat.reduceAdd]
    repeat rw [if_neg (by omega)]

theorem ipHeaderRead_swapIpAddrs {ip : BitVec 32} {m : Memory} (h : SwapIpRead m) :
    IpHeaderRead (swapIpAddrs ip m) := by
  refine ⟨fun k hk => ?_, fun k hk => ?_, fun k hk => ?_⟩
  · rw [read_swapIpAddrs h.2.2, if_neg (by omega), if_neg (by omega)]; exact h.1 k hk
  · rw [read_swapIpAddrs h.2.2, if_neg (by omega), if_neg (by omega)]; exact h.2.1 k hk
  · rw [read_swapIpAddrs h.2.2]
    split
    · rfl
    · rw [if_pos (by omega), show 26 + k - 4 = 26 + (k - 4) by omega]; exact h.2.2 (k - 4) (by omega)

theorem swapIp_ok {s : State} {m : Memory} {id : Identity} (hs : Roomy s) (h : SwapIpRead m) :
    swapIp id (s.setFb m) = .ok (s.setFb (swapIpMem id.ip m)) := by
  have h0 := h.2.2 0 (by omega); have h1 := h.2.2 1 (by omega)
  have h2 := h.2.2 2 (by omega); have h3 := h.2.2 3 (by omega)
  simp only [Nat.reduceAdd] at h0 h1 h2 h3
  rw [swapIpMem, ← fillIpChecksum_ok hs (ipHeaderRead_swapIpAddrs h)]
  simp [swapIp, swapIpAddrs, fbRead_low, fbWrite_low, hs, h0, h1, h2, h3]

/-- What `swapIp` leaves outside the checksum field (R192, R194). -/
theorem read_swapIpMem {ip : BitVec 32} {m : Memory} (h : Defined m 26 4) (a : Nat) (h24 : a ≠ 24) (h25 : a ≠ 25) :
    (swapIpMem ip m).read a =
      if a = 20 then some 0x40 else if a = 21 then some 0x00 else if a = 22 then some 64
      else if 26 ≤ a ∧ a < 30 then some (ipByte ip (a - 26)) else if 30 ≤ a ∧ a < 34 then m.read (a - 4)
      else m.read a := by
  rw [swapIpMem, read_fillIpMem a h24 h25, read_swapIpAddrs h]

theorem csumField_swapIpMem (ip : BitVec 32) (m : Memory) : CsumField (swapIpMem ip m) 0 14 20 24 :=
  csumField_fillIpMem _

theorem isSome_swapIpMem {ip : BitVec 32} {m : Memory} (hd : Defined m 26 4) {b : Nat}
    (h : (m.read b).isSome = true) : ((swapIpMem ip m).read b).isSome = true := by
  refine isSome_fillIpMem ?_
  rw [read_swapIpAddrs hd]
  split
  · rfl
  · split
    · rw [show b - 4 = 26 + (b - 30) by omega]; exact hd (b - 30) (by omega)
    · exact h

theorem defined_swapIpMem {ip : BitVec 32} {m : Memory} (h : SwapIpRead m) : Defined (swapIpMem ip m) 14 20 :=
  defined_fillIpMem (ipHeaderRead_swapIpAddrs h)

/-! ## newIpHeaderForTcp (R196) -/

/-- The buffer before `newIpHeaderForTcp` calls `fillIpChecksum`. -/
def newIpRaw (src dst : BitVec 32) (ident : Half) (tl : Nat) (m : Memory) : Memory :=
  [0, 1, 2, 3].foldl (fun m i => (m.write (26 + i) (ipByte src i)).write (30 + i) (ipByte dst i))
    (((((put2 (put2 ((m.write 14 0x45).write 15 0x00) 16 tl) 18 ident.toNat).write 20 0x00).write 21 0x00).write 22
      128).write 23 6)

/-- The buffer after `newIpHeaderForTcp`. -/
def newIpMem (src dst : BitVec 32) (ident : Half) (tl : Nat) (m : Memory) : Memory :=
  fillIpMem (newIpRaw src dst ident tl m)

theorem read_newIpRaw (src dst : BitVec 32) (ident : Half) (tl : Nat) (m : Memory) (a : Nat) :
    (newIpRaw src dst ident tl m).read a =
      if a = 14 then some 0x45 else if a = 15 then some 0x00 else if a = 16 then some (BitVec.ofNat 8 (tl >>> 8))
      else if a = 17 then some (BitVec.ofNat 8 tl) else if a = 18 then some (BitVec.ofNat 8 (ident.toNat >>> 8))
      else if a = 19 then some (BitVec.ofNat 8 ident.toNat) else if a = 20 then some 0x00 else if a = 21 then some 0x00
      else if a = 22 then some 128 else if a = 23 then some 6
      else if 26 ≤ a ∧ a < 30 then some (ipByte src (a - 26)) else if 30 ≤ a ∧ a < 34 then some (ipByte dst (a - 30))
      else m.read a := by
  by_cases ha : 14 ≤ a ∧ a < 34
  · obtain ⟨ha1, ha2⟩ := ha
    interval_cases a <;> simp [newIpRaw, read_put2]
  · simp only [newIpRaw, List.foldl_cons, List.foldl_nil, read_write, read_put2, Nat.reduceAdd]
    repeat rw [if_neg (by omega)]

theorem ipHeaderRead_newIpRaw (src dst : BitVec 32) (ident : Half) (tl : Nat) (m : Memory) :
    IpHeaderRead (newIpRaw src dst ident tl m) := by
  refine ⟨fun k hk => ?_, fun k hk => ?_, fun k hk => ?_⟩
  · rw [read_newIpRaw]; interval_cases k <;> simp
  · rw [read_newIpRaw]; interval_cases k; simp
  · rw [read_newIpRaw]; interval_cases k <;> simp

theorem newIpHeaderForTcp_ok {s : State} {m : Memory} {id : Identity} {tl : Nat} {dip : BitVec 32} (hs : Roomy s) :
    newIpHeaderForTcp id tl dip (s.setFb m) = .ok (s.bumpIpid.setFb (newIpMem id.ip dip s.ipid tl m)) := by
  have hb : Roomy s.bumpIpid := hs
  rw [newIpMem, ← fillIpChecksum_ok hb (ipHeaderRead_newIpRaw _ _ _ _ _)]
  simp [newIpHeaderForTcp, newIpRaw, fbWrite_low, memWrite_low, hs]

/-- What `newIpHeaderForTcp` leaves outside the checksum field: DF and TTL 64, not the zero flags and 128 it writes
first (R196, R197). -/
theorem read_newIpMem (src dst : BitVec 32) (ident : Half) (tl : Nat) (m : Memory) (a : Nat) (h24 : a ≠ 24)
    (h25 : a ≠ 25) : (newIpMem src dst ident tl m).read a =
      if a = 14 then some 0x45 else if a = 15 then some 0x00 else if a = 16 then some (BitVec.ofNat 8 (tl >>> 8))
      else if a = 17 then some (BitVec.ofNat 8 tl) else if a = 18 then some (BitVec.ofNat 8 (ident.toNat >>> 8))
      else if a = 19 then some (BitVec.ofNat 8 ident.toNat) else if a = 20 then some 0x40 else if a = 21 then some 0x00
      else if a = 22 then some 64 else if a = 23 then some 6
      else if 26 ≤ a ∧ a < 30 then some (ipByte src (a - 26)) else if 30 ≤ a ∧ a < 34 then some (ipByte dst (a - 30))
      else m.read a := by
  rw [newIpMem, read_fillIpMem a h24 h25, read_newIpRaw]
  by_cases ha : 14 ≤ a ∧ a < 34
  · obtain ⟨ha1, ha2⟩ := ha
    interval_cases a <;> simp
  · repeat rw [if_neg (by omega)]

theorem csumField_newIpMem (src dst : BitVec 32) (ident : Half) (tl : Nat) (m : Memory) :
    CsumField (newIpMem src dst ident tl m) 0 14 20 24 := csumField_fillIpMem _

end Sys2Proof.Laws
end

