-- ==== Sys2Proof/Laws/Helpers.lean ====
section
/-! SUPPORT. The effect of each helper the commands call, as `Does` of Laws/Effects.lean says it. -/

namespace Sys2Proof.Laws

open Sys2Proof.Machine Sys2Proof.Safety

/-- The effect of an operation on FB alone. -/
def Fx.onFb (r w : Nat → Prop) : Fx := { Fx.none with reads := r, writes := w }

/-- The last inclusions of a law about a helper: unfold the effects, then arithmetic. -/
theorem Does.onFb {p : Config.Params} {x : Fx} {r w : Nat → Prop} {f : State → Except Err State} (h : Does p x f)
    (hr : ∀ a, r a → x.reads a) (hw : ∀ a, x.writes a → w a) (hi : x.ipid = 0) (hn : x.isn = 0) :
    Does p (Fx.onFb r w) f := h.weaken hr hw (fun _ h => h.elim) hi hn

@[simp] theorem onFb_reads (r w : Nat → Prop) : (Fx.onFb r w).reads = r := rfl
@[simp] theorem onFb_writes (r w : Nat → Prop) : (Fx.onFb r w).writes = w := rfl
@[simp] theorem onFb_pbReads (r w : Nat → Prop) : (Fx.onFb r w).pbReads = fun _ => False := rfl
@[simp] theorem onFb_ipid (r w : Nat → Prop) : (Fx.onFb r w).ipid = 0 := rfl
@[simp] theorem onFb_isn (r w : Nat → Prop) : (Fx.onFb r w).isn = 0 := rfl

variable {p : Config.Params}

/-- A loop over six bytes that writes the two Ethernet addresses. -/
theorem does_ethLoop (hp : 64 ≤ p.bufSize) (v w : Nat → Byte) :
    Does p (Fx.onFb (fun _ => False) fun a => a < 12) (forEach (fun i s => do
      let s ← s.fbWrite (ethDst + i) (v i)
      s.fbWrite (ethSrc + i) (w i)) [0, 1, 2, 3, 4, 5]) := by
  refine Does.onFb (Does.forEach (fx := fun i => (Fx.write i (i + 1)).seq (Fx.write (6 + i) (6 + i + 1)))
    fun i hi => ?_) (fun a ha => ha.elim) (fun a ha => ?_) rfl rfl
  · have hi : i < 6 := by simp at hi; omega
    refine Does.bind ?_ (Does.fbWrite (by omega))
    simpa using Does.fbWrite (p := p) (i := i) (v := fun _ => v i) (by omega)
  · simp [Fx.all, Fx.seq, Fx.write, Fx.none] at ha; omega

theorem does_swapEthernet (hp : 64 ≤ p.bufSize) (id : Identity) :
    Does p (Fx.onFb (fun a => 6 ≤ a ∧ a < 12) fun a => a < 12) (swapEthernet id) := by
  refine Does.onFb (Does.forEach
    (fx := fun i => (Fx.read (6 + i)).seq ((Fx.write i (i + 1)).seq (Fx.write (6 + i) (6 + i + 1)))) fun i hi => ?_)
    (fun a ha => ?_) (fun a ha => ?_) rfl rfl
  · have hi : i < 6 := by simp at hi; omega
    refine Does.ask (Asks.fbRead (by omega)) rfl rfl fun b => Does.bind ?_ (Does.fbWrite (by omega))
    simpa using Does.fbWrite (p := p) (i := i) (v := fun _ => b) (by omega)
  · simp [Fx.all, Fx.seq, Fx.read, Fx.write, Fx.none]; omega
  · simp [Fx.all, Fx.seq, Fx.read, Fx.write, Fx.none] at ha; omega

theorem does_fillIpChecksum (hp : 64 ≤ p.bufSize) :
    Does p (Fx.onFb (fun a => (14 ≤ a ∧ a < 20) ∨ a = 23 ∨ (26 ≤ a ∧ a < 34))
      fun a => (20 ≤ a ∧ a < 23) ∨ (24 ≤ a ∧ a < 26)) fillIpChecksum := by
  refine Does.onFb (Does.bind (Does.memWrite (v := fun _ => 0) (by simp; omega))
    (Does.bind (Does.fbWrite (v := fun _ => 0x40) (by simp; omega))
    (Does.bind (Does.fbWrite (v := fun _ => 0x00) (by simp; omega))
    (Does.bind (Does.fbWrite (v := fun _ => 64) (by simp; omega))
    (Does.ask (Asks.inetChecksum (by simp; omega)) rfl rfl fun c =>
      Does.memWrite (v := fun _ => c.toNat) (by simp; omega))))))
    (fun a ha => ?_) (fun a ha => ?_) rfl rfl
  · simp [Fx.seq, Fx.range, Fx.write, Fx.none]; omega
  · simp [Fx.seq, Fx.range, Fx.write, Fx.none] at ha; omega

theorem does_swapIp (hp : 64 ≤ p.bufSize) (id : Identity) :
    Does p (Fx.onFb (fun a => (14 ≤ a ∧ a < 20) ∨ a = 23 ∨ (26 ≤ a ∧ a < 30))
      fun a => (20 ≤ a ∧ a < 23) ∨ (24 ≤ a ∧ a < 34)) (swapIp id) := by
  refine Does.onFb (Does.bind (Does.forEach
    (fx := fun i => (Fx.read (26 + i)).seq ((Fx.write (30 + i) (30 + i + 1)).seq (Fx.write (26 + i) (26 + i + 1))))
    fun i hi => ?_) (does_fillIpChecksum hp)) (fun a ha => ?_) (fun a ha => ?_) rfl rfl
  · have hi : i < 4 := by simp at hi; omega
    exact Does.ask (Asks.fbRead (by omega)) rfl rfl fun b =>
      Does.bind (Does.fbWrite (v := fun _ => b) (by omega)) (Does.fbWrite (by omega))
  · simp [Fx.all, Fx.seq, Fx.read, Fx.write, Fx.none, Fx.onFb]; omega
  · simp [Fx.all, Fx.seq, Fx.read, Fx.write, Fx.none, Fx.onFb] at ha; omega

theorem does_newIpHeaderForTcp (hp : 64 ≤ p.bufSize) (id : Identity) (tl : Nat) (dip : BitVec 32) :
    Does p { Fx.onFb (fun _ => False) (fun a => 14 ≤ a ∧ a < 34) with ipid := 1 } (newIpHeaderForTcp id tl dip) := by
  refine Does.weaken (Does.bind (Does.fbWrite (v := fun _ => 0x45) (by simp; omega))
    (Does.bind (Does.fbWrite (v := fun _ => 0x00) (by simp; omega))
    (Does.bind (Does.memWrite (v := fun _ => tl) (by simp; omega))
    (Does.bind (Does.memWrite (v := fun s => s.ipid.toNat) (by simp; omega))
    (Does.bind (f := fun s => s.bumpIpid.fbWrite ipFrag 0x00)
      (Does.bind Does.bumpIpid (Does.fbWrite (v := fun _ => 0x00) (by simp; omega)))
    (Does.bind (Does.fbWrite (v := fun _ => 0x00) (by simp; omega))
    (Does.bind (Does.fbWrite (v := fun _ => 128) (by simp; omega))
    (Does.bind (Does.fbWrite (v := fun _ => BitVec.ofNat 8 protoTcp) (by simp; omega))
    (Does.bind (Does.forEach (fx := fun i => (Fx.write (26 + i) (26 + i + 1)).seq (Fx.write (30 + i) (30 + i + 1)))
      fun i hi => ?_) (does_fillIpChecksum hp))))))))))
    (fun a ha => ?_) (fun a ha => ?_) (fun _ h => h.elim) rfl rfl
  · have hi : i < 4 := by simp at hi; omega
    exact Does.bind (Does.fbWrite (by omega)) (Does.fbWrite (by omega))
  · exact ha.elim
  · simp [Fx.all, Fx.seq, Fx.write, Fx.none, Fx.onFb] at ha ⊢
    omega

/-- `Send(n)` reads FB[0..n-1]; then one event carries them. -/
theorem send_eq_ok {s t : State} {n : Nat} (h : s.send n = .ok t) :
    ∃ bytes, t = { s with tx := s.tx ++ [⟨n, bytes⟩] } ∧ IsFrame s.fb n bytes ∧ n ≤ s.params.bufSize := by
  obtain ⟨bytes, hb, h⟩ := bind_eq_ok h
  cases h
  obtain ⟨hlen, hrd⟩ := fbBytes_eq_ok hb
  refine ⟨bytes, rfl, ⟨hlen, fun k hk => by simpa using (hrd k hk).2⟩, ?_⟩
  rcases Nat.eq_zero_or_pos n with rfl | hn
  · omega
  · have := (hrd (n - 1) (by omega)).1; omega

theorem send_eq_error {s : State} {n : Nat} {e : Err} (hn : n ≤ s.params.bufSize) (h : s.send n = .error e) :
    e = .undef := by
  cases hb : s.fbBytes 0 n with
  | error e' =>
    have := ((Asks.fbBytes (p := s.params) (a := 0) (n := n) (by omega)) s rfl).2 e' hb
    simp [State.send, hb] at h
    rw [← h, this]
  | ok bytes => simp [State.send, hb] at h

/-! ## TCP, ICMP, UDP -/

theorem does_ackLoop (hp : 64 ≤ p.bufSize) (copySeq : Bool) {l : List Nat} (hl : ∀ i ∈ l, i < 4) (carry : Nat) :
    Does p (Fx.all (fun i => (Fx.read (38 + i)).seq ((Fx.read (42 + i)).seq
      ((Fx.write (42 + i) (42 + i + 1)).seq (Fx.write (38 + i) (38 + i + 1))))) l) (ackLoop copySeq l carry) := by
  induction l generalizing carry with
  | nil => exact Does.pure
  | cons i is ih =>
    have hi := hl i (by simp)
    have ih := fun c => ih (fun j hj => hl j (by simp [hj])) c
    have h : Does p _ (ackLoop copySeq (i :: is) carry) :=
      Does.ask (Asks.fbRead (i := 38 + i) (by omega)) rfl rfl fun q =>
      Does.ask (Asks.fbRead (i := 42 + i) (by omega)) rfl rfl fun old =>
      Does.bind (Does.fbWrite (v := fun _ => BitVec.ofNat 8 (q.toNat + carry)) (by simp; omega))
      (Does.bind (Does.fbWrite (v := fun _ => if copySeq then old else 0x00) (by simp; omega)) (ih _))
    refine h.weaken (fun a ha => ?_) (fun a ha => ?_) (fun a ha => ?_) ?_ ?_
    · simp [Fx.all, Fx.seq, Fx.read, Fx.write, Fx.none] at ha ⊢; tauto
    · simp [Fx.all, Fx.seq, Fx.read, Fx.write, Fx.none] at ha ⊢; tauto
    · simp [Fx.all, Fx.seq, Fx.read, Fx.write, Fx.none] at ha ⊢; tauto
    · simp [Fx.all, Fx.seq, Fx.read, Fx.write, Fx.none]
    · simp [Fx.all, Fx.seq, Fx.read, Fx.write, Fx.none]

/-- The loop over all four bytes. -/
theorem does_ackLoop_all (hp : 64 ≤ p.bufSize) (copySeq : Bool) (rel : Nat) :
    Does p (Fx.onFb (fun a => 38 ≤ a ∧ a < 46) fun a => 38 ≤ a ∧ a < 46) (ackLoop copySeq [3, 2, 1, 0] rel) := by
  refine (does_ackLoop hp copySeq (by decide) rel).onFb (fun a ha => ?_) (fun a ha => ?_) rfl rfl
  · simp [Fx.all, Fx.seq, Fx.read, Fx.write, Fx.none]; omega
  · simp [Fx.all, Fx.seq, Fx.read, Fx.write, Fx.none] at ha; omega

theorem does_freshSeq (hp : 64 ≤ p.bufSize) :
    Does p { Fx.onFb (fun _ => False) (fun a => 38 ≤ a ∧ a < 42) with isn := 1 } freshSeq := by
  refine Does.weaken (Does.bind (Does.fbWriteBytes (bs := fun s => [0x00, 0x00, s.isn, 0x00]) (n := 4) (fun _ => rfl)
    (by simp; omega)) Does.bumpIsn) (fun a ha => ?_) (fun a ha => ?_) (fun _ h => h.elim) rfl rfl
  · exact ha.elim
  · simp [Fx.seq, Fx.write, Fx.none, Fx.onFb] at ha ⊢; omega

/-- How often `buildTcpHeader` moves ISN on. -/
def isnSteps (copySeq : Bool) : Nat := if copySeq then 0 else 1

theorem does_buildTcpHeader (hp : 64 ≤ p.bufSize) (rel : Nat) (mss copySeq : Bool) :
    Does p { Fx.onFb (fun a => 34 ≤ a ∧ a < 46) (fun a => (34 ≤ a ∧ a < 47) ∨ a = 50 ∨ a = 51 ∨
      (mss = true ∧ 54 ≤ a ∧ a < 58)) with isn := isnSteps copySeq } (buildTcpHeader rel mss copySeq) := by
  have hseq : Does p { Fx.onFb (fun _ => False) (fun a => 38 ≤ a ∧ a < 42) with isn := isnSteps copySeq }
      (seqStep copySeq) := by
    cases copySeq
    · exact does_freshSeq hp
    · exact Does.pure.weaken (fun _ h => h.elim) (fun _ h => h.elim) (fun _ h => h.elim) rfl rfl
  have hopt : Does p (Fx.onFb (fun _ => False) fun a => mss = true ∧ 54 ≤ a ∧ a < 58) (mssStep mss) := by
    cases mss
    · exact Does.pure.weaken (fun _ h => h.elim) (fun _ h => h.elim) (fun _ h => h.elim) rfl rfl
    · exact (Does.fbWriteBytes (a := 54) (bs := fun _ => mssOption) (n := 4) (fun _ => rfl) (by omega)).weaken
        (fun _ h => h.elim) (fun a ha => ⟨rfl, ha⟩) (fun _ h => h.elim) rfl rfl
  refine Does.weaken (Does.ask (Asks.memRead (a := 34) (n := 2) (by omega)) rfl rfl fun p0 =>
    Does.ask (Asks.memRead (a := 36) (n := 2) (by omega)) rfl rfl fun p1 =>
    Does.bind (Does.memWrite (a := 34) (n := 2) (v := fun _ => p1) (by omega))
    (Does.bind (Does.memWrite (a := 36) (n := 2) (v := fun _ => p0) (by omega))
    (Does.bind (does_ackLoop_all hp copySeq rel)
    (Does.bind hseq
    (Does.bind (Does.memWrite (a := 50) (n := 2) (v := fun _ => 0) (by omega))
    (Does.bind (Does.fbWrite (i := 46) (v := fun _ => if mss then hlen24 else hlen20) (by omega)) hopt))))))
    (fun a ha => ?_) (fun a ha => ?_) (fun _ h => h.elim) ?_ ?_
  · simp [Fx.seq, Fx.write, Fx.range, Fx.none, Fx.onFb] at ha ⊢; omega
  · cases mss <;> simp [Fx.seq, Fx.write, Fx.range, Fx.none, Fx.onFb] at ha ⊢ <;> omega
  · simp [Fx.seq, Fx.write, Fx.range, Fx.none, Fx.onFb]
  · simp [Fx.seq, Fx.write, Fx.range, Fx.none, Fx.onFb]

theorem does_fillTcpChecksum (hp : 64 ≤ p.bufSize) {n : Nat} (hn : 26 + n ≤ p.bufSize) :
    Does p (Fx.onFb (fun a => 26 ≤ a ∧ a < 26 + n) fun a => a = 50 ∨ a = 51) (fillTcpChecksum n) := by
  refine Does.onFb (Does.ask (Asks.inetChecksum (a := 26) (n := n) (by omega)) rfl rfl fun c =>
    Does.memWrite (v := fun _ => c.toNat) (by simp; omega)) (fun a ha => ?_) (fun a ha => ?_) rfl rfl
  · simp [Fx.seq, Fx.range, Fx.write, Fx.none] at ha ⊢; omega
  · simp [Fx.seq, Fx.range, Fx.write, Fx.none] at ha; omega

theorem does_copyPayload {dst n : Nat} (hb : dst + n ≤ p.bufSize) (hn : n ≤ p.pbSize) :
    Does p { Fx.onFb (fun _ => False) (fun a => dst ≤ a ∧ a < dst + n) with pbReads := fun a => a < n }
      (copyPayload dst n) := by
  have h : Does p _ (copyPayload dst n) := Does.forEach
    (fx := fun i => (Fx.pbRead i).seq (Fx.write (dst + i) (dst + i + 1))) fun i hi => by
      have hi : i < n := List.mem_range.mp hi
      exact Does.ask (Asks.pbRead (by omega)) rfl rfl fun b => Does.fbWrite (by omega)
  have key : ∀ l : List Nat,
      (∀ a, (Fx.all (fun i => (Fx.pbRead i).seq (Fx.write (dst + i) (dst + i + 1))) l).writes a →
        ∃ i ∈ l, a = dst + i) ∧
      (∀ i ∈ l, (Fx.all (fun i => (Fx.pbRead i).seq (Fx.write (dst + i) (dst + i + 1))) l).pbReads i) ∧
      (Fx.all (fun i => (Fx.pbRead i).seq (Fx.write (dst + i) (dst + i + 1))) l).ipid = 0 ∧
      (Fx.all (fun i => (Fx.pbRead i).seq (Fx.write (dst + i) (dst + i + 1))) l).isn = 0 := by
    intro l
    induction l with
    | nil => simp [Fx.all, Fx.none]
    | cons j js ih =>
      obtain ⟨h1, h2, h3, h4⟩ := ih
      refine ⟨fun a ha => ?_, fun i hi => ?_, ?_, ?_⟩
      · rcases ha with (ha | ha) | ha
        · exact ha.elim
        · exact ⟨j, by simp, by simp only [Fx.write] at ha; omega⟩
        · obtain ⟨i, hi, rfl⟩ := h1 a ha
          exact ⟨i, by simp [hi], rfl⟩
      · rcases List.mem_cons.mp hi with rfl | hi
        · exact Or.inl (Or.inl rfl)
        · exact Or.inr (h2 i hi)
      · simpa [Fx.all, Fx.seq, Fx.pbRead, Fx.write, Fx.none] using h3
      · simpa [Fx.all, Fx.seq, Fx.pbRead, Fx.write, Fx.none] using h4
  obtain ⟨h1, h2, h3, h4⟩ := key (List.range n)
  refine h.weaken (fun _ h => h.elim) (fun a ha => ?_) (fun a ha => h2 a (List.mem_range.mpr ha)) h3 h4
  obtain ⟨i, hi, rfl⟩ := h1 a ha
  have := List.mem_range.mp hi
  simp [Fx.onFb]; omega

theorem does_icmpCsumUpdate (hp : 64 ≤ p.bufSize) :
    Does p (Fx.onFb (fun a => a = 36) fun a => a = 36 ∨ a = 37) icmpCsumUpdate := by
  have hcarry : Does p (Fx.onFb (fun a => a = 36) fun a => a = 37) icmpCarry := by
    refine (Does.ask (y := Fx.write 37 38) (Asks.fbRead (i := 36) (by omega)) rfl rfl fun b =>
      Does.ite (fun _ => ?_) fun _ => ?_).onFb (fun a ha => Or.inl ha) (fun a ha => ?_) rfl rfl
    · exact (Does.ask (Asks.fbRead (i := 37) (by omega)) rfl rfl fun c =>
        Does.fbWrite (i := 37) (v := fun _ => c + 1) (by omega)).weaken (fun _ h => h.elim)
        (fun a ha => by simpa [Fx.seq, Fx.read, Fx.write, Fx.none] using ha) (fun _ h => h.elim) rfl rfl
    · exact Does.pure.weaken (fun _ h => h.elim) (fun _ h => h.elim) (fun _ h => h.elim) rfl rfl
    · simp [Fx.seq, Fx.read, Fx.write, Fx.none] at ha; omega
  refine (Does.bind hcarry (Does.ask (Asks.fbRead (i := 36) (by omega)) rfl rfl fun b =>
    Does.fbWrite (i := 36) (v := fun _ => b + 8) (by omega))).onFb (fun a ha => Or.inl ha) (fun a ha => ?_) rfl rfl
  simp [Fx.seq, Fx.read, Fx.write, Fx.none, Fx.onFb] at ha; omega

theorem asks_inboundInfo (hp : 64 ≤ p.bufSize) :
    Asks p (Fx.onFb (fun a => a = 16 ∨ a = 17 ∨ a = 46) fun _ => False) inboundInfo := by
  refine Asks.weaken (Asks.bind (Asks.memRead (a := 16) (n := 2) (by omega)) fun t =>
    Asks.bind (Asks.fbRead (i := 46) (by omega)) fun b => Asks.pure) (fun a ha => ?_) fun _ h => h.elim
  simp [Fx.seq, Fx.range, Fx.read, Fx.none, Fx.onFb] at ha ⊢; omega

theorem asks_inboundFin (hp : 64 ≤ p.bufSize) :
    Asks p (Fx.onFb (fun a => a = 47 ∧ p.ackFin = .echoFin) fun _ => False) inboundFin := by
  intro s hs
  subst hs
  cases hf : s.params.ackFin
  · refine ⟨fun v _ => ⟨fun a ha => ?_, fun _ h => h.elim⟩, fun e h => ?_⟩
    · have := ha.2; cases this
    · simp [inboundFin, hf] at h
  · have h := (Asks.bind (Asks.fbRead (p := s.params) (i := 47) (by omega)) fun b =>
      Asks.pure (v := b &&& flagFin == 0x01)) s rfl
    have he : inboundFin s = (s.fbRead 47 >>= fun b => .ok (b &&& flagFin == 0x01)) := by
      simp [inboundFin, hf]
    rw [he]
    exact ⟨fun v hv => ⟨fun a ha => (h.1 v hv).1 a (Or.inl ha.1), fun _ h => h.elim⟩, h.2⟩

/-- The body TCP_ACK_WITH_DATA and TCP_RESPOND_DATA share, up to `Send`. -/
def ackWithDataFrame (n : Nat) (s : State) : Except Err State := do
  let s ← s.fbWrite tcpFlags flagsAckPshFin
  let s ← s.memWrite ipTotalLen 2 (20 + 20 + n)
  let s ← fillIpChecksum s
  let s ← s.memWrite tcpCsum 2 0x0000
  fillTcpChecksum (8 + 20 + n) s

theorem ackWithData_eq (n : Nat) (s : State) :
    ackWithData n s = ackWithDataFrame n s >>= fun t => t.send (20 + 20 + n + 14) := by
  simp [ackWithData, ackWithDataFrame]

theorem does_ackWithDataFrame (hp : 64 ≤ p.bufSize) {n : Nat} (hn : 54 + n ≤ p.bufSize) :
    Does p (Fx.onFb (fun a => (14 ≤ a ∧ a < 16) ∨ (18 ≤ a ∧ a < 20) ∨ a = 23 ∨ (26 ≤ a ∧ a < 47) ∨
        (48 ≤ a ∧ a < 50) ∨ (52 ≤ a ∧ a < 54 + n))
      fun a => (16 ≤ a ∧ a < 18) ∨ (20 ≤ a ∧ a < 23) ∨ (24 ≤ a ∧ a < 26) ∨ a = 47 ∨ a = 50 ∨ a = 51)
      (ackWithDataFrame n) := by
  refine Does.onFb (Does.bind (Does.fbWrite (v := fun _ => flagsAckPshFin) (by simp; omega))
    (Does.bind (Does.memWrite (v := fun _ => 20 + 20 + n) (by simp; omega))
    (Does.bind (does_fillIpChecksum hp)
    (Does.bind (Does.memWrite (v := fun _ => 0) (by simp; omega))
    (does_fillTcpChecksum hp (by omega)))))) (fun a ha => ?_) (fun a ha => ?_) rfl rfl
  · simp [Fx.seq, Fx.write, Fx.none, Fx.onFb] at ha ⊢; omega
  · simp [Fx.seq, Fx.write, Fx.none, Fx.onFb] at ha; omega

end Sys2Proof.Laws
end

