-- ==== Sys2Proof/Laws/Commands.lean ====
section
/-! SUPPORT. What a command can do, said once for all commands: `exec_cases`. Either an error that applies up front is
latched, or UNDEF is, or the command has run and `Done` says what it may have changed. -/

namespace Sys2Proof.Laws

open Sys2Proof.Machine Sys2Proof.Safety

/-- The commands that build a new IP header, which move IPID on (R35). -/
def bumpsIpid : Instr → Bool
  | .newIpHdrTcp _ | .tcpClient _ _ _ => true
  | .initAddr | .checksum _ _ | .isArpForMe _ | .isIpForMe _ | .classify _ | .swapEth | .swapIp | .fillIpCsum
  | .arpReply | .arpRequest | .isArpReplyForMe | .echoReply _ | .udpReply _ | .buildTcpHdr _ _ | .tcpSynack
  | .tcpAckFromAny | .tcpAckWithData _ | .tcpRespondData _ | .inboundInfo | .getDataOffset | .getDataLen => false

/-- The commands that take a fresh sequence number, which move ISN on (R36). -/
def bumpsIsn : Instr → Bool
  | .buildTcpHdr _ c => !c
  | .tcpSynack => true
  | .initAddr | .checksum _ _ | .isArpForMe _ | .isIpForMe _ | .classify _ | .swapEth | .swapIp | .fillIpCsum
  | .newIpHdrTcp _ | .arpReply | .arpRequest | .isArpReplyForMe | .echoReply _ | .udpReply _
  | .tcpAckFromAny | .tcpAckWithData _ | .tcpRespondData _ | .tcpClient _ _ _ | .inboundInfo | .getDataOffset
  | .getDataLen => false

/-- What may have changed when a command has run without an error. -/
structure Done (i : Instr) (s t : State) : Prop where
  eq : t = { s with
    fb := t.fb, ipid := t.ipid, isn := t.isn, tx := t.tx, result := t.result, infoDlen := t.infoDlen,
    infoHlen := t.infoHlen, identity := t.identity, ackBuilt := decide (i = .tcpAckFromAny) }
  fb : writesFb i = false → t.fb = s.fb
  grows : ∀ a, (s.fb.read a).isSome = true → (t.fb.read a).isSome = true
  wf : s.fb.wf = true → t.fb.wf = true
  below : s.fb.below s.params.bufSize = true → t.fb.below s.params.bufSize = true
  ipid : t.ipid = if bumpsIpid i then s.ipid + 1 else s.ipid
  isn : t.isn = if bumpsIsn i then s.isn + 2 else s.isn
  tx : if sends i then ∃ f, t.tx = s.tx ++ [f] ∧ f.len ≤ s.params.bufSize ∧ IsFrame t.fb f.len f.bytes
    else t.tx = s.tx
  result : if isQuery i then t.result.isSome = true else t.result = s.result
  info : if i = .inboundInfo then ∃ d h, t.infoDlen = some d ∧ t.infoHlen = some h ∧ h.toNat % 4 = 0 ∧ h.toNat ≤ 60
    else t.infoDlen = s.infoDlen ∧ t.infoHlen = s.infoHlen
  identity : if i = .initAddr then s.identity = none ∧ t.identity.isSome = true else t.identity = s.identity
  bare : i = .tcpAckFromAny → s.identity.isSome = true ∧ Defined t.fb 0 54

/-- The state a command without an error leaves. -/
def ended (i : Instr) (t : State) : State := { t with ackBuilt := decide (i = .tcpAckFromAny) }

/-- A command whose body is an operation on FB and the counters. -/
theorem done_of_moved {i : Instr} {fx : Fx} {s t : State} (hm : Moved fx s t) (hf : writesFb i = true)
    (hs : sends i = false) (hq : isQuery i = false) (hi : fx.ipid = if bumpsIpid i then 1 else 0)
    (hn : fx.isn = if bumpsIsn i then 1 else 0) : Done i s (ended i t) := by
  have he := hm.eq
  refine ⟨?_, fun h => by simp [hf] at h, hm.grows, hm.wf, hm.below, ?_, ?_, ?_, ?_, ?_, ?_, ?_⟩
  · rw [ended, he]
  · simp only [ended]; rw [he, hi]; cases bumpsIpid i <;> simp
  · simp only [ended]; rw [he, hn]; cases bumpsIsn i <;> simp
  · rw [hs]; simp only [ended]; rw [he]; simp
  · rw [hq]; simp only [ended]; rw [he]; simp
  · rw [if_neg (by rintro rfl; simp [writesFb] at hf)]; simp only [ended]; rw [he]; simp
  · rw [if_neg (by rintro rfl; simp [writesFb] at hf)]; simp only [ended]; rw [he]
  · rintro rfl; simp [sends] at hs

/-- A command whose body is such an operation followed by `Send`. -/
theorem done_of_sent {i : Instr} {fx : Fx} {s u t : State} {n : Nat} (hm : Moved fx s u) (h : u.send n = .ok t)
    (hf : writesFb i = true) (hs : sends i = true) (hq : isQuery i = false)
    (hi : fx.ipid = if bumpsIpid i then 1 else 0) (hn : fx.isn = if bumpsIsn i then 1 else 0)
    (hb : i = .tcpAckFromAny → s.identity.isSome = true ∧ n = 54) : Done i s (ended i t) := by
  obtain ⟨bytes, rfl, hfr, hlen⟩ := send_eq_ok h
  have he := hm.eq
  have htx : u.tx = s.tx := by rw [he]
  rw [hm.params] at hlen
  refine ⟨?_, fun h => by simp [hf] at h, hm.grows, hm.wf, hm.below, ?_, ?_, ?_, ?_, ?_, ?_, ?_⟩
  · simp only [ended]; rw [he]
  · simp only [ended]; rw [he, hi]; cases bumpsIpid i <;> simp
  · simp only [ended]; rw [he, hn]; cases bumpsIsn i <;> simp
  · rw [hs, if_pos rfl]; exact ⟨⟨n, bytes⟩, by simp [ended, htx], hlen, hfr⟩
  · rw [hq]; simp only [ended]; rw [he]; simp
  · rw [if_neg (by rintro rfl; simp [writesFb] at hf)]; simp only [ended]; rw [he]; simp
  · rw [if_neg (by rintro rfl; simp [writesFb] at hf)]; simp only [ended]; rw [he]
  · intro hi'
    obtain ⟨h1, rfl⟩ := hb hi'
    refine ⟨h1, fun k hk => ?_⟩
    simp only [ended, Nat.zero_add, hfr.2 k hk]
    simp [hfr.1, hk]

/-- A query writes RESULT. -/
theorem done_of_result {i : Instr} {s : State} {v : Half} (hf : writesFb i = false) (hq : isQuery i = true) :
    Done i s (ended i (s.setResult v)) := by
  have h1 : sends i = false := by cases i <;> simp_all [sends, writesFb]
  have h2 : bumpsIpid i = false := by cases i <;> simp_all [bumpsIpid, writesFb]
  have h3 : bumpsIsn i = false := by cases i <;> simp_all [bumpsIsn, writesFb]
  refine ⟨rfl, fun _ => rfl, fun _ h => h, fun h => h, fun h => h, ?_, ?_, ?_, ?_, ?_, ?_, ?_⟩
  · rw [h2]; rfl
  · rw [h3]; rfl
  · rw [h1]; rfl
  · rw [hq]; rfl
  · rw [if_neg (by rintro rfl; simp [isQuery] at hq)]; exact ⟨rfl, rfl⟩
  · rw [if_neg (by rintro rfl; simp [isQuery] at hq)]; rfl
  · rintro rfl; simp [isQuery] at hq

theorem finish_ok {i : Instr} {s t : State} {r : Except Err State} (h : r = .ok t) :
    finish i s r = .next (ended i t) := by subst h; rfl

theorem finish_error {i : Instr} {s : State} {r : Except Err State} {e : Err} (h : r = .error e) :
    finish i s r = .next (latched s e.code (encode i)) := by subst h; rfl

/-- What a command does once no error applies up front. -/
def RunsOrUndef (i : Instr) (s : State) (r : Except Err State) : Prop :=
  r = .error .undef ∨ ∃ t, r = .ok t ∧ Done i s (ended i t) ∧ Readable s i

/-- What `exec_cases` says of a command. -/
def Cases (i : Instr) (s : State) (r : Except Err State) : Prop :=
  match upFrontError s i with
  | some c => ∃ e, r = .error e ∧ e.code = c
  | none => RunsOrUndef i s r

theorem runsOrUndef_moved {i : Instr} {fx : Fx} {f : State → Except Err State} {s : State} (h : Does s.params fx f)
    (hf : writesFb i = true) (hs : sends i = false) (hq : isQuery i = false)
    (hi : fx.ipid = if bumpsIpid i then 1 else 0) (hn : fx.isn = if bumpsIsn i then 1 else 0)
    (hr : ∀ a, readsFb s i a = true → fx.reads a) (hp : ∀ a, readsPb i a = true → fx.pbReads a) :
    RunsOrUndef i s (f s) := by
  cases hres : f s with
  | error e => exact .inl (by rw [(h s rfl).2 e hres])
  | ok t =>
    obtain ⟨hm, hrd⟩ := (h s rfl).1 t hres
    exact .inr ⟨t, rfl, done_of_moved hm hf hs hq hi hn, fun a ha => hrd.1 a (hr a ha), fun a ha => hrd.2 a (hp a ha)⟩

theorem runsOrUndef_sent {i : Instr} {fx : Fx} {f : State → Except Err State} {s : State} {n : Nat}
    (h : Does s.params fx f) (hlen : n ≤ s.params.bufSize) (hf : writesFb i = true) (hs : sends i = true)
    (hq : isQuery i = false) (hi : fx.ipid = if bumpsIpid i then 1 else 0) (hn : fx.isn = if bumpsIsn i then 1 else 0)
    (hb : i = .tcpAckFromAny → s.identity.isSome = true ∧ n = 54)
    (hr : ∀ a, readsFb s i a = true → (s.fb.read a).isSome = true ∨ fx.reads a ∨ (a < n ∧ ¬ fx.writes a))
    (hp : ∀ a, readsPb i a = true → fx.pbReads a) : RunsOrUndef i s (f s >>= fun t => t.send n) := by
  cases hres : f s with
  | error e => exact .inl (by rw [(h s rfl).2 e hres]; rfl)
  | ok u =>
    obtain ⟨hm, hrd⟩ := (h s rfl).1 u hres
    simp only [bind_ok]
    cases hsend : u.send n with
    | error e => exact .inl (by rw [send_eq_error (by rw [hm.params]; exact hlen) hsend])
    | ok t =>
      refine .inr ⟨t, rfl, done_of_sent hm hsend hf hs hq hi hn hb, fun a ha => ?_, fun a ha => hrd.2 a (hp a ha)⟩
      rcases hr a ha with h | h | ⟨h, hw⟩
      · exact h
      · exact hrd.1 a h
      · obtain ⟨bytes, -, hfr, -⟩ := send_eq_ok hsend
        rw [← hm.keeps a hw, hfr.2 a h]
        simp [hfr.1, h]

theorem runsOrUndef_result {i : Instr} {s : State} {r : Except Err Half} (hf : writesFb i = false)
    (hq : isQuery i = true) (he : ∀ e, r = .error e → e = .undef) (hr : ∀ v, r = .ok v → Readable s i) :
    RunsOrUndef i s (r >>= fun v => .ok (s.setResult v)) := by
  cases r with
  | error e => exact .inl (by rw [he e rfl]; rfl)
  | ok v => exact .inr ⟨s.setResult v, rfl, done_of_result hf hq, hr v rfl⟩

end Sys2Proof.Laws
end

