-- ==== Sys2Proof/Laws/Exec.lean ====
section
/-! SUPPORT. Each command meets `Cases` of Laws/Commands.lean, and `exec_cases`, the one law about `exec` that the
laws about a step cite. -/

namespace Sys2Proof.Laws

open Sys2Proof.Machine Sys2Proof.Safety

variable {s : State}

theorem within_iff {lo hi a : Nat} : within lo hi a = true ↔ lo ≤ a ∧ a < hi := by simp [within]

/-! ## Reads that succeeded -/

theorem memRead_eq_ok {a n v : Nat} (h : s.memRead a n = .ok v) : Defined s.fb a n ∧ v = beAt s.fb a n := by
  induction n generalizing a v with
  | zero => cases h; exact ⟨fun k hk => absurd hk (by omega), rfl⟩
  | succ n ih =>
    obtain ⟨b, hb, h⟩ := bind_eq_ok h
    obtain ⟨r, hr, h⟩ := bind_eq_ok h
    cases h
    obtain ⟨hd, rfl⟩ := ih hr
    have hb := (fbRead_eq_ok hb).2
    refine ⟨fun k hk => ?_, ?_⟩
    · cases k with
      | zero => simp [hb]
      | succ k => have := hd k (by omega); rwa [show a + 1 + k = a + (k + 1) by omega] at this
    · rw [beAt, byteAt_of_read hb, Nat.shiftLeft_eq, show (256 : Nat) = 2 ^ 8 from rfl, ← Nat.pow_mul]

theorem ipAtIs_eq_ok {a : Nat} {ip : BitVec 32} {b : Bool} (h : ipAtIs s a ip = .ok b) : Defined s.fb a 4 := by
  obtain ⟨bs, hb, -⟩ := bind_eq_ok h
  obtain ⟨hlen, hrd⟩ := fbBytes_eq_ok hb
  intro k hk
  rw [(hrd k hk).2]
  simp [hlen, hk]

theorem isSome_of_defined {m : Memory} {a n b : Nat} (h : Defined m a n) (h1 : a ≤ b) (h2 : b < a + n) :
    (m.read b).isSome = true := by rw [read_of_defined h h1 h2]; rfl

/-! ## The classifier's tests -/

theorem isArpForMe_eq_ok {ip : BitVec 32} {l : Half} {b : Bool} (h : isArpForMe ip l.toNat s = .ok b) :
    ∀ a, arpTestReads s l a = true → (s.fb.read a).isSome = true := by
  intro a ha
  simp only [arpTestReads, Bool.and_eq_true, Bool.or_eq_true, within_iff, decide_eq_true_eq, beq_iff_eq] at ha
  obtain ⟨hl, ha⟩ := ha
  simp only [isArpForMe, if_neg (show ¬ l.toNat < 41 by omega)] at h
  obtain ⟨ty, hty, h⟩ := bind_eq_ok h
  obtain ⟨hd, rfl⟩ := memRead_eq_ok hty
  rcases ha with ⟨h1, h2⟩ | ⟨hty', h1, h2⟩
  · exact isSome_of_defined hd h1 (by simpa using h2)
  · simp only [ethType, typeArp, hty', ne_eq, not_true, if_false] at h
    exact isSome_of_defined (ipAtIs_eq_ok h) h1 (by simpa using h2)

theorem isIpForMe_eq_ok {ip : BitVec 32} {l : Half} {b : Bool} (h : isIpForMe ip l.toNat s = .ok b) :
    ∀ a, ipTestReads s l a = true → (s.fb.read a).isSome = true := by
  intro a ha
  simp only [ipTestReads, Bool.and_eq_true, Bool.or_eq_true, within_iff, decide_eq_true_eq, beq_iff_eq] at ha
  obtain ⟨hl, ha⟩ := ha
  simp only [isIpForMe, if_neg (show ¬ l.toNat < 42 by omega)] at h
  obtain ⟨ty, hty, h⟩ := bind_eq_ok h
  obtain ⟨hd, rfl⟩ := memRead_eq_ok hty
  rcases ha with ⟨h1, h2⟩ | ⟨hty', ha⟩
  · exact isSome_of_defined hd h1 (by simpa using h2)
  · simp only [ethType, typeIpv4, hty', ne_eq, not_true, if_false] at h
    obtain ⟨v, hv, h⟩ := bind_eq_ok h
    have hv := (fbRead_eq_ok hv).2
    rcases ha with rfl | ⟨h45, h1, h2⟩
    · simpa using congrArg Option.isSome hv
    · simp only [ipVerIhl] at hv
      rw [byteAt_of_read hv] at h45
      simp only [verIhl45, h45, not_true, if_false] at h
      exact isSome_of_defined (ipAtIs_eq_ok h) h1 (by simpa using h2)

theorem ipAtIs_error {a : Nat} {ip : BitVec 32} {e : Err} (ha : a + 4 ≤ s.params.bufSize)
    (h : ipAtIs s a ip = .error e) : e = .undef :=
  ((Asks.bind (Asks.fbBytes (p := s.params) ha) fun bs => Asks.pure (v := bs == ipBytes ip)) s rfl).2 e h

theorem memRead_error {a n : Nat} {e : Err} (ha : a + n ≤ s.params.bufSize) (h : s.memRead a n = .error e) :
    e = .undef := ((Asks.memRead (p := s.params) ha) s rfl).2 e h

theorem fbRead_error {a : Nat} {e : Err} (ha : a < s.params.bufSize) (h : s.fbRead a = .error e) :
    e = .undef := ((Asks.fbRead (p := s.params) ha) s rfl).2 e h

theorem bind_eq_error {α β : Type} {x : Except Err α} {f : α → Except Err β} {e : Err} (h : x >>= f = .error e) :
    x = .error e ∨ ∃ a, x = .ok a ∧ f a = .error e := by
  cases x with
  | error e' => exact .inl (by cases h; rfl)
  | ok a => exact .inr ⟨a, rfl, h⟩

theorem isArpForMe_error (hp : 64 ≤ s.params.bufSize) {ip : BitVec 32} {n : Nat} {e : Err}
    (h : isArpForMe ip n s = .error e) : e = .undef := by
  unfold isArpForMe at h
  split at h
  · cases h
  · rcases bind_eq_error h with h | ⟨ty, -, h⟩
    · exact memRead_error (by simp; omega) h
    · split at h
      · cases h
      · exact ipAtIs_error (by simp; omega) h

theorem isIpForMe_error (hp : 64 ≤ s.params.bufSize) {ip : BitVec 32} {n : Nat} {e : Err}
    (h : isIpForMe ip n s = .error e) : e = .undef := by
  unfold isIpForMe at h
  split at h
  · cases h
  · rcases bind_eq_error h with h | ⟨ty, -, h⟩
    · exact memRead_error (by simp; omega) h
    · split at h
      · cases h
      · rcases bind_eq_error h with h | ⟨v, -, h⟩
        · exact fbRead_error (by simp; omega) h
        · split at h
          · cases h
          · exact ipAtIs_error (by simp; omega) h

theorem isArpReplyForMe_error (hp : 64 ≤ s.params.bufSize) {ip : BitVec 32} {e : Err}
    (h : isArpReplyForMe ip s = .error e) : e = .undef := by
  unfold isArpReplyForMe at h
  rcases bind_eq_error h with h | ⟨ty, -, h⟩
  · exact memRead_error (by simp; omega) h
  · split at h
    · cases h
    · rcases bind_eq_error h with h | ⟨v, -, h⟩
      · exact memRead_error (by simp; omega) h
      · split at h
        · cases h
        · exact ipAtIs_error (by simp; omega) h

theorem isArpReplyForMe_eq_ok {ip : BitVec 32} {b : Bool} (h : isArpReplyForMe ip s = .ok b) :
    ∀ a, readsFb s .isArpReplyForMe a = true → (s.fb.read a).isSome = true := by
  intro a ha
  simp only [readsFb, Bool.and_eq_true, Bool.or_eq_true, within_iff, beq_iff_eq] at ha
  obtain ⟨ty, hty, h⟩ := bind_eq_ok h
  obtain ⟨hd, rfl⟩ := memRead_eq_ok hty
  rcases ha with ⟨h1, h2⟩ | ⟨hty', ha⟩
  · exact isSome_of_defined hd h1 (by simpa using h2)
  · simp only [ethType, typeArp, hty', ne_eq, not_true, if_false] at h
    obtain ⟨op, hop, h⟩ := bind_eq_ok h
    obtain ⟨hd, rfl⟩ := memRead_eq_ok hop
    rcases ha with ⟨h1, h2⟩ | ⟨hop', h1, h2⟩
    · exact isSome_of_defined hd h1 (by simpa using h2)
    · simp only [arpOpcode, arpReplyOp, hop', not_true, if_false] at h
      exact isSome_of_defined (ipAtIs_eq_ok h) h1 (by simpa using h2)

/-! ## The commands -/

/-- A command marked "ID": NOT_INIT, or it goes on with the identity. -/
theorem cases_id {i : Instr} {f : Identity → State → Except Err State} (ha : needsAck i = false)
    (hn : needsIdentity i = true)
    (h : ∀ id, s.identity = some id → Cases i s (f id s)) : Cases i s (s.needIdentity >>= fun id => f id s) := by
  cases hid : s.identity with
  | none => simp only [Cases, upFrontError, ha, hn, hid]; exact ⟨.notInit, by simp [needIdentity_none hid], rfl⟩
  | some id => rw [needIdentity_some hid]; exact h id hid

/-- No error can apply up front. -/
theorem cases_of_none {i : Instr} {r : Except Err State} (h : upFrontError s i = none) (hr : RunsOrUndef i s r) :
    Cases i s r := by simp only [Cases, h]; exact hr

theorem cases_initAddr : Cases .initAddr s (initAddrBody s) := by
  have hargs : s.argMac.isSome = (s.argMacHi.isSome && s.argMacLo.isSome) := by
    cases h1 : s.argMacHi <;> cases h2 : s.argMacLo <;> simp [State.argMac, h1, h2]
  cases hid : s.identity with
  | some id =>
    have hu : upFrontError s .initAddr = some 0x03 := by simp [upFrontError, needsAck, needsIdentity, hid]
    simp only [Cases, hu]; exact ⟨.reinit, by simp [initAddrBody, hid], rfl⟩
  | none =>
    cases hm : s.argMac with
    | none =>
      have hu : upFrontError s .initAddr = some 0x05 := by
        rw [hm] at hargs
        simp [upFrontError, needsAck, needsIdentity, hid, argsSet, ← hargs]
      simp only [Cases, hu]; exact ⟨.undef, by simp [initAddrBody, hid, hm], rfl⟩
    | some mac =>
      rw [hm] at hargs
      cases hip : s.argIp with
      | none =>
        have hu : upFrontError s .initAddr = some 0x05 := by
          simp [upFrontError, needsAck, needsIdentity, hid, argsSet, hip]
        simp only [Cases, hu]; exact ⟨.undef, by simp [initAddrBody, hid, hm, hip], rfl⟩
      | some ip =>
        refine cases_of_none (by
          simp [upFrontError, needsAck, needsIdentity, hid, argsSet, hip, ← hargs, badLength, lengthsFit]) (.inr ?_)
        refine ⟨{ s with identity := some ⟨mac, ip⟩ }, by simp [initAddrBody, hid, hm, hip], ?_, ?_⟩
        · exact ⟨rfl, fun _ => rfl, fun _ h => h, fun h => h, fun h => h, rfl, rfl, rfl, rfl, ⟨rfl, rfl⟩, ⟨hid, rfl⟩,
            fun h => by cases h⟩
        · exact ⟨fun a h => by simp [readsFb] at h, fun a h => by simp [readsPb] at h⟩

theorem cases_checksum {k : Kind} {l : Half} (hk : k.wellFormed = true) :
    Cases (.checksum k l) s (checksumBody k l s) := by
  have hk' : (k == Kind.reserved) = false := by cases k <;> simp_all [Kind.wellFormed]
  cases ho : s.argOff with
  | none =>
    have hu : upFrontError s (.checksum k l) = some 0x05 := by
      simp [upFrontError, needsAck, needsIdentity, argsSet, ho]
    simp only [Cases, hu]; exact ⟨.undef, by simp [checksumBody, hk', ho], rfl⟩
  | some off =>
    cases hb : (k == .udp || k == .tcp) && decide (l.toNat < 8) with
    | true =>
      have hu : upFrontError s (.checksum k l) = some 0x06 := by
        simp only [upFrontError, needsAck, needsIdentity, argsSet, ho, badLength, hb]; rfl
      simp only [Cases, hu]; exact ⟨.arg, by simp only [checksumBody, hk', ho, hb, raiseIf_false, raiseIf_true, orUndef_some, bind_ok, bind_error], rfl⟩
    | false =>
      by_cases hr : off.toNat + l.toNat ≤ s.params.bufSize
      · refine cases_of_none (by
          simp only [upFrontError, needsAck, needsIdentity, argsSet, ho, badLength, hb, lengthsFit, Option.getD_some,
            decide_eq_true hr]; rfl) ?_
        have he : checksumBody k l s = inetChecksum s off.toNat l.toNat k >>= fun v => .ok (s.setResult v) := by
          simp only [checksumBody, hk', ho, hb, raiseIf_false, orUndef_some, bind_ok, pure_eq_ok,
            decide_eq_false (show ¬ off.toNat + l.toNat > s.params.bufSize by omega)]
        rw [he]
        have hq := (Asks.inetChecksum (p := s.params) (k := k) hr) s rfl
        refine runsOrUndef_result rfl rfl hq.2 fun v hv => ⟨fun a ha => (hq.1 v hv).1 a ?_, fun a ha => by
          simp [readsPb] at ha⟩
        simpa [readsFb, ho, within, Fx.range] using ha
      · have hu : upFrontError s (.checksum k l) = some 0x04 := by
          simp only [upFrontError, needsAck, needsIdentity, argsSet, ho, badLength, hb, lengthsFit, Option.getD_some,
            decide_eq_false hr]; rfl
        simp only [Cases, hu]
        exact ⟨.range, by simp only [checksumBody, hk', ho, hb, raiseIf_false, raiseIf_true, orUndef_some, bind_ok,
          bind_error, decide_eq_true (show off.toNat + l.toNat > s.params.bufSize by omega)], rfl⟩

theorem cases_isArpForMe (hp : 64 ≤ s.params.bufSize) {l : Half} :
    Cases (.isArpForMe l) s (isArpForMeBody l s) := by
  refine cases_id (f := fun id s => isArpForMe id.ip l.toNat s >>= fun r => .ok (s.setResult (boolResult r))) rfl rfl
    fun id hid => cases_of_none (by
      simp [upFrontError, needsAck, needsIdentity, argsSet, badLength, lengthsFit, hid]) ?_
  cases h : isArpForMe id.ip l.toNat s with
  | error e => exact .inl (by rw [isArpForMe_error hp h]; rfl)
  | ok r =>
    exact .inr ⟨_, rfl, done_of_result rfl rfl, isArpForMe_eq_ok h, fun a ha => by simp [readsPb] at ha⟩

theorem cases_isIpForMe (hp : 64 ≤ s.params.bufSize) {l : Half} :
    Cases (.isIpForMe l) s (isIpForMeBody l s) := by
  refine cases_id (f := fun id s => isIpForMe id.ip l.toNat s >>= fun r => .ok (s.setResult (boolResult r))) rfl rfl
    fun id hid => cases_of_none (by
      simp [upFrontError, needsAck, needsIdentity, argsSet, badLength, lengthsFit, hid]) ?_
  cases h : isIpForMe id.ip l.toNat s with
  | error e => exact .inl (by rw [isIpForMe_error hp h]; rfl)
  | ok r =>
    exact .inr ⟨_, rfl, done_of_result rfl rfl, isIpForMe_eq_ok h, fun a ha => by simp [readsPb] at ha⟩

/-- The two tests of CLASSIFY read nothing beyond what the first reads when the first holds. -/
theorem ipTestReads_of_arp {ip : BitVec 32} {l : Half} (h : isArpForMe ip l.toNat s = .ok true) {a : Nat}
    (ha : ipTestReads s l a = true) : arpTestReads s l a = true := by
  simp only [ipTestReads, arpTestReads, Bool.and_eq_true, Bool.or_eq_true, within_iff, decide_eq_true_eq,
    beq_iff_eq] at ha ⊢
  obtain ⟨hl, ha⟩ := ha
  simp only [isArpForMe, if_neg (show ¬ l.toNat < 41 by omega)] at h
  obtain ⟨ty, hty, h⟩ := bind_eq_ok h
  obtain ⟨-, rfl⟩ := memRead_eq_ok hty
  have hty' : beAt s.fb 12 2 = 0x0806 := by
    by_contra hne
    simp [hne] at h
  refine ⟨by omega, ?_⟩
  rcases ha with ha | ⟨hne, -⟩
  · exact .inl ha
  · omega

theorem cases_classify (hp : 64 ≤ s.params.bufSize) {l : Half} : Cases (.classify l) s (classifyBody l s) := by
  cases hid : s.identity with
  | none =>
    have hu : upFrontError s (.classify l) = some 0x02 := by simp [upFrontError, needsAck, needsIdentity, hid]
    simp only [Cases, hu]; exact ⟨.notInit, by simp [classifyBody, needIdentity_none hid], rfl⟩
  | some id =>
    refine cases_of_none (by simp [upFrontError, needsAck, needsIdentity, argsSet, badLength, lengthsFit, hid]) ?_
    simp only [classifyBody, needIdentity_some hid, bind_ok]
    cases h : isArpForMe id.ip l.toNat s with
    | error e => exact .inl (by rw [isArpForMe_error hp h]; rfl)
    | ok r =>
      simp only [bind_ok]
      cases r with
      | true =>
        refine .inr ⟨_, rfl, done_of_result rfl rfl, fun a ha => isArpForMe_eq_ok h a ?_, fun a ha => by
          simp [readsPb] at ha⟩
        simp only [readsFb, Bool.or_eq_true] at ha
        exact ha.elim (fun h => h) (ipTestReads_of_arp h)
      | false =>
        simp only [Bool.false_eq_true, if_false]
        cases h' : isIpForMe id.ip l.toNat s with
        | error e => exact .inl (by rw [isIpForMe_error hp h']; rfl)
        | ok r =>
          refine .inr ⟨s.setResult (if r then 2 else 0), by cases r <;> rfl, done_of_result rfl rfl, fun a ha => ?_,
            fun a ha => by simp [readsPb] at ha⟩
          simp only [readsFb, Bool.or_eq_true] at ha
          exact ha.elim (isArpForMe_eq_ok h a) (isIpForMe_eq_ok h' a)

theorem cases_isArpReplyForMe (hp : 64 ≤ s.params.bufSize) :
    Cases .isArpReplyForMe s (isArpReplyForMeBody s) := by
  refine cases_id (f := fun id s => isArpReplyForMe id.ip s >>= fun r => .ok (s.setResult (boolResult r))) rfl rfl
    fun id hid => cases_of_none (by
      simp [upFrontError, needsAck, needsIdentity, argsSet, badLength, lengthsFit, hid]) ?_
  cases h : isArpReplyForMe id.ip s with
  | error e => exact .inl (by rw [isArpReplyForMe_error hp h]; rfl)
  | ok r =>
    exact .inr ⟨_, rfl, done_of_result rfl rfl, isArpReplyForMe_eq_ok h, fun a ha => by simp [readsPb] at ha⟩

theorem cases_swapEth (hp : 64 ≤ s.params.bufSize) : Cases .swapEth s (swapEthBody s) := by
  refine cases_id (f := swapEthernet) rfl rfl fun id hid => cases_of_none (by
    simp [upFrontError, needsAck, needsIdentity, argsSet, badLength, lengthsFit, hid]) ?_
  refine runsOrUndef_moved (does_swapEthernet hp id) rfl rfl rfl rfl rfl (fun a ha => ?_) fun a ha => by
    simp [readsPb] at ha
  simpa [readsFb, within] using ha

theorem cases_swapIp (hp : 64 ≤ s.params.bufSize) : Cases .swapIp s (swapIpBody s) := by
  refine cases_id (f := swapIp) rfl rfl fun id hid => cases_of_none (by
    simp [upFrontError, needsAck, needsIdentity, argsSet, badLength, lengthsFit, hid]) ?_
  refine runsOrUndef_moved (does_swapIp hp id) rfl rfl rfl rfl rfl (fun a ha => ?_) fun a ha => by
    simp [readsPb] at ha
  simp [readsFb, within] at ha; simp; omega

theorem cases_fillIpCsum (hp : 64 ≤ s.params.bufSize) : Cases .fillIpCsum s (fillIpChecksum s) := by
  refine cases_of_none (by simp [upFrontError, needsAck, needsIdentity, argsSet, badLength, lengthsFit]) ?_
  refine runsOrUndef_moved (does_fillIpChecksum hp) rfl rfl rfl rfl rfl (fun a ha => ?_) fun a ha => by
    simp [readsPb] at ha
  simp [readsFb, within] at ha; simp; omega

/-- A command that reads one argument register after the identity. -/
theorem cases_arg {α : Type} {i : Instr} {o : Option α} {f : α → Except Err State} (ha : needsAck i = false)
    (hi : needsIdentity i = true → s.identity.isSome = true) (hne : i ≠ .initAddr) (hargs : argsSet s i = o.isSome)
    (h : ∀ v, o = some v → Cases i s (f v)) : Cases i s (orUndef o >>= f) := by
  cases ho : o with
  | some v => exact h v ho
  | none =>
    have hu : upFrontError s i = some 0x05 := by
      have hni : (needsIdentity i && s.identity.isNone) = false := by
        cases hb : needsIdentity i with
        | false => rfl
        | true =>
          obtain ⟨id, hid⟩ := Option.isSome_iff_exists.mp (hi hb)
          rw [hid]; rfl
      rw [ho] at hargs
      simp [upFrontError, ha, hni, hne, hargs]
    simp only [Cases, hu]; exact ⟨.undef, rfl, rfl⟩

theorem cases_newIpHdrTcp (hp : 64 ≤ s.params.bufSize) {l : Half} :
    Cases (.newIpHdrTcp l) s (newIpHdrTcpBody l s) := by
  refine cases_id (f := fun id s => orUndef s.argIp >>= fun dip => newIpHeaderForTcp id l.toNat dip s) rfl rfl
    fun id hid => cases_arg rfl (fun _ => by simp [hid]) (fun h => by cases h) rfl fun dip hdip => cases_of_none (by
      simp [upFrontError, needsAck, needsIdentity, argsSet, badLength, lengthsFit, hid, hdip]) ?_
  exact runsOrUndef_moved (does_newIpHeaderForTcp hp id l.toNat dip) rfl rfl rfl rfl rfl (fun a ha => by
    simp [readsFb] at ha) fun a ha => by simp [readsPb] at ha

/-- The body of ARP_REPLY up to `Send`. -/
def arpReplyFrame (id : Identity) (s : State) : Except Err State := do
  let s ← swapEthernet id s
  let s ← s.memWrite arpOpcode 2 arpReplyOp
  let s ← forEach (fun i s => do
    let b ← s.fbRead (arpSenderMac + i)
    let s ← s.fbWrite (arpTargetMac + i) b
    s.fbWrite (arpSenderMac + i) (macByte id.mac i)) [0, 1, 2, 3, 4, 5] s
  forEach (fun i s => do
    let b ← s.fbRead (arpSenderIp + i)
    let s ← s.fbWrite (arpTargetIp + i) b
    s.fbWrite (arpSenderIp + i) (ipByte id.ip i)) [0, 1, 2, 3] s

theorem does_arpReplyFrame {p : Config.Params} (hp : 64 ≤ p.bufSize) (id : Identity) :
    Does p (Fx.onFb (fun a => (6 ≤ a ∧ a < 12) ∨ (22 ≤ a ∧ a < 32)) fun a => a < 12 ∨ (20 ≤ a ∧ a < 42))
      (arpReplyFrame id) := by
  refine Does.onFb (Does.bind (does_swapEthernet hp id)
    (Does.bind (Does.memWrite (v := fun _ => 2) (by simp; omega))
    (Does.bind (Does.forEach (fx := fun i => (Fx.read (22 + i)).seq
      ((Fx.write (32 + i) (32 + i + 1)).seq (Fx.write (22 + i) (22 + i + 1)))) fun i hi => ?_)
    (Does.forEach (fx := fun i => (Fx.read (28 + i)).seq
      ((Fx.write (38 + i) (38 + i + 1)).seq (Fx.write (28 + i) (28 + i + 1)))) fun i hi => ?_))))
    (fun a ha => ?_) (fun a ha => ?_) rfl rfl
  · have hi : i < 6 := by simp at hi; omega
    exact Does.ask (Asks.fbRead (by omega)) rfl rfl fun b =>
      Does.bind (Does.fbWrite (v := fun _ => b) (by omega)) (Does.fbWrite (by omega))
  · have hi : i < 4 := by simp at hi; omega
    exact Does.ask (Asks.fbRead (by omega)) rfl rfl fun b =>
      Does.bind (Does.fbWrite (v := fun _ => b) (by omega)) (Does.fbWrite (by omega))
  · simp [Fx.all, Fx.seq, Fx.read, Fx.write, Fx.none, Fx.onFb]; omega
  · simp [Fx.all, Fx.seq, Fx.read, Fx.write, Fx.none, Fx.onFb] at ha; omega

theorem cases_arpReply (hp : 64 ≤ s.params.bufSize) : Cases .arpReply s (arpReplyBody s) := by
  have he : arpReplyBody s = s.needIdentity >>= fun id => arpReplyFrame id s >>= fun t => t.send 42 := by
    simp [arpReplyBody, arpReplyFrame]
  rw [he]
  refine cases_id (f := fun id s => arpReplyFrame id s >>= fun t => t.send 42) rfl rfl fun id hid => cases_of_none (by
    simp [upFrontError, needsAck, needsIdentity, argsSet, badLength, lengthsFit, hid]) ?_
  refine runsOrUndef_sent (does_arpReplyFrame hp id) (by omega) rfl rfl rfl rfl rfl (fun h => by cases h)
    (fun a ha => ?_) fun a ha => by simp [readsPb] at ha
  simp [readsFb, within] at ha
  right; simp; omega

/-- The body of ARP_REQUEST up to `Send`. -/
def arpRequestFrame (id : Identity) (tip : BitVec 32) (s : State) : Except Err State := do
  let s ← forEach (fun i s => do
    let s ← s.fbWrite (ethDst + i) 0xFF
    s.fbWrite (ethSrc + i) (macByte id.mac i)) [0, 1, 2, 3, 4, 5] s
  let s ← s.memWrite ethType 2 typeArp
  let s ← s.memWrite arpHtype 2 htypeEthernet
  let s ← s.memWrite arpPtype 2 typeIpv4
  let s ← s.fbWrite arpHlen 6
  let s ← s.fbWrite arpPlen 4
  let s ← s.memWrite arpOpcode 2 arpRequestOp
  let s ← forEach (fun i s => do
    let s ← s.fbWrite (arpSenderMac + i) (macByte id.mac i)
    s.fbWrite (arpTargetMac + i) 0x00) [0, 1, 2, 3, 4, 5] s
  forEach (fun i s => do
    let s ← s.fbWrite (arpSenderIp + i) (ipByte id.ip i)
    s.fbWrite (arpTargetIp + i) (ipByte tip i)) [0, 1, 2, 3] s

theorem does_arpRequestFrame {p : Config.Params} (hp : 64 ≤ p.bufSize) (id : Identity) (tip : BitVec 32) :
    Does p (Fx.onFb (fun _ => False) fun a => a < 42) (arpRequestFrame id tip) := by
  refine Does.onFb (Does.bind (does_ethLoop hp (fun _ => 0xFF) fun i => macByte id.mac i)
    (Does.bind (Does.memWrite (v := fun _ => 0x0806) (by simp; omega))
    (Does.bind (Does.memWrite (v := fun _ => 1) (by simp; omega))
    (Does.bind (Does.memWrite (v := fun _ => 0x0800) (by simp; omega))
    (Does.bind (Does.fbWrite (v := fun _ => 6) (by simp; omega))
    (Does.bind (Does.fbWrite (v := fun _ => 4) (by simp; omega))
    (Does.bind (Does.memWrite (v := fun _ => 1) (by simp; omega))
    (Does.bind (Does.forEach (fx := fun i => (Fx.write (22 + i) (22 + i + 1)).seq (Fx.write (32 + i) (32 + i + 1)))
      fun i hi => ?_)
    (Does.forEach (fx := fun i => (Fx.write (28 + i) (28 + i + 1)).seq (Fx.write (38 + i) (38 + i + 1)))
      fun i hi => ?_)))))))))
    (fun a ha => ha.elim) (fun a ha => ?_) rfl rfl
  · have hi : i < 6 := by simp at hi; omega
    exact Does.bind (Does.fbWrite (by omega)) (Does.fbWrite (by omega))
  · have hi : i < 4 := by simp at hi; omega
    exact Does.bind (Does.fbWrite (by omega)) (Does.fbWrite (by omega))
  · simp [Fx.all, Fx.seq, Fx.write, Fx.none, Fx.onFb] at ha; omega

theorem cases_arpRequest (hp : 64 ≤ s.params.bufSize) : Cases .arpRequest s (arpRequestBody s) := by
  have he : arpRequestBody s = s.needIdentity >>= fun id => orUndef s.argIp >>= fun tip =>
      arpRequestFrame id tip s >>= fun t => t.send 42 := by
    simp [arpRequestBody, arpRequestFrame]
  rw [he]
  refine cases_id (f := fun id s => orUndef s.argIp >>= fun tip => arpRequestFrame id tip s >>= fun t => t.send 42)
    rfl rfl fun id hid => cases_arg rfl (fun _ => by simp [hid]) (fun h => by cases h) rfl fun tip htip =>
    cases_of_none (by simp [upFrontError, needsAck, needsIdentity, argsSet, badLength, lengthsFit, hid, htip]) ?_
  exact runsOrUndef_sent (does_arpRequestFrame hp id tip) (by omega) rfl rfl rfl rfl rfl (fun h => by cases h)
    (fun a ha => by simp [readsFb] at ha) fun a ha => by simp [readsPb] at ha

theorem cases_buildTcpHdr (hp : 64 ≤ s.params.bufSize) {m c : Bool} :
    Cases (.buildTcpHdr m c) s (buildTcpHdrBody m c s) := by
  refine cases_arg (o := s.argAck) (f := fun rel => buildTcpHeader rel.toNat m c s) rfl (fun h => by cases h)
    (fun h => by cases h) rfl fun rel hrel => cases_of_none (by
      simp [upFrontError, needsAck, needsIdentity, argsSet, badLength, lengthsFit, hrel]) ?_
  refine runsOrUndef_moved (does_buildTcpHeader hp rel.toNat m c) rfl rfl rfl rfl ?_ (fun a ha => ?_) fun a ha => by
    simp [readsPb] at ha
  · cases c <;> rfl
  · simpa [readsFb, within] using ha

/-- The body of TCP_SYNACK up to `Send`. -/
def tcpSynackFrame (id : Identity) (s : State) : Except Err State := do
  let s ← swapEthernet id s
  let s ← s.memWrite ipTotalLen 2 (20 + 24)
  let s ← swapIp id s
  let s ← s.fbWrite tcpFlags flagsSynAck
  let s ← buildTcpHeader 1 true false s
  fillTcpChecksum (8 + 24) s

theorem does_tcpSynackFrame {p : Config.Params} (hp : 64 ≤ p.bufSize) (id : Identity) :
    Does p { Fx.onFb (fun a => (6 ≤ a ∧ a < 12) ∨ (14 ≤ a ∧ a < 16) ∨ (18 ≤ a ∧ a < 20) ∨ a = 23 ∨ (26 ≤ a ∧ a < 30) ∨
        (34 ≤ a ∧ a < 46) ∨ (48 ≤ a ∧ a < 50) ∨ (52 ≤ a ∧ a < 54))
      (fun a => a < 12 ∨ (16 ≤ a ∧ a < 18) ∨ (20 ≤ a ∧ a < 23) ∨ (24 ≤ a ∧ a < 48) ∨ (50 ≤ a ∧ a < 52) ∨
        (54 ≤ a ∧ a < 58)) with isn := 1 } (tcpSynackFrame id) := by
  refine Does.weaken (Does.bind (does_swapEthernet hp id)
    (Does.bind (Does.memWrite (v := fun _ => 44) (by simp; omega))
    (Does.bind (does_swapIp hp id)
    (Does.bind (Does.fbWrite (v := fun _ => flagsSynAck) (by simp; omega))
    (Does.bind (does_buildTcpHeader hp 1 true false) (does_fillTcpChecksum hp (n := 32) (by omega)))))))
    (fun a ha => ?_) (fun a ha => ?_) (fun _ h => h.elim) rfl rfl
  · simp [Fx.seq, Fx.write, Fx.none, Fx.onFb] at ha ⊢; omega
  · simp [Fx.seq, Fx.write, Fx.none, Fx.onFb] at ha ⊢; omega

theorem cases_tcpSynack (hp : 64 ≤ s.params.bufSize) : Cases .tcpSynack s (tcpSynackBody s) := by
  have he : tcpSynackBody s = s.needIdentity >>= fun id => tcpSynackFrame id s >>= fun t => t.send 58 := by
    simp [tcpSynackBody, tcpSynackFrame]
  rw [he]
  refine cases_id (f := fun id s => tcpSynackFrame id s >>= fun t => t.send 58) rfl rfl fun id hid => cases_of_none (by
    simp [upFrontError, needsAck, needsIdentity, argsSet, badLength, lengthsFit, hid]) ?_
  refine runsOrUndef_sent (does_tcpSynackFrame hp id) (by omega) rfl rfl rfl rfl rfl (fun h => by cases h)
    (fun a ha => ?_) fun a ha => by simp [readsPb] at ha
  simp [readsFb, within] at ha
  right; simp; omega

/-- The body of TCP_ACK_FROM_ANY from its first write up to `Send`. -/
def tcpAckFrame (id : Identity) (rel : Nat) (flags : Byte) (s : State) : Except Err State := do
  let s ← swapEthernet id s
  let s ← s.fbWrite tcpFlags flags
  let s ← buildTcpHeader rel false true s
  let s ← s.memWrite ipTotalLen 2 (20 + 20)
  let s ← swapIp id s
  fillTcpChecksum (8 + 20) s

theorem does_tcpAckFrame {p : Config.Params} (hp : 64 ≤ p.bufSize) (id : Identity) (rel : Nat) (flags : Byte) :
    Does p (Fx.onFb (fun a => (6 ≤ a ∧ a < 12) ∨ (14 ≤ a ∧ a < 16) ∨ (18 ≤ a ∧ a < 20) ∨ a = 23 ∨ (26 ≤ a ∧ a < 30) ∨
        (34 ≤ a ∧ a < 46) ∨ (48 ≤ a ∧ a < 50) ∨ (52 ≤ a ∧ a < 54))
      (fun a => a < 12 ∨ (16 ≤ a ∧ a < 18) ∨ (20 ≤ a ∧ a < 23) ∨ (24 ≤ a ∧ a < 48) ∨ (50 ≤ a ∧ a < 52)))
      (tcpAckFrame id rel flags) := by
  refine Does.onFb (Does.bind (does_swapEthernet hp id)
    (Does.bind (Does.fbWrite (v := fun _ => flags) (by simp; omega))
    (Does.bind (does_buildTcpHeader hp rel false true)
    (Does.bind (Does.memWrite (v := fun _ => 40) (by simp; omega))
    (Does.bind (does_swapIp hp id) (does_fillTcpChecksum hp (n := 28) (by omega)))))))
    (fun a ha => ?_) (fun a ha => ?_) rfl rfl
  · simp [Fx.seq, Fx.write, Fx.none, Fx.onFb] at ha ⊢; omega
  · simp [Fx.seq, Fx.write, Fx.none, Fx.onFb] at ha; omega

theorem cases_tcpAckFromAny (hp : 64 ≤ s.params.bufSize) : Cases .tcpAckFromAny s (tcpAckFromAnyBody s) := by
  have he : tcpAckFromAnyBody s = s.needIdentity >>= fun id => inboundInfo s >>= fun dh => inboundFin s >>= fun fin =>
      tcpAckFrame id (if dh.1 = 0 then 1 else dh.1) (if dh.1 = 0 && fin then flagsAckFin else flagsAck) s >>= fun t =>
      t.send 54 := by
    simp [tcpAckFromAnyBody, tcpAckFrame]
  rw [he]
  refine cases_id (f := fun id s => inboundInfo s >>= fun dh => inboundFin s >>= fun fin =>
      tcpAckFrame id (if dh.1 = 0 then 1 else dh.1) (if dh.1 = 0 && fin then flagsAckFin else flagsAck) s >>= fun t =>
      t.send 54) rfl rfl fun id hid => cases_of_none (by
    simp [upFrontError, needsAck, needsIdentity, argsSet, badLength, lengthsFit, hid]) ?_
  have h1 := asks_inboundInfo hp s rfl
  have h2 := asks_inboundFin hp s rfl
  cases hi : inboundInfo s with
  | error e => exact .inl (by rw [h1.2 e hi]; rfl)
  | ok dh =>
    cases hf : inboundFin s with
    | error e => exact .inl (by rw [h2.2 e hf]; rfl)
    | ok fin =>
      simp only [bind_ok]
      refine runsOrUndef_sent (does_tcpAckFrame hp id _ _) (by omega) rfl rfl rfl rfl rfl
        (fun _ => ⟨by simp [hid], rfl⟩) (fun a ha => ?_) fun a ha => by simp [readsPb] at ha
      have h1 := (h1.1 dh hi).1 a
      have h2 := (h2.1 fin hf).1 a
      simp [readsFb, within] at ha
      simp at h1 h2
      by_cases hA : a = 16 ∨ a = 17 ∨ a = 46
      · exact .inl (h1 hA)
      · by_cases hB : a = 47 ∧ s.params.ackFin = .echoFin
        · exact .inl (h2 hB.1 hB.2)
        · right
          simp only [onFb_reads, onFb_writes]
          by_cases hE : s.params.ackFin = .echoFin
          · simp only [hE, and_true] at ha hB
            omega
          · simp only [hE, and_false, or_false] at ha
            omega

theorem cases_seq {i : Instr} {f : Except Err State} (ha : needsAck i = true)
    (h : s.ackBuilt = true → Cases i s f) : Cases i s (raiseIf (!s.ackBuilt) .seq >>= fun _ => f) := by
  cases hb : s.ackBuilt with
  | true => exact h hb
  | false => simp only [Cases, upFrontError, ha, hb]; exact ⟨.seq, rfl, rfl⟩

theorem cases_tcpAckWithData (hp : 64 ≤ s.params.bufSize) {l : Half} :
    Cases (.tcpAckWithData l) s (tcpAckWithDataBody l s) := by
  refine cases_seq (f := raiseIf (54 + l.toNat > s.params.bufSize) .range >>= fun _ => ackWithData l.toNat s) rfl
    fun hb => ?_
  by_cases hr : 54 + l.toNat ≤ s.params.bufSize
  · refine cases_of_none (by simp [upFrontError, needsAck, needsIdentity, argsSet, badLength, lengthsFit, hb, hr]) ?_
    rw [decide_eq_false (show ¬ 54 + l.toNat > s.params.bufSize by omega), raiseIf_false, bind_ok, ackWithData_eq]
    refine runsOrUndef_sent (does_ackWithDataFrame hp hr) (by omega) rfl rfl rfl rfl rfl (fun h => by cases h)
      (fun a ha => ?_) fun a ha => by simp [readsPb] at ha
    simp [readsFb, within] at ha
    right; simp; omega
  · have hu : upFrontError s (.tcpAckWithData l) = some 0x04 := by
      simp [upFrontError, needsAck, needsIdentity, argsSet, badLength, lengthsFit, hb]; omega
    simp only [Cases, hu]
    exact ⟨.range, by rw [decide_eq_true (show 54 + l.toNat > s.params.bufSize by omega)]; rfl, rfl⟩

theorem cases_tcpRespondData (hp : 64 ≤ s.params.bufSize) {l : Half} :
    Cases (.tcpRespondData l) s (tcpRespondDataBody l s) := by
  refine cases_seq (f := raiseIf (l.toNat > s.params.pbSize || 54 + l.toNat > s.params.bufSize) .range >>= fun _ =>
    copyPayload tcpOptions l.toNat s >>= fun s => ackWithData l.toNat s) rfl fun hb => ?_
  by_cases hr : l.toNat ≤ s.params.pbSize ∧ 54 + l.toNat ≤ s.params.bufSize
  · refine cases_of_none (by simp [upFrontError, needsAck, needsIdentity, argsSet, badLength, lengthsFit, hb, hr]) ?_
    have he : raiseIf (decide (l.toNat > s.params.pbSize) || decide (54 + l.toNat > s.params.bufSize)) .range = .ok () := by
      rw [decide_eq_false (show ¬ 54 + l.toNat > s.params.bufSize by omega),
        decide_eq_false (show ¬ l.toNat > s.params.pbSize by omega)]; rfl
    have he' : (copyPayload tcpOptions l.toNat s >>= fun s => ackWithData l.toNat s) =
        (copyPayload tcpOptions l.toNat s >>= fun s => ackWithDataFrame l.toNat s) >>= fun t =>
          t.send (20 + 20 + l.toNat + 14) := by
      simp only [ackWithData_eq, bind_assoc]
    rw [he, bind_ok, he']
    refine runsOrUndef_sent (fx := (Fx.seq _ _)) (f := fun s => copyPayload 54 l.toNat s >>= ackWithDataFrame l.toNat)
      (Does.bind (does_copyPayload hr.2 hr.1) (does_ackWithDataFrame hp hr.2)) (by omega) rfl rfl rfl rfl rfl
      (fun h => by cases h) (fun a ha => ?_) fun a ha => ?_
    · simp [readsFb, within] at ha
      right; simp [Fx.seq]; omega
    · simpa [readsPb, Fx.seq] using ha
  · have hu : upFrontError s (.tcpRespondData l) = some 0x04 := by
      simp [upFrontError, needsAck, needsIdentity, argsSet, badLength, lengthsFit, hb]; omega
    simp only [Cases, hu]
    refine ⟨.range, ?_, rfl⟩
    have : (decide (l.toNat > s.params.pbSize) || decide (54 + l.toNat > s.params.bufSize)) = true := by
      simp; omega
    rw [this]; rfl

theorem cases_inbound {i : Instr} {g : Nat × Nat → State} (hp : 64 ≤ s.params.bufSize)
    (hi : readsFb s i = fun a => within 16 18 a || a == 46) (hpb : ∀ a, readsPb i a = false)
    (hu : upFrontError s i = none) (hd : ∀ dh : Nat × Nat, inboundInfo s = .ok dh → Done i s (ended i (g dh))) :
    Cases i s (inboundInfo s >>= fun dh => .ok (g dh)) := by
  refine cases_of_none hu ?_
  have h1 := asks_inboundInfo hp s rfl
  cases hdh : inboundInfo s with
  | error e => exact .inl (by rw [h1.2 e hdh]; rfl)
  | ok dh =>
    refine .inr ⟨_, rfl, hd dh hdh, fun a ha => (h1.1 dh hdh).1 a ?_, fun a ha => by simp [hpb] at ha⟩
    rw [hi] at ha
    simp [within] at ha
    simp; omega

theorem cases_inboundInfo (hp : 64 ≤ s.params.bufSize) : Cases .inboundInfo s (inboundInfoBody s) := by
  refine cases_inbound (g := fun dh =>
    { s with infoDlen := some (BitVec.ofNat 16 dh.1), infoHlen := some (BitVec.ofNat 8 dh.2) }) hp rfl (fun _ => rfl) rfl
    fun dh hdh => ?_
  obtain ⟨t, ht, hdh⟩ := bind_eq_ok hdh
  obtain ⟨b, hb, hdh⟩ := bind_eq_ok hdh
  cases hdh
  refine ⟨rfl, fun _ => rfl, fun _ h => h, fun h => h, fun h => h, rfl, rfl, rfl, rfl, ?_, rfl, fun h => by cases h⟩
  refine ⟨_, _, rfl, rfl, ?_⟩
  have := b.isLt
  simp only [BitVec.toNat_ofNat, Nat.shiftRight_eq_div_pow]
  omega

theorem cases_getDataOffset (hp : 64 ≤ s.params.bufSize) : Cases .getDataOffset s (getDataOffsetBody s) :=
  cases_inbound (g := fun dh => s.setResult (if dh.1 = 0 then 0 else BitVec.ofNat 16 (34 + dh.2))) hp rfl (fun _ => rfl)
    rfl fun _ _ => done_of_result rfl rfl

theorem cases_getDataLen (hp : 64 ≤ s.params.bufSize) : Cases .getDataLen s (getDataLenBody s) :=
  cases_inbound (g := fun dh => s.setResult (BitVec.ofNat 16 dh.1)) hp rfl (fun _ => rfl) rfl fun _ _ =>
    done_of_result rfl rfl

end Sys2Proof.Laws
end

