-- ==== Sys2Proof/Laws/ExecCases.lean ====
section
/-! SUPPORT. ECHO_REPLY, UDP_REPLY and TCP_CLIENT meet `Cases`, and so `exec_cases` holds of every command. -/

namespace Sys2Proof.Laws

open Sys2Proof.Machine Sys2Proof.Safety

variable {s : State}

/-! ## ECHO_REPLY -/

/-- The body of ECHO_REPLY up to the checksum update. -/
def echoFrame (id : Identity) (s : State) : Except Err State := do
  let s ← swapEthernet id s
  let s ← swapIp id s
  s.fbWrite icmpType 0x00

theorem does_echoFrame {p : Config.Params} (hp : 64 ≤ p.bufSize) (id : Identity) :
    Does p (Fx.onFb (fun a => (6 ≤ a ∧ a < 12) ∨ (14 ≤ a ∧ a < 20) ∨ a = 23 ∨ (26 ≤ a ∧ a < 30))
      fun a => a < 12 ∨ (20 ≤ a ∧ a < 23) ∨ (24 ≤ a ∧ a < 35)) (echoFrame id) := by
  refine Does.onFb (Does.bind (does_swapEthernet hp id) (Does.bind (does_swapIp hp id)
    (Does.fbWrite (v := fun _ => 0x00) (by simp; omega)))) (fun a ha => ?_) (fun a ha => ?_) rfl rfl
  · simp [Fx.seq, Fx.write, Fx.none, Fx.onFb] at ha ⊢; omega
  · simp [Fx.seq, Fx.write, Fx.none, Fx.onFb] at ha; omega

/-- Byte 37 is read when the addition to byte 36 carries, and unchanged when it does not (R240). -/
theorem icmpCsumUpdate_byte {t : State} (h : icmpCsumUpdate s = .ok t) :
    if 0xF8 ≤ (byteAt s.fb 36).toNat then (s.fb.read 37).isSome = true else t.fb.read 37 = s.fb.read 37 := by
  obtain ⟨u, hu, h⟩ := bind_eq_ok h
  obtain ⟨c, -, h⟩ := bind_eq_ok h
  obtain ⟨-, rfl⟩ := fbWrite_eq_ok h
  obtain ⟨b, hb, hu⟩ := bind_eq_ok hu
  have hb := (fbRead_eq_ok hb).2
  simp only [icmpCsumHi] at hb
  rw [byteAt_of_read hb]
  by_cases hc : b > 0xF7
  · have : 0xF8 ≤ b.toNat := by have := BitVec.lt_def.mp hc; simp at this; omega
    rw [if_pos this]
    simp only [hc, if_true] at hu
    obtain ⟨d, hd, -⟩ := bind_eq_ok hu
    have hd := (fbRead_eq_ok hd).2
    simp only [icmpCsumLo] at hd
    rw [hd]; rfl
  · have : ¬ 0xF8 ≤ b.toNat := fun hle => hc (BitVec.lt_def.mpr (by simp; omega))
    rw [if_neg this]
    simp only [hc, if_false] at hu
    cases hu
    simp

theorem cases_echoReply (hp : 64 ≤ s.params.bufSize) {l : Half} : Cases (.echoReply l) s (echoReplyBody l s) := by
  have he : echoReplyBody l s = s.needIdentity >>= fun id => raiseIf (l.toNat > s.params.bufSize) .range >>= fun _ =>
      (echoFrame id s >>= icmpCsumUpdate) >>= fun t => t.send l.toNat := by
    simp [echoReplyBody, echoFrame]
  rw [he]
  refine cases_id (f := fun id s => raiseIf (l.toNat > s.params.bufSize) .range >>= fun _ =>
      (echoFrame id s >>= icmpCsumUpdate) >>= fun t => t.send l.toNat) rfl rfl fun id hid => ?_
  by_cases hr : l.toNat ≤ s.params.bufSize
  · refine cases_of_none (by simp [upFrontError, needsAck, needsIdentity, argsSet, badLength, lengthsFit, hid, hr]) ?_
    rw [decide_eq_false (show ¬ l.toNat > s.params.bufSize by omega), raiseIf_false, bind_ok]
    have hd := Does.bind (does_echoFrame hp id) (does_icmpCsumUpdate hp)
    cases hres : echoFrame id s >>= icmpCsumUpdate with
    | error e => exact .inl (by rw [(hd s rfl).2 e hres]; rfl)
    | ok u =>
      obtain ⟨hmu, hrd⟩ := (hd s rfl).1 u hres
      cases hsend : u.send l.toNat with
      | error e => exact .inl (by rw [bind_ok, hsend, send_eq_error (by rw [hmu.params]; exact hr) hsend])
      | ok t =>
        refine .inr ⟨t, by rw [bind_ok, hsend],
          done_of_sent hmu hsend rfl rfl rfl rfl rfl (fun h => by cases h), fun a ha => ?_, fun a ha => by
            simp [readsPb] at ha⟩
        obtain ⟨bytes, -, hfr, -⟩ := send_eq_ok hsend
        have hsent : ∀ a < l.toNat, (u.fb.read a).isSome = true := fun a ha => by rw [hfr.2 a ha]; simp [hfr.1, ha]
        obtain ⟨v, hv, hu⟩ := bind_eq_ok hres
        have hm := (((does_echoFrame hp id) s rfl).1 v hv).1
        have h36 : v.fb.read 36 = s.fb.read 36 := hm.keeps 36 (by simp)
        have h37 : v.fb.read 37 = s.fb.read 37 := hm.keeps 37 (by simp)
        have hbyte := icmpCsumUpdate_byte hu
        rw [byteAt, h36, ← byteAt, h37] at hbyte
        have hrd := hrd.1 a
        simp only [Fx.seq, onFb_reads, onFb_writes] at hrd
        simp [readsFb, within] at ha
        by_cases h37' : a = 37
        · subst h37'
          by_cases hc : 248 ≤ (byteAt s.fb 36).toNat
          · rw [if_pos hc] at hbyte; exact hbyte
          · rw [if_neg hc] at hbyte
            rw [← hbyte]; exact hsent 37 (by omega)
        · by_cases hw : a < 12 ∨ (20 ≤ a ∧ a < 23) ∨ (24 ≤ a ∧ a < 35) ∨ a = 36
          · exact hrd (by omega)
          · by_cases hr' : (6 ≤ a ∧ a < 12) ∨ (14 ≤ a ∧ a < 20) ∨ a = 23 ∨ (26 ≤ a ∧ a < 30)
            · exact hrd (.inl hr')
            · rw [← hmu.keeps a (by simp only [Fx.seq, onFb_writes]; omega)]
              exact hsent a (by omega)
  · have hu : upFrontError s (.echoReply l) = some 0x04 := by
      simp [upFrontError, needsAck, needsIdentity, argsSet, badLength, lengthsFit, hid]; omega
    simp only [Cases, hu]
    exact ⟨.range, by rw [decide_eq_true (show l.toNat > s.params.bufSize by omega)]; rfl, rfl⟩

/-! ## UDP_REPLY -/

/-- The body of UDP_REPLY up to `Send`. -/
def udpFrame (id : Identity) (port : Half) (n : Nat) (s : State) : Except Err State := do
  let s ← swapEthernet id s
  let s ← s.memWrite ipTotalLen 2 (20 + 8 + n)
  let s ← s.memWrite udpLen 2 (8 + n)
  let s ← swapIp id s
  let s ← s.memWrite udpDstPort 2 port.toNat
  let s ← copyPayload udpPayload n s
  let s ← s.memWrite udpCsum 2 0x0000
  let c ← inetChecksum s ipSrc (16 + n) .udp
  s.memWrite udpCsum 2 c.toNat

theorem does_udpFrame {p : Config.Params} (hp : 64 ≤ p.bufSize) (id : Identity) (port : Half) {n : Nat}
    (hb : 42 + n ≤ p.bufSize) (hn : n ≤ p.pbSize) :
    Does p { Fx.onFb (fun a => (6 ≤ a ∧ a < 12) ∨ (14 ≤ a ∧ a < 16) ∨ (18 ≤ a ∧ a < 20) ∨ a = 23 ∨
        (26 ≤ a ∧ a < 30) ∨ (34 ≤ a ∧ a < 36))
      (fun a => a < 12 ∨ (16 ≤ a ∧ a < 18) ∨ (20 ≤ a ∧ a < 23) ∨ (24 ≤ a ∧ a < 34) ∨ (36 ≤ a ∧ a < 42 + n)) with
      pbReads := fun a => a < n } (udpFrame id port n) := by
  refine Does.weaken (Does.bind (does_swapEthernet hp id)
    (Does.bind (Does.memWrite (v := fun _ => 20 + 8 + n) (by simp; omega))
    (Does.bind (Does.memWrite (v := fun _ => 8 + n) (by simp; omega))
    (Does.bind (does_swapIp hp id)
    (Does.bind (Does.memWrite (v := fun _ => port.toNat) (by simp; omega))
    (Does.bind (does_copyPayload (dst := 42) hb hn)
    (Does.bind (Does.memWrite (v := fun _ => 0) (by simp; omega))
    (Does.ask (Asks.inetChecksum (a := 26) (n := 16 + n) (by omega)) rfl rfl fun c =>
      Does.memWrite (v := fun _ => c.toNat) (by simp; omega)))))))))
    (fun a ha => ?_) (fun a ha => ?_) (fun a ha => ?_) rfl rfl
  · simp [Fx.seq, Fx.write, Fx.range, Fx.none, Fx.onFb] at ha ⊢; omega
  · simp [Fx.seq, Fx.write, Fx.range, Fx.none, Fx.onFb] at ha ⊢; omega
  · simpa [Fx.seq, Fx.write, Fx.range, Fx.none, Fx.onFb] using ha

theorem cases_udpReply (hp : 64 ≤ s.params.bufSize) {l : Half} : Cases (.udpReply l) s (udpReplyBody l s) := by
  have he : udpReplyBody l s = s.needIdentity >>= fun id => orUndef s.argPort >>= fun port =>
      raiseIf (udpLength l > s.params.pbSize || 42 + udpLength l > s.params.bufSize) .range >>= fun _ =>
      udpFrame id port (udpLength l) s >>= fun t => t.send (42 + udpLength l) := by
    simp [udpReplyBody, udpFrame, udpLength]
  rw [he]
  refine cases_id (f := fun id s => orUndef s.argPort >>= fun port =>
      raiseIf (udpLength l > s.params.pbSize || 42 + udpLength l > s.params.bufSize) .range >>= fun _ =>
      udpFrame id port (udpLength l) s >>= fun t => t.send (42 + udpLength l)) rfl rfl
    fun id hid => cases_arg rfl (fun _ => by simp [hid]) (fun h => by cases h) rfl fun port hport => ?_
  by_cases hr : udpLength l ≤ s.params.pbSize ∧ 42 + udpLength l ≤ s.params.bufSize
  · refine cases_of_none (by
      simp [upFrontError, needsAck, needsIdentity, argsSet, badLength, lengthsFit, hid, hport, hr]) ?_
    rw [decide_eq_false (show ¬ udpLength l > s.params.pbSize by omega),
      decide_eq_false (show ¬ 42 + udpLength l > s.params.bufSize by omega)]
    refine runsOrUndef_sent (does_udpFrame hp id port hr.2 hr.1) (by omega) rfl rfl rfl rfl rfl (fun h => by cases h)
      (fun a ha => ?_) fun a ha => ?_
    · simp [readsFb, within] at ha
      right; simp; omega
    · simpa [readsPb] using ha
  · have hu : upFrontError s (.udpReply l) = some 0x04 := by
      simp [upFrontError, needsAck, needsIdentity, argsSet, badLength, lengthsFit, hid, hport]; omega
    simp only [Cases, hu]
    refine ⟨.range, ?_, rfl⟩
    have : (decide (udpLength l > s.params.pbSize) || decide (42 + udpLength l > s.params.bufSize)) = true := by
      simp; omega
    rw [this]; rfl

/-! ## TCP_CLIENT -/

theorem clientHdr_eq (m : Bool) : clientHdrLen m = clientHdr m := rfl

theorem does_clientFrame {p : Config.Params} (hp : 64 ≤ p.bufSize) (id : Identity) (dport sport : Half) (flags : Byte)
    (rel : Half) (dmac : BitVec 48) (dip : BitVec 32) (m z : Bool) {len : Nat}
    (hb : 34 + clientHdr m + len ≤ p.bufSize) :
    Does p { Fx.onFb (fun a => (38 ≤ a ∧ a < 46) ∨ (m = false ∧ 48 ≤ a ∧ a < 50) ∨ (52 ≤ a ∧ a < 54) ∨
        (34 + clientHdr m ≤ a ∧ a < 34 + clientHdr m + len))
      (fun a => a < 48 ∨ (m = true ∧ 48 ≤ a ∧ a < 50) ∨ (50 ≤ a ∧ a < 52) ∨ (m = true ∧ 54 ≤ a ∧ a < 58)) with
      ipid := 1 } (clientFrame id dport sport flags rel dmac dip m z len) := by
  have hz : Does p (Fx.onFb (fun _ => False) fun a => 42 ≤ a ∧ a < 46) (clearAck z flags) := by
    refine Does.ite (fun _ => ?_) fun _ => ?_
    · exact (Does.fbWriteBytes (a := 42) (bs := fun _ => [0, 0, 0, 0]) (n := 4) (fun _ => rfl) (by omega)).weaken
        (fun _ h => h.elim) (fun a ha => ha) (fun _ h => h.elim) rfl rfl
    · exact Does.pure.weaken (fun _ h => h.elim) (fun _ h => h.elim) (fun _ h => h.elim) rfl rfl
  have hm : Does p (Fx.onFb (fun _ => False) fun a => m = true ∧ ((54 ≤ a ∧ a < 58) ∨ (48 ≤ a ∧ a < 50)))
      (clientOptions m) := by
    refine Does.ite (fun h => ?_) fun _ => ?_
    · exact (Does.bind (Does.fbWriteBytes (a := 54) (bs := fun _ => mssOption) (n := 4) (fun _ => rfl) (by omega))
        (Does.memWrite (a := 48) (n := 2) (v := fun s => s.params.clientWindow.toNat) (by omega))).weaken
        (fun _ h => h.elim) (fun a ha => ⟨h, ha⟩) (fun _ h => h.elim) rfl rfl
    · exact Does.pure.weaken (fun _ h => h.elim) (fun _ h => h.elim) (fun _ h => h.elim) rfl rfl
  have hh : clientHdr m = 20 ∧ m = false ∨ clientHdr m = 24 ∧ m = true := by cases m <;> simp [clientHdr]
  have hfront : Does p (Fx.onFb (fun a => 38 ≤ a ∧ a < 46) fun a => a < 14 ∨ (38 ≤ a ∧ a < 46)) fun s =>
      ackLoop true [3, 2, 1, 0] rel.toNat s >>= fun s => clearAck z flags s >>= fun s =>
      forEach (fun i s => do
        let s ← s.fbWrite (ethDst + i) (macByte dmac i)
        s.fbWrite (ethSrc + i) (macByte id.mac i)) [0, 1, 2, 3, 4, 5] s >>= fun s => s.memWrite ethType 2 typeIpv4 := by
    refine (Does.bind (does_ackLoop_all hp true rel.toNat) (Does.bind hz (Does.bind
      (does_ethLoop hp (fun i => macByte dmac i) fun i => macByte id.mac i)
      (Does.memWrite (a := 12) (n := 2) (v := fun _ => 0x0800) (by omega))))).onFb (fun a ha => ?_) (fun a ha => ?_) rfl
      rfl
    · exact .inl ha
    · simp [Fx.seq, Fx.write, Fx.none, Fx.onFb] at ha; omega
  have heq : clientFrame id dport sport flags rel dmac dip m z len = fun s =>
      (ackLoop true [3, 2, 1, 0] rel.toNat s >>= fun s => clearAck z flags s >>= fun s =>
      forEach (fun i s => do
        let s ← s.fbWrite (ethDst + i) (macByte dmac i)
        s.fbWrite (ethSrc + i) (macByte id.mac i)) [0, 1, 2, 3, 4, 5] s >>= fun s => s.memWrite ethType 2 typeIpv4) >>=
      fun s => newIpHeaderForTcp id (20 + clientHdr m + len) dip s >>= fun s => s.memWrite 34 2 sport.toNat >>= fun s =>
      s.memWrite 36 2 dport.toNat >>= fun s => s.fbWrite 46 (if m then hlen24 else hlen20) >>= fun s =>
      s.fbWrite 47 flags >>= fun s => clientOptions m s >>= fun s => s.memWrite 50 2 0x0000 >>= fun s =>
      fillTcpChecksum (8 + clientHdr m + len) s := by
    funext s
    simp only [bind_assoc]
    rfl
  rw [heq]
  refine Does.weaken (Does.bind hfront
    (Does.bind (does_newIpHeaderForTcp hp id (20 + clientHdr m + len) dip)
    (Does.bind (Does.memWrite (a := 34) (n := 2) (v := fun _ => sport.toNat) (by omega))
    (Does.bind (Does.memWrite (a := 36) (n := 2) (v := fun _ => dport.toNat) (by omega))
    (Does.bind (Does.fbWrite (i := 46) (v := fun _ => if m then hlen24 else hlen20) (by omega))
    (Does.bind (Does.fbWrite (i := 47) (v := fun _ => flags) (by omega))
    (Does.bind hm
    (Does.bind (Does.memWrite (a := 50) (n := 2) (v := fun _ => 0) (by omega))
      (does_fillTcpChecksum hp (n := 8 + clientHdr m + len) (by omega)))))))))) (fun a ha => ?_) (fun a ha => ?_)
      (fun _ h => h.elim) rfl rfl
  · rcases hh with ⟨hh, rfl⟩ | ⟨hh, rfl⟩ <;>
      simp [Fx.seq, Fx.write, Fx.none, Fx.onFb, hh] at ha ⊢ <;> omega
  · rcases hh with ⟨hh, rfl⟩ | ⟨hh, rfl⟩ <;>
      simp [Fx.seq, Fx.write, Fx.none, Fx.onFb] at ha ⊢ <;> omega

theorem cases_tcpClient (hp : 64 ≤ s.params.bufSize) {m z : Bool} {l : Half} :
    Cases (.tcpClient m z l) s (tcpClientBody m z l s) := by
  have hmac : s.argMac.isSome = (s.argMacHi.isSome && s.argMacLo.isSome) := by
    cases h1 : s.argMacHi <;> cases h2 : s.argMacLo <;> simp [State.argMac, h1, h2]
  have he : tcpClientBody m z l s = s.needIdentity >>= fun id => orUndef s.argPort >>= fun dport =>
      orUndef s.argSport >>= fun sport => orUndef s.argFlags >>= fun flags => orUndef s.argAck >>= fun rel =>
      orUndef s.argMac >>= fun dmac => orUndef s.argIp >>= fun dip =>
      raiseIf (34 + clientHdr m + l.toNat > s.params.bufSize) .range >>= fun _ =>
      clientFrame id dport sport flags rel dmac dip m z l.toNat s >>= fun t => t.send (34 + clientHdr m + l.toNat) := by
    simp [tcpClientBody, clientHdr_eq]
  rw [he]
  refine cases_id (f := fun id s => orUndef s.argPort >>= fun dport =>
      orUndef s.argSport >>= fun sport => orUndef s.argFlags >>= fun flags => orUndef s.argAck >>= fun rel =>
      orUndef s.argMac >>= fun dmac => orUndef s.argIp >>= fun dip =>
      raiseIf (34 + clientHdr m + l.toNat > s.params.bufSize) .range >>= fun _ =>
      clientFrame id dport sport flags rel dmac dip m z l.toNat s >>= fun t => t.send (34 + clientHdr m + l.toNat)) rfl
    rfl fun id hid => ?_
  cases hargs : argsSet s (.tcpClient m z l) with
  | false =>
    have hu : upFrontError s (.tcpClient m z l) = some 0x05 := by
      simp [upFrontError, needsAck, needsIdentity, hid, hargs]
    simp only [Cases, hu]
    refine ⟨.undef, ?_, rfl⟩
    simp only [argsSet, ← hmac] at hargs
    cases h1 : s.argPort <;> simp only [orUndef_none, orUndef_some, bind_ok, bind_error]
    cases h2 : s.argSport <;> simp only [orUndef_none, orUndef_some, bind_ok, bind_error]
    cases h3 : s.argFlags <;> simp only [orUndef_none, orUndef_some, bind_ok, bind_error]
    cases h4 : s.argAck <;> simp only [orUndef_none, orUndef_some, bind_ok, bind_error]
    cases h5 : s.argMac <;> simp only [orUndef_none, orUndef_some, bind_ok, bind_error]
    cases h6 : s.argIp <;> simp only [orUndef_none, orUndef_some, bind_ok, bind_error]
    simp [h1, h2, h3, h4, h5, h6] at hargs
  | true =>
    have hargs' := hargs
    simp only [argsSet, ← hmac, Bool.and_eq_true, Option.isSome_iff_exists] at hargs
    obtain ⟨⟨⟨⟨⟨⟨dport, h1⟩, sport, h2⟩, flags, h3⟩, rel, h4⟩, dmac, h5⟩, dip, h6⟩ := hargs
    simp only [h1, h2, h3, h4, h5, h6, orUndef_some, bind_ok]
    by_cases hr : 34 + clientHdr m + l.toNat ≤ s.params.bufSize
    · refine cases_of_none (by
        simp [upFrontError, needsAck, needsIdentity, hargs', badLength, lengthsFit, hid, hr]) ?_
      rw [decide_eq_false (show ¬ 34 + clientHdr m + l.toNat > s.params.bufSize by omega), raiseIf_false, bind_ok]
      refine runsOrUndef_sent (does_clientFrame hp id dport sport flags rel dmac dip m z hr) (by omega) rfl rfl rfl rfl
        rfl (fun h => by cases h) (fun a ha => ?_) fun a ha => by simp [readsPb] at ha
      have hh : clientHdr m = 20 ∧ m = false ∨ clientHdr m = 24 ∧ m = true := by cases m <;> simp [clientHdr]
      right
      rcases hh with ⟨hh, rfl⟩ | ⟨hh, rfl⟩ <;> simp [readsFb, within, hh] at ha ⊢ <;> omega
    · have hu : upFrontError s (.tcpClient m z l) = some 0x04 := by
        simp [upFrontError, needsAck, needsIdentity, hargs', badLength, lengthsFit, hid]; omega
      simp only [Cases, hu]
      exact ⟨.range, by rw [decide_eq_true (show 34 + clientHdr m + l.toNat > s.params.bufSize by omega)]; rfl, rfl⟩

/-! ## Every command -/

/-- The body of each command. -/
def body (i : Instr) (s : State) : Except Err State :=
  match i with
  | .initAddr => initAddrBody s
  | .checksum k l => checksumBody k l s
  | .isArpForMe l => isArpForMeBody l s
  | .isIpForMe l => isIpForMeBody l s
  | .classify l => classifyBody l s
  | .swapEth => swapEthBody s
  | .swapIp => swapIpBody s
  | .fillIpCsum => fillIpChecksum s
  | .newIpHdrTcp l => newIpHdrTcpBody l s
  | .arpReply => arpReplyBody s
  | .arpRequest => arpRequestBody s
  | .isArpReplyForMe => isArpReplyForMeBody s
  | .echoReply l => echoReplyBody l s
  | .udpReply l => udpReplyBody l s
  | .buildTcpHdr m c => buildTcpHdrBody m c s
  | .tcpSynack => tcpSynackBody s
  | .tcpAckFromAny => tcpAckFromAnyBody s
  | .tcpAckWithData l => tcpAckWithDataBody l s
  | .tcpRespondData l => tcpRespondDataBody l s
  | .tcpClient m z l => tcpClientBody m z l s
  | .inboundInfo => inboundInfoBody s
  | .getDataOffset => getDataOffsetBody s
  | .getDataLen => getDataLenBody s

/-- Every command runs its body and ends as `finish` says. -/
theorem exec_eq (i : Instr) (s : State) : exec i s = finish i s (body i s) := by cases i <;> rfl

theorem cases_body (hp : 64 ≤ s.params.bufSize) {i : Instr} (hi : i.wellFormed = true) : Cases i s (body i s) := by
  cases i with
  | initAddr => exact cases_initAddr
  | checksum k l => exact cases_checksum hi
  | isArpForMe l => exact cases_isArpForMe hp
  | isIpForMe l => exact cases_isIpForMe hp
  | classify l => exact cases_classify hp
  | swapEth => exact cases_swapEth hp
  | swapIp => exact cases_swapIp hp
  | fillIpCsum => exact cases_fillIpCsum hp
  | newIpHdrTcp l => exact cases_newIpHdrTcp hp
  | arpReply => exact cases_arpReply hp
  | arpRequest => exact cases_arpRequest hp
  | isArpReplyForMe => exact cases_isArpReplyForMe hp
  | echoReply l => exact cases_echoReply hp
  | udpReply l => exact cases_udpReply hp
  | buildTcpHdr m c => exact cases_buildTcpHdr hp
  | tcpSynack => exact cases_tcpSynack hp
  | tcpAckFromAny => exact cases_tcpAckFromAny hp
  | tcpAckWithData l => exact cases_tcpAckWithData hp
  | tcpRespondData l => exact cases_tcpRespondData hp
  | tcpClient m z l => exact cases_tcpClient hp
  | inboundInfo => exact cases_inboundInfo hp
  | getDataOffset => exact cases_getDataOffset hp
  | getDataLen => exact cases_getDataLen hp

/-- The first error that applies up front is the one latched (R367). -/
theorem exec_upFront (hp : 64 ≤ s.params.bufSize) {i : Instr} (hi : i.wellFormed = true) {c : Byte}
    (hu : upFrontError s i = some c) : exec i s = .next (latched s c (encode i)) := by
  have h := cases_body hp hi
  simp only [Cases, hu] at h
  obtain ⟨e, he, rfl⟩ := h
  rw [exec_eq]
  exact finish_error he

/-- With no error up front a command latches UNDEF, or it runs: then `Done` says what may have changed, and every byte
the command reads was defined. -/
theorem exec_runs (hp : 64 ≤ s.params.bufSize) {i : Instr} (hi : i.wellFormed = true) (hu : upFrontError s i = none) :
    exec i s = .next (latched s 0x05 (encode i)) ∨ ∃ t, exec i s = .next t ∧ Done i s t ∧ Readable s i := by
  have h := cases_body hp hi
  simp only [Cases, hu] at h
  rw [exec_eq]
  rcases h with h | ⟨t, ht, hd, hr⟩
  · exact .inl (finish_error h)
  · exact .inr ⟨_, finish_ok ht, hd, hr⟩

/-- The inversion of `exec`: an error was latched, or the command ran. -/
theorem exec_next (hp : 64 ≤ s.params.bufSize) {i : Instr} (hi : i.wellFormed = true) {t : State}
    (h : exec i s = .next t) :
    (∃ c, t = latched s c (encode i) ∧ (upFrontError s i = some c ∨ c = 0x05)) ∨ (Done i s t ∧ Readable s i) := by
  cases hu : upFrontError s i with
  | some c =>
    rw [exec_upFront hp hi hu] at h
    cases h
    exact .inl ⟨c, rfl, .inl rfl⟩
  | none =>
    rcases exec_runs hp hi hu with h' | ⟨t', h', hd, hr⟩
    · rw [h'] at h; cases h; exact .inl ⟨_, rfl, .inr rfl⟩
    · rw [h'] at h; cases h; exact .inr ⟨hd, hr⟩

/-- Every command answers a next state. -/
theorem exec_total (i : Instr) (s : State) : ∃ t, exec i s = .next t := by
  rw [exec_eq]
  cases body i s with
  | ok t => exact ⟨_, finish_ok rfl⟩
  | error e => exact ⟨_, finish_error rfl⟩

end Sys2Proof.Laws
end

