-- ==== Sys2Proof/Laws/HostCalls.lean ====
section
/-! SUPPORT. What each piece of the assembler accepts (R121), said once. -/

namespace Sys2Proof.Laws

open Sys2Proof.Machine

theorem asmLength_eq {n : Nat} {l : Half} : asmLength n = some l ↔ n = l.toNat := by
  unfold asmLength
  constructor
  · intro h
    split at h
    · cases h; simp; omega
    · cases h
  · rintro rfl
    rw [if_pos l.isLt, BitVec.ofNat_toNat, BitVec.setWidth_eq]

theorem asmPlain_eq {i j : Instr} {f : AsmFields} : asmPlain j f = some i ↔ f = {} ∧ j = i := by
  unfold asmPlain; split <;> simp_all

theorem asmLengthOnly_eq {mk : Half → Instr} {f : AsmFields} {i : Instr} :
    asmLengthOnly mk f = some i ↔ ∃ l : Half, f = { l := some l.toNat } ∧ mk l = i := by
  unfold asmLengthOnly
  split
  · simp only [Option.map_eq_some_iff, asmLength_eq, AsmFields.mk.injEq, and_true, Option.some.injEq]
  · rename_i h
    simp only [reduceCtorEq, false_iff, not_exists, not_and]
    exact fun l hl => absurd hl (h _)

theorem asmChecksum_eq {f : AsmFields} {i : Instr} :
    asmChecksum f = some i ↔ ∃ (k : Kind) (l : Half), k ≠ .reserved ∧ f = { l := some l.toNat, k := some k } ∧
      .checksum k l = i := by
  unfold asmChecksum
  split
  · rename_i n k
    split
    · rename_i hk
      simp only [reduceCtorEq, AsmFields.mk.injEq, Option.some.injEq, false_iff, not_exists, not_and]
      rintro k' l hk' ⟨-, rfl, -⟩
      exact absurd hk hk'
    · rename_i hk
      simp only [Option.map_eq_some_iff, asmLength_eq, AsmFields.mk.injEq, Option.some.injEq, and_true]
      constructor
      · rintro ⟨l, rfl, rfl⟩; exact ⟨k, l, hk, ⟨rfl, rfl⟩, rfl⟩
      · rintro ⟨k', l, -, ⟨rfl, rfl⟩, rfl⟩; exact ⟨l, rfl, rfl⟩
  · rename_i h
    simp only [reduceCtorEq, false_iff, not_exists, not_and]
    exact fun k l _ hl => absurd hl (h _ _)

theorem asmBuildTcpHdr_eq {f : AsmFields} {i : Instr} :
    asmBuildTcpHdr f = some i ↔ ∃ m s : Bool, f = { m := m, s := s } ∧ .buildTcpHdr m s = i := by
  unfold asmBuildTcpHdr
  split
  · rename_i m s
    constructor
    · rintro ⟨⟩; exact ⟨m, s, rfl, rfl⟩
    · rintro ⟨m', s', ⟨⟩, rfl⟩; rfl
  · rename_i h
    simp only [reduceCtorEq, false_iff, not_exists, not_and]
    exact fun m s hl => absurd hl (h _ _)

theorem asmTcpClient_eq {f : AsmFields} {i : Instr} :
    asmTcpClient f = some i ↔ ∃ (m z : Bool) (l : Half), f = { l := some l.toNat, m := m, z := z } ∧
      .tcpClient m z l = i := by
  unfold asmTcpClient
  split
  · rename_i n m z
    simp only [Option.map_eq_some_iff, asmLength_eq, AsmFields.mk.injEq, Option.some.injEq, true_and]
    constructor
    · rintro ⟨l, rfl, rfl⟩; exact ⟨m, z, l, ⟨rfl, rfl, rfl⟩, rfl⟩
    · rintro ⟨m', z', l, ⟨rfl, rfl, rfl⟩, rfl⟩; exact ⟨l, rfl, rfl⟩
  · rename_i h
    simp only [reduceCtorEq, false_iff, not_exists, not_and]
    exact fun m z l hl => absurd hl (h _ _ _)

end Sys2Proof.Laws
end

