-- ==== Sys2Proof/Laws/HostPort.lean ====
section
/-! SUPPORT. What a move of the host or of the link can do, said once: every move but a write of CMD and reset changes
a few named elements only. -/

namespace Sys2Proof.Laws

open Sys2Proof.Machine Sys2Proof.Safety

/-- A move changes at most the record of reads, the argument registers and the moves to come. -/
structure OnlyPort (s t : State) : Prop where
  eq : t = { s with
    reads := t.reads, host := t.host, argOff := t.argOff, argPort := t.argPort, argSport := t.argSport
    argFlags := t.argFlags, argAck := t.argAck, argMacHi := t.argMacHi, argMacLo := t.argMacLo, argIp := t.argIp }

theorem hostReg_cmd {n : Nat} (h : n ≠ 0) : hostReg n ≠ some .cmd := by
  unfold hostReg; split <;> simp_all

theorem hostReg_status {n : Nat} (h : n ≠ 1) : hostReg n ≠ some .status := by
  unfold hostReg; split <;> simp_all

/-- Every register but STATUS reads the same with and without a latched fault. -/
theorem regRead_setFault {n : Nat} (s : State) (b : Bool) (h : n ≠ 1) :
    regRead n { s with fault := b } = regRead n s := by
  unfold regRead
  cases hr : hostReg n with
  | none => rfl
  | some r => cases r <;> first | rfl | exact absurd hr (hostReg_status h)

/-- The inversion of `runMove`. -/
theorem runMove_next {s t : State} {e : HostMove} (h : runMove e s = .next t) :
    (∃ w, e = .regWrite 0 w ∧ writeCmd w s = .next t) ∨ (e = .reset ∧ t = s.doReset) ∨
    (∃ bytes, e = .rx bytes ∧ t = deposit bytes s) ∨ OnlyPort s t ∨
    (∃ i b, e = .fbWrite i b ∧ i < s.params.bufSize ∧ t = { s with fb := s.fb.write i b }) ∨
    ∃ i b, e = .pbWrite i b ∧ i < s.params.pbSize ∧ t = { s with pb := s.pb.write i b } := by
  cases e with
  | regWrite n v =>
    by_cases h0 : n = 0
    · subst h0; exact .inl ⟨v, rfl, h⟩
    · right; right; right; left
      simp only [runMove, regWrite] at h
      have hn := hostReg_cmd h0
      split at h
      all_goals first | contradiction | (cases h; exact ⟨rfl⟩)
  | reset => cases h; exact .inr (.inl ⟨rfl, rfl⟩)
  | rx bytes => cases h; exact .inr (.inr (.inl ⟨bytes, rfl, rfl⟩))
  | fbWrite i b =>
    simp only [runMove, hostFbWrite] at h
    split at h
    · cases h; exact .inr (.inr (.inr (.inr (.inl ⟨i, b, rfl, ‹_›, rfl⟩))))
    · cases h
  | pbWrite i b =>
    simp only [runMove, hostPbWrite] at h
    split at h
    · cases h; exact .inr (.inr (.inr (.inr (.inr ⟨i, b, rfl, ‹_›, rfl⟩))))
    · cases h
  | _ =>
    simp only [runMove, giveHost, hostIf] at h
    split at h
    · cases h; exact .inr (.inr (.inr (.inl ⟨rfl⟩)))
    · cases h

end Sys2Proof.Laws
end

