-- ==== Sys2Proof/Laws/PerInstr.lean ====
section
/-! SUPPORT. One law per command (LAWS.json): its word lies in its row of the opcode table, and the row reads the
command back from it. -/

namespace Sys2Proof.Laws

/-! ## The fields of a command word -/

/-- Every bit of a command word (R111). -/
theorem getLsbD_cmdWord (l : Half) (k : BitVec 2) (z s m : Bool) (op : BitVec 6) (j : Nat) :
    (cmdWord l k z s m op).getLsbD j =
      if j < 6 then op.getLsbD j else if j = 6 then m else if j = 7 then s else if j = 8 then z
      else if j < 11 then k.getLsbD (j - 9) else if j < 16 then false else l.getLsbD (j - 16) := by
  have h : (cmdWord l k z s m op).getLsbD j = BitVec.getLsbD (w := 16 + 5 + 2 + 1 + 1 + 1 + 6)
      (l ++ 0#5 ++ k ++ BitVec.ofBool z ++ BitVec.ofBool s ++ BitVec.ofBool m ++ op) j := rfl
  rw [h]
  simp only [BitVec.getLsbD_append, BitVec.getLsbD_ofBool, Nat.sub_sub, BitVec.getLsbD_zero]
  by_cases h1 : j < 6
  · simp [h1]
  · by_cases h2 : j < 9
    · interval_cases j <;> simp_all
    · simp only [h1, if_false, show ¬ j = 6 by omega, show ¬ j = 7 by omega, show ¬ j = 8 by omega,
        show ¬ j - 6 < 1 by omega, show ¬ j - (6 + 1) < 1 by omega, show ¬ j - (6 + 1 + 1) < 1 by omega]
      by_cases h3 : j < 11
      · simp [h3, show j - 9 < 2 by omega]
      · by_cases h4 : j < 16
        · simp [h3, h4, show ¬ j - 9 < 2 by omega, show j - 11 < 5 by omega]
        · simp [h3, h4, show ¬ j - 9 < 2 by omega, show ¬ j - 11 < 5 by omega]

theorem opField_cmdWord (l : Half) (k : BitVec 2) (z s m : Bool) (op : BitVec 6) :
    opField (cmdWord l k z s m op) = op := by
  ext j hj
  simp [opField, getLsbD_cmdWord, hj]

theorem mField_cmdWord (l : Half) (k : BitVec 2) (z s m : Bool) (op : BitVec 6) :
    mField (cmdWord l k z s m op) = m := by rw [mField, getLsbD_cmdWord]; rfl

theorem sField_cmdWord (l : Half) (k : BitVec 2) (z s m : Bool) (op : BitVec 6) :
    sField (cmdWord l k z s m op) = s := by rw [sField, getLsbD_cmdWord]; rfl

theorem zField_cmdWord (l : Half) (k : BitVec 2) (z s m : Bool) (op : BitVec 6) :
    zField (cmdWord l k z s m op) = z := by rw [zField, getLsbD_cmdWord]; rfl

theorem kField_cmdWord (l : Half) (k : BitVec 2) (z s m : Bool) (op : BitVec 6) :
    kField (cmdWord l k z s m op) = k := by
  ext j hj
  simp only [kField, BitVec.getElem_extractLsb', getLsbD_cmdWord]
  interval_cases j <;> simp

theorem lField_cmdWord (l : Half) (k : BitVec 2) (z s m : Bool) (op : BitVec 6) :
    lField (cmdWord l k z s m op) = l := by
  ext j hj
  simp only [lField, BitVec.getElem_extractLsb', getLsbD_cmdWord]
  simp [show ¬ 16 + j < 6 by omega, show ¬ 16 + j = 6 by omega, show ¬ 16 + j = 7 by omega, show ¬ 16 + j = 8 by omega,
    show ¬ 16 + j < 11 by omega, hj]

theorem ofBits_bits (k : Kind) : Kind.ofBits k.bits = k := by cases k <;> rfl

/-- The mask that leaves only L free keeps the rest of the word. -/
theorem lengthWord_mask (l : Half) (op : BitVec 6) : lengthWord l op &&& 0x0000FFFF = lengthWord 0 op := by
  refine BitVec.eq_of_getLsbD_eq fun j hj => ?_
  rw [BitVec.getLsbD_and, lengthWord, lengthWord, getLsbD_cmdWord, getLsbD_cmdWord]
  interval_cases j <;> simp

theorem checksumWord_mask (l : Half) (k : BitVec 2) :
    cmdWord l k false false false 0x02 &&& 0x0000F9FF = 0x02 := by
  refine BitVec.eq_of_getLsbD_eq fun j hj => ?_
  rw [BitVec.getLsbD_and, getLsbD_cmdWord]
  interval_cases j <;> simp

theorem clientWord_mask (l : Half) (z m : Bool) : cmdWord l 0 z false m 0x14 &&& 0x0000FEBF = 0x14 := by
  refine BitVec.eq_of_getLsbD_eq fun j hj => ?_
  rw [BitVec.getLsbD_and, getLsbD_cmdWord]
  interval_cases j <;> simp

/-! ## The law -/

/-- The command's word selects a row, matches it, and the row reads the command back. -/
def OpcodeRow.Statement (i : Instr) : Prop :=
  ∃ r, rowOf (opField (encode i)) = some r ∧ encode i &&& r.mask = r.pattern ∧ r.build (encode i) = i

/-- A row with the field L alone. -/
theorem OpcodeRow.ofLength {mnemonic : String} {f : Half → Instr} {op : BitVec 6} {l : Half}
    (he : encode (f l) = lengthWord l op)
    (hr : rowOf op = some (lengthRow mnemonic (lengthWord 0 op) f)) : OpcodeRow.Statement (f l) := by
  refine ⟨lengthRow mnemonic (lengthWord 0 op) f, ?_, ?_, ?_⟩
  · rw [he, lengthWord, opField_cmdWord, hr]
  · rw [he]; exact lengthWord_mask l op
  · rw [he]; exact congrArg f (lField_cmdWord ..)

theorem OpcodeRow.initAddr : OpcodeRow.Statement .initAddr := ⟨_, rfl, rfl, rfl⟩

theorem OpcodeRow.checksum (k : Kind) (l : Half) : OpcodeRow.Statement (.checksum k l) := by
  refine ⟨⟨"CHECKSUM", 0x0000F9FF, 0x02, fun w => .checksum (Kind.ofBits (kField w)) (lField w)⟩, ?_,
    checksumWord_mask l k.bits, ?_⟩
  · rw [encode, opField_cmdWord]; rfl
  · simp only [encode, kField_cmdWord, lField_cmdWord, ofBits_bits]

theorem OpcodeRow.isArpForMe (l : Half) : OpcodeRow.Statement (.isArpForMe l) := ofLength (op := 0x03) rfl rfl

theorem OpcodeRow.isIpForMe (l : Half) : OpcodeRow.Statement (.isIpForMe l) := ofLength (op := 0x04) rfl rfl

theorem OpcodeRow.classify (l : Half) : OpcodeRow.Statement (.classify l) := ofLength (op := 0x05) rfl rfl

theorem OpcodeRow.swapEth : OpcodeRow.Statement .swapEth := ⟨_, rfl, rfl, rfl⟩

theorem OpcodeRow.swapIp : OpcodeRow.Statement .swapIp := ⟨_, rfl, rfl, rfl⟩

theorem OpcodeRow.fillIpCsum : OpcodeRow.Statement .fillIpCsum := ⟨_, rfl, rfl, rfl⟩

theorem OpcodeRow.newIpHdrTcp (l : Half) : OpcodeRow.Statement (.newIpHdrTcp l) := ofLength (op := 0x09) rfl rfl

theorem OpcodeRow.arpReply : OpcodeRow.Statement .arpReply := ⟨_, rfl, rfl, rfl⟩

theorem OpcodeRow.arpRequest : OpcodeRow.Statement .arpRequest := ⟨_, rfl, rfl, rfl⟩

theorem OpcodeRow.isArpReplyForMe : OpcodeRow.Statement .isArpReplyForMe := ⟨_, rfl, rfl, rfl⟩

theorem OpcodeRow.echoReply (l : Half) : OpcodeRow.Statement (.echoReply l) := ofLength (op := 0x0D) rfl rfl

theorem OpcodeRow.udpReply (l : Half) : OpcodeRow.Statement (.udpReply l) := ofLength (op := 0x0E) rfl rfl

theorem OpcodeRow.buildTcpHdr (m s : Bool) : OpcodeRow.Statement (.buildTcpHdr m s) := by
  cases m <;> cases s <;> exact ⟨_, rfl, rfl, rfl⟩

theorem OpcodeRow.tcpSynack : OpcodeRow.Statement .tcpSynack := ⟨_, rfl, rfl, rfl⟩

theorem OpcodeRow.tcpAckFromAny : OpcodeRow.Statement .tcpAckFromAny := ⟨_, rfl, rfl, rfl⟩

theorem OpcodeRow.tcpAckWithData (l : Half) : OpcodeRow.Statement (.tcpAckWithData l) :=
  ofLength (op := 0x12) rfl rfl

theorem OpcodeRow.tcpRespondData (l : Half) : OpcodeRow.Statement (.tcpRespondData l) :=
  ofLength (op := 0x13) rfl rfl

theorem OpcodeRow.tcpClient (m z : Bool) (l : Half) : OpcodeRow.Statement (.tcpClient m z l) := by
  refine ⟨⟨"TCP_CLIENT", 0x0000FEBF, 0x14, fun w => .tcpClient (mField w) (zField w) (lField w)⟩, ?_,
    clientWord_mask l z m, ?_⟩
  · rw [encode, opField_cmdWord]; rfl
  · simp only [encode, mField_cmdWord, zField_cmdWord, lField_cmdWord]

theorem OpcodeRow.inboundInfo : OpcodeRow.Statement .inboundInfo := ⟨_, rfl, rfl, rfl⟩

theorem OpcodeRow.getDataOffset : OpcodeRow.Statement .getDataOffset := ⟨_, rfl, rfl, rfl⟩

theorem OpcodeRow.getDataLen : OpcodeRow.Statement .getDataLen := ⟨_, rfl, rfl, rfl⟩

end Sys2Proof.Laws
end

