-- ==== Sys2Proof/Laws/Ready.lean ====
section
/-! SUPPORT. The bytes a command reads lie inside its buffers when its length checks pass, so a command without an error
up front is ready on full buffers. -/

namespace Sys2Proof.Laws

open Sys2Proof.Machine Sys2Proof.Safety

theorem upFront_none {s : State} {i : Instr} (h : upFrontError s i = none) :
    (needsAck i = true → s.ackBuilt = true) ∧ (needsIdentity i = true → s.identity.isSome = true) ∧
    (i = .initAddr → s.identity = none) ∧ argsSet s i = true ∧ badLength i = false ∧ lengthsFit s i = true := by
  unfold upFrontError at h
  repeat (split at h; · cases h)
  simp_all [Option.isSome_iff_ne_none]

theorem upFront_of {s : State} {i : Instr} (h1 : needsAck i = true → s.ackBuilt = true)
    (h2 : needsIdentity i = true → s.identity.isSome = true) (h3 : i = .initAddr → s.identity = none)
    (h4 : argsSet s i = true) (h5 : badLength i = false) (h6 : lengthsFit s i = true) : upFrontError s i = none := by
  unfold upFrontError
  rw [if_neg, if_neg, if_neg, if_neg, if_neg, if_neg]
  all_goals simp_all [Option.isSome_iff_ne_none]

/-- A command reads no byte outside FB. -/
theorem readsFb_lt {s : State} {i : Instr} {a : Nat} (hp : 64 ≤ s.params.bufSize) (hl : lengthsFit s i = true)
    (h : readsFb s i a = true) : a < s.params.bufSize := by
  cases i <;> simp [readsFb, lengthsFit, within, arpTestReads, ipTestReads, udpLength] at h hl ⊢ <;> omega

/-- A command reads no byte outside PB. -/
theorem readsPb_lt {s : State} {i : Instr} {a : Nat} (hl : lengthsFit s i = true) (h : readsPb i a = true) :
    a < s.params.pbSize := by
  cases i <;> simp [readsPb, lengthsFit, udpLength] at h hl ⊢ <;> omega

/-- On full buffers a command without an error up front is ready. -/
theorem ready_of_full {s : State} {i : Instr} (hp : 64 ≤ s.params.bufSize) (hi : i.wellFormed = true)
    (hu : upFrontError s i = none) (hf : Defined s.fb 0 s.params.bufSize) (hb : Defined s.pb 0 s.params.pbSize) :
    Ready s i := by
  obtain ⟨-, -, -, -, -, hl⟩ := upFront_none hu
  refine ⟨hi, hu, fun a ha => ?_, fun a ha => ?_⟩
  · simpa using hf a (readsFb_lt hp hl ha)
  · simpa using hb a (readsPb_lt hl ha)

end Sys2Proof.Laws
end

