-- ==== Sys2Proof/Laws/Replies.lean ====
section
/-! SUPPORT. The helpers of the UDP, ICMP and TCP commands: the buffer each leaves where the bytes it reads are
defined, and what every byte of that buffer is. -/

namespace Sys2Proof.Laws

open Sys2Proof.Machine Sys2Proof.Safety

/-! ## The payload copy (R260, R286) -/

theorem forEach_append (body : Nat → State → Except Err State) (l l' : List Nat) (s : State) :
    forEach body (l ++ l') s = forEach body l s >>= forEach body l' := by
  induction l generalizing s with
  | nil => rfl
  | cons i is ih =>
    simp only [List.cons_append, forEach_cons]
    cases body i s with
    | error e => rfl
    | ok t => simp [ih]

/-- The first n bytes of a buffer. -/
def bytesOf (m : Memory) (n : Nat) : List Byte := (List.range n).map fun k => byteAt m k

@[simp] theorem length_bytesOf (m : Memory) (n : Nat) : (bytesOf m n).length = n := by simp [bytesOf]

theorem getElem?_bytesOf (m : Memory) {n k : Nat} (h : k < n) : (bytesOf m n)[k]? = some (byteAt m k) := by
  simp [bytesOf, h]

theorem writeBytes_append (m : Memory) (a : Nat) (bs bs' : List Byte) :
    m.writeBytes a (bs ++ bs') = (m.writeBytes a bs).writeBytes (a + bs.length) bs' := by
  induction bs generalizing m a with
  | nil => rfl
  | cons b bs ih =>
    simp only [List.cons_append, Memory.writeBytes, List.length_cons, ih]
    rw [show a + 1 + bs.length = a + (bs.length + 1) by omega]

theorem copyPayload_ok {s : State} {m : Memory} {dst n : Nat} (hp : n ≤ s.params.pbSize)
    (hb : dst + n ≤ s.params.bufSize) (h : Defined s.pb 0 n) :
    copyPayload dst n (s.setFb m) = .ok (s.setFb (m.writeBytes dst (bytesOf s.pb n))) := by
  induction n with
  | zero => rfl
  | succ n ih =>
    have ih := ih (by omega) (by omega) (defined_sub h (by omega) (by omega))
    have hn : (s.pb.read n).isSome = true := by simpa using h n (by omega)
    rw [copyPayload] at ih ⊢
    have hsnoc : bytesOf s.pb (n + 1) = bytesOf s.pb n ++ [byteAt s.pb n] := by simp [bytesOf, List.range_succ]
    rw [List.range_succ, forEach_append, ih, bind_ok, forEach_cons,
      pbRead_ok (s := s.setFb _) (i := n) (by simpa using (by omega : n < s.params.pbSize)) (by simpa using hn), bind_ok,
      fbWrite_at (by omega), bind_ok, forEach_nil, hsnoc, writeBytes_append]
    simp [Memory.writeBytes]

/-! ## Checksums written into a field that is zero -/

/-- The buffer after a UDP or TCP checksum over n bytes from the IP source address is written at `field`. -/
def csumMem (seed n field : Nat) (m : Memory) : Memory := put2 m field (ocChecksum (seed + wordSum m 26 n))

theorem fillTcpChecksum_ok {s : State} {m : Memory} {n : Nat} (hs : Roomy s) (hi : 26 + n ≤ s.params.bufSize)
    (h : Defined m 26 n) :
    fillTcpChecksum n (s.setFb m) = .ok (s.setFb (csumMem (checksumSeed .tcp n) n 50 m)) := by
  have hc := ocChecksum_lt (checksumSeed .tcp n + wordSum m 26 n)
  simp [fillTcpChecksum, inetChecksum_at hi h, memWrite_low, hs, csumMem, Nat.mod_eq_of_lt hc]

theorem read_csumMem {seed n field : Nat} {m : Memory} {a : Nat} (h1 : a ≠ field) (h2 : a ≠ field + 1) :
    (csumMem seed n field m).read a = m.read a := by
  rw [csumMem, read_put2, if_neg (by omega), if_neg (by omega)]

theorem isSome_csumMem {seed n field : Nat} {m : Memory} {b : Nat} (h : (m.read b).isSome = true) :
    ((csumMem seed n field m).read b).isSome = true := isSome_put2 h

theorem csumField_csumMem {seed n field : Nat} {m : Memory} (h1 : 26 ≤ field) (h2 : field + 2 ≤ 26 + n)
    (heven : (field - 26) % 2 = 0) (hz : beAt m field 2 = 0) :
    CsumField (csumMem seed n field m) seed 26 n field := csumField_put2 h1 h2 heven hz

/-- Writing outside a checksummed range leaves its checksum in place. -/
theorem CsumField.congr {m m' : Memory} {seed a n f : Nat} (h : CsumField m seed a n f) (h1 : a ≤ f)
    (h2 : f + 2 ≤ a + n) (heq : ∀ b, a ≤ b → b < a + n → m'.read b = m.read b) : CsumField m' seed a n f := by
  have hb : ∀ b, a ≤ b → b < a + n → byteAt m' b = byteAt m b := fun b hb1 hb2 => by simp [byteAt, heq b hb1 hb2]
  refine ⟨fun k hk => ?_, ?_⟩
  · rw [heq _ (by omega) (by omega)]; exact h.1 k hk
  · have hf : beAt m' f 2 = beAt m f 2 := by
      rw [beAt_two, beAt_two, hb _ (by omega) (by omega), hb _ (by omega) (by omega)]
    rw [hf, wordSum_congr fun k hk => hb (a + k) (by omega) (by omega)]
    exact h.2

/-! ## The ICMP checksum update (R240) -/

/-- The buffer after the incremental update. -/
def icmpMem (m : Memory) : Memory :=
  (if byteAt m 36 > 0xF7 then m.write 37 (byteAt m 37 + 1) else m).write 36 (byteAt m 36 + 8)

theorem icmpCsumUpdate_ok {s : State} {m : Memory} (hs : Roomy s) (h36 : (m.read 36).isSome = true)
    (h37 : byteAt m 36 > 0xF7 → (m.read 37).isSome = true) :
    icmpCsumUpdate (s.setFb m) = .ok (s.setFb (icmpMem m)) := by
  unfold icmpCsumUpdate icmpCarry icmpMem
  by_cases hb : 247#8 < byteAt m 36
  · simp [fbRead_low, fbWrite_low, hs, h36, hb, h37 hb]
  · simp [fbRead_low, fbWrite_low, hs, h36, hb]

theorem read_icmpMem_other {m : Memory} {a : Nat} (h1 : a ≠ 36) (h2 : a ≠ 37) : (icmpMem m).read a = m.read a := by
  unfold icmpMem; split <;> simp [read_write, Ne.symm h1, Ne.symm h2]

theorem isSome_icmpMem {m : Memory} {b : Nat} (h : (m.read b).isSome = true) :
    ((icmpMem m).read b).isSome = true := by
  unfold icmpMem; split
  · exact isSome_write (isSome_write h)
  · exact isSome_write h

/-! ## The acknowledgment loop (R288, R289) -/

/-- The buffer after `ackLoop`. -/
def ackLoopMem (copySeq : Bool) : List Nat → Nat → Memory → Memory
  | [], _, m => m
  | i :: is, carry, m =>
    let t := (byteAt m (38 + i)).toNat + carry
    ackLoopMem copySeq is (t >>> 8)
      ((m.write (42 + i) (BitVec.ofNat 8 t)).write (38 + i) (if copySeq then byteAt m (42 + i) else 0x00))

/-- The buffer after the loop over the four bytes, least significant first. -/
def ackMem (copySeq : Bool) (rel : Nat) (m : Memory) : Memory := ackLoopMem copySeq [3, 2, 1, 0] rel m

theorem ackLoop_ok {s : State} {copySeq : Bool} {l : List Nat} {carry : Nat} {m : Memory} (hs : Roomy s)
    (hl : ∀ i ∈ l, i < 4) (h : Defined m 38 8) :
    ackLoop copySeq l carry (s.setFb m) = .ok (s.setFb (ackLoopMem copySeq l carry m)) := by
  induction l generalizing carry m with
  | nil => rfl
  | cons i is ih =>
    have hi := hl i (by simp)
    have h1 : (m.read (38 + i)).isSome = true := h i (by omega)
    have h2 : (m.read (42 + i)).isSome = true := by
      have := h (4 + i) (by omega); rwa [← Nat.add_assoc] at this
    simp only [ackLoop, ackLoopMem, tcpSeq, tcpAck, fbRead_low hs (show 38 + i < 64 by omega) h1,
      fbRead_low hs (show 42 + i < 64 by omega) h2, fbWrite_low hs (show 42 + i < 64 by omega),
      fbWrite_low hs (show 38 + i < 64 by omega), bind_ok]
    exact ih (fun j hj => hl j (by simp [hj])) (defined_mono h fun b hb => isSome_write (isSome_write hb))

/-- Outside the two numbers the loop changes nothing. -/
theorem read_ackMem_other {copySeq : Bool} {rel : Nat} {m : Memory} {a : Nat} (h : a < 38 ∨ 46 ≤ a) :
    (ackMem copySeq rel m).read a = m.read a := by
  simp only [ackMem, ackLoopMem, read_write]
  repeat rw [if_neg (by omega)]

/-- The sequence number becomes the old acknowledgment number, or zero (R290). -/
theorem read_ackMem_seq {copySeq : Bool} {rel : Nat} {m : Memory} {k : Nat} (h : k < 4) :
    (ackMem copySeq rel m).read (38 + k) = some (if copySeq then byteAt m (42 + k) else 0x00) := by
  interval_cases k <;> simp [ackMem, ackLoopMem]

theorem isSome_ackMem {copySeq : Bool} {rel : Nat} {m : Memory} {b : Nat} (h : (m.read b).isSome = true) :
    ((ackMem copySeq rel m).read b).isSome = true := by
  simp only [ackMem, ackLoopMem]
  repeat apply isSome_write
  exact h

theorem defined_ackMem {copySeq : Bool} {rel : Nat} {m : Memory} : Defined (ackMem copySeq rel m) 38 8 := by
  intro k hk
  interval_cases k <;> simp [ackMem, ackLoopMem]

/-- The acknowledgment law: the byte-wise loop is a 32-bit addition (R289). -/
theorem beAt_ackMem {copySeq : Bool} {rel : Nat} {m : Memory} :
    beAt (ackMem copySeq rel m) 42 4 = (beAt m 38 4 + rel) % 4294967296 := by
  simp only [beAt_four, ackMem, ackLoopMem, byteAt_write, Nat.reduceAdd, Nat.reduceEqDiff, if_true, if_false,
    BitVec.toNat_ofNat, Nat.shiftRight_eq_div_pow, Nat.reducePow]
  have := (byteAt m 38).isLt; have := (byteAt m 39).isLt; have := (byteAt m 40).isLt; have := (byteAt m 41).isLt
  omega

/-! ## buildTcpHeader (R288) -/

/-- The buffer after the two ports are exchanged. -/
def swapPorts (m : Memory) : Memory := put2 (put2 m 34 (beAt m 36 2)) 36 (beAt m 34 2)

/-- The buffer after the fresh sequence number is written. -/
def freshSeqMem (isn : Byte) (m : Memory) : Memory := m.writeBytes 38 [0x00, 0x00, isn, 0x00]

/-- The end of `buildTcpHeader`: checksum field, header length, MSS option. -/
def tcpTail (mss : Bool) (m : Memory) : Memory :=
  if mss then ((put2 m 50 0).write 46 0x60).writeBytes 54 mssOption else (put2 m 50 0).write 46 0x50

/-- The buffer after `buildTcpHeader(rel, mss, copySeq)`. -/
def buildTcpMem (isn : Byte) (rel : Nat) (mss copySeq : Bool) (m : Memory) : Memory :=
  let m := ackMem copySeq rel (swapPorts m)
  tcpTail mss (if copySeq then m else freshSeqMem isn m)

/-- The state `buildTcpHeader` leaves beside FB: ISN moves on when the sequence number is fresh (R290). -/
def isnAfter (copySeq : Bool) (s : State) : State := if copySeq then s else s.bumpIsn

theorem buildTcpHeader_ok {s : State} {m : Memory} {rel : Nat} {mss copySeq : Bool} (hs : Roomy s)
    (h : Defined m 34 12) :
    buildTcpHeader rel mss copySeq (s.setFb m) = .ok ((isnAfter copySeq s).setFb (buildTcpMem s.isn rel mss copySeq m)) := by
  have hd : Defined (swapPorts m) 38 8 :=
    defined_mono (defined_sub h (by omega) (by omega)) fun b hb => isSome_put2 (isSome_put2 hb)
  have hp : ∀ m' : Memory, ackLoop copySeq [3, 2, 1, 0] rel (s.setFb (swapPorts m))
      = .ok (s.setFb (ackMem copySeq rel (swapPorts m))) := fun _ => ackLoop_ok hs (by decide) hd
  have h1 := memRead_at (s := s) (m := m) (a := 34) (n := 2) (by omega) (defined_sub h (by omega) (by omega))
  have h2 := memRead_at (s := s) (m := m) (a := 36) (n := 2) (by omega) (defined_sub h (by omega) (by omega))
  have hsp : put2 (put2 m 34 (beAt m 36 2)) 36 (beAt m 34 2) = swapPorts m := rfl
  have hopt : ∀ (s : State) (m' : Memory), Roomy s →
      (s.setFb m').fbWriteBytes 54 mssOption = .ok (s.setFb (m'.writeBytes 54 mssOption)) :=
    fun s m' hs => fbWriteBytes_at (by simp; omega)
  cases copySeq <;> cases mss <;>
    simp [buildTcpHeader, seqStep, mssStep, buildTcpMem, isnAfter, tcpTail, freshSeq, freshSeqMem, h1, h2, memWrite_low, hs, hsp, hp m,
      fbWriteBytes_at, fbWrite_low, hopt, show 42 ≤ s.params.bufSize by omega]

theorem read_swapPorts {m : Memory} (h : Defined m 34 4) (a : Nat) : (swapPorts m).read a =
    if a = 34 ∨ a = 35 then m.read (a + 2) else if a = 36 ∨ a = 37 then m.read (a - 2) else m.read a := by
  have h0 := read_of_isSome (h 0 (by omega)); have h1 := read_of_isSome (h 1 (by omega))
  have h2 := read_of_isSome (h 2 (by omega)); have h3 := read_of_isSome (h 3 (by omega))
  simp only [Nat.reduceAdd] at h0 h1 h2 h3
  have hi : ∀ x y : Byte, BitVec.ofNat 8 ((x.toNat * 256 + y.toNat) >>> 8) = x := fun x y =>
    BitVec.eq_of_toNat_eq (by have := y.isLt; have := x.isLt; simp [Nat.shiftRight_eq_div_pow]; omega)
  have lo : ∀ x y : Byte, BitVec.ofNat 8 (x.toNat * 256 + y.toNat) = y := fun x y =>
    BitVec.eq_of_toNat_eq (by have := y.isLt; simp; omega)
  by_cases ha : 34 ≤ a ∧ a < 38
  · obtain ⟨ha1, ha2⟩ := ha
    interval_cases a <;> simp [swapPorts, read_put2, beAt_two, *]
  · simp only [swapPorts, read_put2]
    repeat rw [if_neg (by omega)]

theorem isSome_swapPorts {m : Memory} {b : Nat} (h : (m.read b).isSome = true) :
    ((swapPorts m).read b).isSome = true := isSome_put2 (isSome_put2 h)

theorem read_tcpTail (mss : Bool) (m : Memory) (a : Nat) : (tcpTail mss m).read a =
    if a = 46 then some (if mss then 0x60 else 0x50) else if a = 50 ∨ a = 51 then some 0x00
    else if mss = true ∧ 54 ≤ a ∧ a < 58 then mssOption[a - 54]? else m.read a := by
  cases mss
  · simp only [tcpTail, read_put2, read_write, Bool.false_eq_true, if_false, false_and]
    by_cases h46 : a = 46
    · subst h46; rfl
    · rw [if_neg (by omega), if_neg h46]
      by_cases h50 : a = 50
      · subst h50; rfl
      · by_cases h51 : a = 51
        · subst h51; rfl
        · repeat rw [if_neg (by omega)]
  · simp only [tcpTail, read_put2, read_write, read_writeBytes, if_true, true_and, List.length_cons, List.length_nil]
    by_cases h54 : 54 ≤ a ∧ a < 58
    · rw [if_pos (by omega), if_neg (by omega), if_neg (by omega), if_pos h54]
    · rw [if_neg (by omega)]
      by_cases h46 : a = 46
      · subst h46; rfl
      · rw [if_neg (by omega), if_neg h46]
        by_cases h50 : a = 50
        · subst h50; rfl
        · by_cases h51 : a = 51
          · subst h51; rfl
          · repeat rw [if_neg (by omega)]

theorem read_freshSeqMem (isn : Byte) (m : Memory) (a : Nat) : (freshSeqMem isn m).read a =
    if a = 40 then some isn else if 38 ≤ a ∧ a < 42 then some 0x00 else m.read a := by
  rw [freshSeqMem, read_writeBytes]
  simp only [List.length_cons, List.length_nil]
  by_cases h : 38 ≤ a ∧ a < 42
  · obtain ⟨h1, h2⟩ := h
    interval_cases a <;> simp
  · rw [if_neg (by omega), if_neg (by omega), if_neg h]

/-- What `buildTcpHeader` leaves in every byte but the acknowledgment number (R288, R290). -/
theorem read_buildTcpMem {isn : Byte} {rel : Nat} {mss copySeq : Bool} {m : Memory} (h : Defined m 34 12) (a : Nat)
    (ha : a < 42 ∨ 46 ≤ a) : (buildTcpMem isn rel mss copySeq m).read a =
      if a = 34 ∨ a = 35 then m.read (a + 2) else if a = 36 ∨ a = 37 then m.read (a - 2)
      else if 38 ≤ a ∧ a < 42 then
        (if copySeq then m.read (a + 4) else if a = 40 then some isn else some 0x00)
      else if a = 46 then some (if mss then 0x60 else 0x50) else if a = 50 ∨ a = 51 then some 0x00
      else if mss = true ∧ 54 ≤ a ∧ a < 58 then mssOption[a - 54]? else m.read a := by
  have hp : Defined m 34 4 := defined_sub h (by omega) (by omega)
  simp only [buildTcpMem, read_tcpTail]
  by_cases h46 : a = 46
  · subst h46; simp
  rw [if_neg h46]
  by_cases h50 : a = 50 ∨ a = 51
  · rw [if_pos h50, if_neg (by omega), if_neg (by omega), if_neg (by omega), if_neg (by omega), if_pos h50]
  rw [if_neg h50]
  by_cases hm : mss = true ∧ 54 ≤ a ∧ a < 58
  · rw [if_pos hm, if_neg (by omega), if_neg (by omega), if_neg (by omega), if_neg (by omega), if_neg (by omega), if_pos hm]
  rw [if_neg hm, if_neg h46, if_neg h50, if_neg hm]
  by_cases hq : 38 ≤ a ∧ a < 42
  · obtain ⟨k, rfl⟩ : ∃ k, a = 38 + k := ⟨a - 38, by omega⟩
    rw [if_neg (show ¬(38 + k = 34 ∨ 38 + k = 35) by omega), if_neg (show ¬(38 + k = 36 ∨ 38 + k = 37) by omega),
      if_pos hq]
    cases copySeq
    · simp only [Bool.false_eq_true, if_false, read_freshSeqMem, if_pos hq]
    · simp only [if_true, read_ackMem_seq (show k < 4 by omega)]
      have hr := read_of_defined h (b := 38 + k + 4) (by omega) (by omega)
      rw [hr, byteAt, byteAt, read_swapPorts hp, if_neg (by omega), if_neg (by omega), show 42 + k = 38 + k + 4 by omega]
  · have : (if copySeq = true then ackMem copySeq rel (swapPorts m)
        else freshSeqMem isn (ackMem copySeq rel (swapPorts m))).read a = (swapPorts m).read a := by
      cases copySeq
      · simp only [Bool.false_eq_true, if_false, read_freshSeqMem]
        rw [if_neg (by omega), if_neg hq, read_ackMem_other (by omega)]
      · simp only [if_true]; rw [read_ackMem_other (by omega)]
    rw [this, read_swapPorts hp, if_neg hq]

/-- The acknowledgment law for `buildTcpHeader` (R289). -/
theorem beAt_buildTcpMem {isn : Byte} {rel : Nat} {mss copySeq : Bool} {m : Memory} (h : Defined m 34 12) :
    beAt (buildTcpMem isn rel mss copySeq m) 42 4 = (beAt m 38 4 + rel) % 4294967296 := by
  have hp : Defined m 34 4 := defined_sub h (by omega) (by omega)
  have hb : ∀ k < 4, byteAt (buildTcpMem isn rel mss copySeq m) (42 + k)
      = byteAt (ackMem copySeq rel (swapPorts m)) (42 + k) := by
    intro k hk
    simp only [byteAt, buildTcpMem, read_tcpTail]
    rw [if_neg (by omega), if_neg (by omega), if_neg (by omega)]
    cases copySeq
    · simp only [Bool.false_eq_true, if_false, read_freshSeqMem]
      rw [if_neg (by omega), if_neg (by omega)]
    · rfl
  have hs : ∀ k < 4, byteAt (swapPorts m) (38 + k) = byteAt m (38 + k) := by
    intro k hk
    rw [byteAt, read_swapPorts hp, if_neg (by omega), if_neg (by omega), byteAt]
  have e : beAt (buildTcpMem isn rel mss copySeq m) 42 4 = beAt (ackMem copySeq rel (swapPorts m)) 42 4 := by
    simp only [beAt_four, Nat.reduceAdd]
    rw [hb 0 (by omega), hb 1 (by omega), hb 2 (by omega), hb 3 (by omega)]
  have e' : beAt (swapPorts m) 38 4 = beAt m 38 4 := by
    simp only [beAt_four, Nat.reduceAdd]
    rw [hs 0 (by omega), hs 1 (by omega), hs 2 (by omega), hs 3 (by omega)]
  rw [e, beAt_ackMem, e']

theorem isSome_buildTcpMem {isn : Byte} {rel : Nat} {mss copySeq : Bool} {m : Memory} {b : Nat}
    (h : (m.read b).isSome = true) : ((buildTcpMem isn rel mss copySeq m).read b).isSome = true := by
  have ht : ∀ m' : Memory, (m'.read b).isSome = true → ((tcpTail mss m').read b).isSome = true := by
    intro m' h'; unfold tcpTail; split
    · exact isSome_writeBytes (isSome_write (isSome_put2 h'))
    · exact isSome_write (isSome_put2 h')
  refine ht _ ?_
  split
  · exact isSome_ackMem (isSome_swapPorts h)
  · exact isSome_writeBytes (isSome_ackMem (isSome_swapPorts h))

/-! ## inboundInfo (R291) -/

theorem inboundInfo_ok {s : State} {m : Memory} (hs : Roomy s) (h : Defined m 16 2) (h46 : (m.read 46).isSome = true) :
    inboundInfo (s.setFb m) = .ok (inboundLen m, inboundHdr m) := by
  have := memRead_at (s := s) (m := m) (a := 16) (n := 2) (by omega) h
  simp [inboundInfo, this, fbRead_low, hs, h46, inboundLen, inboundHdr, Nat.shiftRight_eq_div_pow]

theorem inboundHdr_le (m : Memory) : inboundHdr m ≤ 60 := by
  have := (byteAt m 46).isLt; unfold inboundHdr; omega

theorem inboundLen_le (m : Memory) : inboundLen m ≤ 65515 := by
  have := beAt_two_lt m 16; unfold inboundLen; omega

end Sys2Proof.Laws
end

