-- ==== Sys2Proof/Laws/Run.lean ====
section
/-! SUPPORT. What one step does to the model's own fields, and runs: a run is one line of states. -/

namespace Sys2Proof.Laws

open Sys2Proof.Machine Sys2Proof.Safety

theorem decode_wellFormed {w : Word} {i : Instr} (h : decode w = .ok i) : i.wellFormed = true := by
  unfold decode at h
  split at h
  · cases h
  · split at h
    · split at h
      · cases h; assumption
      · cases h
    · cases h

/-- A write of CMD leaves the parameters and the moves to come. -/
theorem writeCmd_keeps {w : Word} {s t : State} (hl : s.params.Legal) (h : writeCmd w s = .next t) :
    t.params = s.params ∧ t.host = s.host := by
  unfold writeCmd at h
  split at h
  · cases h; exact ⟨rfl, rfl⟩
  · split at h
    · cases h; exact ⟨rfl, rfl⟩
    · rename_i i hd
      rcases exec_next hl.1 (decode_wellFormed hd) h with ⟨c, rfl, -⟩ | ⟨hD, -⟩
      · exact ⟨rfl, rfl⟩
      · rw [hD.eq]; exact ⟨rfl, rfl⟩

/-- A move leaves the parameters and takes no move out but the next ones. -/
theorem runMove_keeps {e : HostMove} {s t : State} (hl : s.params.Legal) (h : runMove e s = .next t) :
    t.params = s.params ∧ t.host <:+ s.host := by
  cases e with
  | regWrite n v =>
    by_cases h0 : n = 0
    · subst h0
      obtain ⟨h1, h2⟩ := writeCmd_keeps hl (show writeCmd v s = .next t from h)
      exact ⟨h1, h2 ▸ List.suffix_refl _⟩
    · simp only [runMove, regWrite] at h
      have hn := hostReg_cmd h0
      split at h
      all_goals first | contradiction | (cases h; exact ⟨rfl, List.suffix_refl _⟩)
  | reset => cases h; exact ⟨rfl, List.suffix_refl _⟩
  | rx bytes => cases h; unfold deposit; split <;> exact ⟨rfl, List.suffix_refl _⟩
  | _ =>
    simp only [runMove, hostFbWrite, hostPbWrite, giveHost, hostIf] at h
    split at h
    all_goals first
      | cases h; done
      | cases h; exact ⟨rfl, List.suffix_refl _⟩
      | (cases h; refine ⟨rfl, ?_⟩; dsimp only; split
         · exact List.suffix_refl _
         · exact List.drop_suffix _ _)

/-- A step leaves the parameters, and the moves still to come after it are the last ones of those before. -/
theorem step_keeps {s t : State} (hl : s.params.Legal) (h : step s = .next t) :
    t.params = s.params ∧ t.host <:+ s.host := by
  unfold step nextEvent at h
  split at h
  · cases h; exact ⟨rfl, List.suffix_refl _⟩
  · rename_i e rest hh
    obtain ⟨h1, h2⟩ := runMove_keeps (s := { s with host := rest }) hl h
    exact ⟨h1, hh ▸ h2.trans (List.suffix_cons e rest)⟩

theorem step_idle {s : State} (h : s.host = []) : step s = .next s := by
  simp only [step, nextEvent, h]

/-- Two states of a run: one is reached from the other. -/
theorem reaches_linear {s t u : State} (ht : Reaches s t) (hu : Reaches s u) : Reaches t u ∨ Reaches u t := by
  induction ht with
  | here s => exact .inl hu
  | next h rest ih =>
    cases hu with
    | here => exact .inr (.next h rest)
    | next h' rest' =>
      rw [h] at h'
      cases h'
      exact ih rest'

/-- From a state with no move left only that state is reached. -/
theorem reaches_idle {s t : State} (hr : Reaches s t) (h : s.host = []) : t = s := by
  induction hr with
  | here => rfl
  | next hs _ ih =>
    rw [step_idle h] at hs
    cases hs
    exact ih h

/-- Along a run the parameters stay, and the moves to come are the last ones of those at its start. -/
theorem reaches_keeps {s t : State} (hr : Reaches s t) (hl : s.params.Legal) :
    t.params = s.params ∧ t.host <:+ s.host := by
  induction hr with
  | here => exact ⟨rfl, List.suffix_refl _⟩
  | next h _ ih =>
    obtain ⟨h1, h2⟩ := step_keeps hl h
    obtain ⟨h3, h4⟩ := ih (h1 ▸ hl)
    exact ⟨h3.trans h1, h4.trans h2⟩

end Sys2Proof.Laws
end

