-- ==== Sys2Proof/Tests/Slice0.lean ====
section
/-! SUPPORT. Tests. Expected results are those of spec/95_test_vectors.md, whose name stands in each test's name or comment,
or are worked out by hand from the rule named. Each runs one step on a small state. At the end, a witness for the hypotheses
of each statement. -/

namespace Sys2Proof.Tests

open Sys2Proof.Machine Sys2Proof.Safety Sys2Proof.Laws

/-! ## Helpers -/

/-- n bytes written as one hexadecimal number, first byte first. -/
def hex (n v : Nat) : List Byte := (List.range n).map fun k => BitVec.ofNat 8 (v >>> (8 * (n - 1 - k)))

/-- The parameters of spec/95_test_vectors.md. -/
def vecParams : Config.Params := ⟨600, 256, 0x1000, 0x0A, .never, 0x0400⟩

/-- The host identity of spec/95_test_vectors.md. -/
def hostId : Identity := ⟨0x020000000001, 0xC0A8016F⟩

/-- After reset. -/
def fresh : State := State.resetWith vecParams

/-- With the identity set. -/
def booted : State := { fresh with identity := some hostId }

/-- After the deposit of a frame. -/
def received (frame : List Byte) : State := deposit frame booted

/-- With bytes put into FB. -/
def put (a : Nat) (bytes : List Byte) (s : State) : State := { s with fb := s.fb.writeBytes a bytes }

/-- One step that writes a word to CMD. -/
def run (w : Word) (s : State) : Host.Outcome State Fault Refusal := step (s.withFetchWord 32 w.toNat)

/-- What a test looks at in a next state. -/
def seen {α : Type} (f : State → α) : Host.Outcome State Fault Refusal → Option α
  | .next t => some (f t)
  | .fault _ => none
  | .refused _ => none

/-- The transmit events of a next state. -/
def sent : Host.Outcome State Fault Refusal → Option (List (List Byte)) := seen fun s => s.tx.map Tx.bytes

/-- Bytes of FB in a next state. -/
def fbIs (a : Nat) (bytes : List Byte) : Host.Outcome State Fault Refusal → Option Bool :=
  seen fun s => decide ((List.range bytes.length).map (fun k => s.fb.read (a + k)) = bytes.map some)

def frameCL1 : List Byte :=
  hex 14 0xFFFFFFFFFFFFAABBCCDDEEFF0806 ++
  hex 28 0x0001080006040001AABBCCDDEEFFC0A8010A000000000000C0A8016F

def frameAR1 : List Byte :=
  hex 14 0xAABBCCDDEEFF0200000000010806 ++
  hex 28 0x0001080006040002020000000001C0A8016FAABBCCDDEEFFC0A8010A

def frameAR3 : List Byte :=
  hex 14 0xFFFFFFFFFFFF0200000000010806 ++
  hex 28 0x0001080006040001020000000001C0A8016F000000000000C0A8010A

def frameIC1 : List Byte :=
  hex 14 0x020000000001AABBCCDDEEFF0800 ++
  hex 20 0x450000201C46400040019ACDC0A8010AC0A8016F ++
  hex 12 0x080033370001000161626364

def frameIC1o : List Byte :=
  hex 14 0xAABBCCDDEEFF0200000000010800 ++
  hex 20 0x450000201C46400040019ACDC0A8016FC0A8010A ++
  hex 12 0x00003B370001000161626364

def frameUD1 : List Byte :=
  hex 14 0x020000000001AABBCCDDEEFF0800 ++
  hex 20 0x4500001E1C46400040119ABFC0A8010AC0A8016F ++
  hex 10 0x13880007000A00186869

def frameUD1o : List Byte :=
  hex 14 0xAABBCCDDEEFF0200000000010800 ++
  hex 20 0x4500001F1C46400040119ABEC0A8016FC0A8010A ++
  hex 11 0x13881388000BE4B24F4B21

def frameTC1 : List Byte :=
  hex 14 0x020000000001AABBCCDDEEFF0800 ++
  hex 20 0x450000281C46400040069AC0C0A8010AC0A8016F ++
  hex 20 0xC0000050000003E8000000005002FAF06CEF0000

def frameTC2 : List Byte :=
  hex 14 0xAABBCCDDEEFF0200000000010800 ++
  hex 20 0x4500002C1C46400040069ABCC0A8016FC0A8010A ++
  hex 24 0x0050C00000000A00000003E96012FAF04B56000002040580

def frameTC3 : List Byte :=
  hex 14 0x020000000001AABBCCDDEEFF0800 ++
  hex 20 0x4500002D1C47400040069ABAC0A8010AC0A8016F ++
  hex 25 0xC0000050000003E900000A015018FAF0986C0000474554202F

def frameTC4 : List Byte :=
  hex 14 0xAABBCCDDEEFF0200000000010800 ++
  hex 20 0x450000281C47400040069ABFC0A8016FC0A8010A ++
  hex 20 0x0050C00000000A01000003EE5010FAF062DA0000

def frameTC5 : List Byte :=
  hex 14 0xAABBCCDDEEFF0200000000010800 ++
  hex 20 0x4500002A1C47400040069ABDC0A8016FC0A8010A ++
  hex 22 0x0050C00000000A01000003EE5019FAF0138400004F4B

def frameTC7o : List Byte :=
  hex 14 0x0011223344550200000000010800 ++
  hex 20 0x4500002C010040004006B60BC0A8016FC0A80101 ++
  hex 24 0xC3500050123456780000000060020400E44C000002040580

def frameTC8 : List Byte :=
  hex 14 0x0200000000010011223344550800 ++
  hex 20 0x4500002C020040004006B50BC0A80101C0A8016F ++
  hex 24 0x0050C350000050001234567960122000783B000002040580

def frameTC8o : List Byte :=
  hex 14 0x0011223344550200000000010800 ++
  hex 20 0x4500002B010140004006B60BC0A8016FC0A80101 ++
  hex 23 0xC3500050123456790000500150182000F4730000474554

/-! ## Well-formedness and decoding (R111 to R119) -/

theorem test_kind3_is_refused : (Instr.checksum .reserved 0).wellFormed = false := by decide

theorem test_kind2_is_accepted : (Instr.checksum .tcp 0xFFFF).wellFormed = true := by decide

theorem test_decode_initAddr : decodeTableWord 32 0x00000001 = some (Instr.initAddr) := by decide

theorem test_decode_checksum : decodeTableWord 32 0x00200402 = some (.checksum .tcp 32) := by decide

theorem test_decode_isArpForMe : decodeTableWord 32 0x00290003 = some (.isArpForMe 41) := by decide

theorem test_decode_isIpForMe : decodeTableWord 32 0x00360004 = some (.isIpForMe 54) := by decide

theorem test_decode_classify : decodeTableWord 32 0x002A0005 = some (.classify 42) := by decide

theorem test_decode_swapEth : decodeTableWord 32 0x00000006 = some (.swapEth) := by decide

theorem test_decode_swapIp : decodeTableWord 32 0x00000007 = some (.swapIp) := by decide

theorem test_decode_fillIpCsum : decodeTableWord 32 0x00000008 = some (.fillIpCsum) := by decide

theorem test_decode_newIpHdrTcp : decodeTableWord 32 0x002C0009 = some (.newIpHdrTcp 44) := by decide

theorem test_decode_arpReply : decodeTableWord 32 0x0000000A = some (.arpReply) := by decide

theorem test_decode_arpRequest : decodeTableWord 32 0x0000000B = some (.arpRequest) := by decide

theorem test_decode_isArpReplyForMe : decodeTableWord 32 0x0000000C = some (.isArpReplyForMe) := by decide

theorem test_decode_echoReply : decodeTableWord 32 0x002E000D = some (.echoReply 46) := by decide

theorem test_decode_udpReply : decodeTableWord 32 0x0003000E = some (.udpReply 3) := by decide

theorem test_decode_buildTcpHdr : decodeTableWord 32 0x0000004F = some (.buildTcpHdr true false) := by decide

theorem test_decode_tcpSynack : decodeTableWord 32 0x00000010 = some (.tcpSynack) := by decide

theorem test_decode_tcpAckFromAny : decodeTableWord 32 0x00000011 = some (.tcpAckFromAny) := by decide

theorem test_decode_tcpAckWithData : decodeTableWord 32 0x00020012 = some (.tcpAckWithData 2) := by decide

theorem test_decode_tcpRespondData : decodeTableWord 32 0x00020013 = some (.tcpRespondData 2) := by decide

theorem test_decode_tcpClient : decodeTableWord 32 0x00000154 = some (.tcpClient true true 0) := by decide

theorem test_decode_inboundInfo : decodeTableWord 32 0x00000015 = some (.inboundInfo) := by decide

theorem test_decode_getDataOffset : decodeTableWord 32 0x00000016 = some (.getDataOffset) := by decide

theorem test_decode_getDataLen : decodeTableWord 32 0x00000017 = some (.getDataLen) := by decide

/-- EC-6, EC-8. -/
theorem test_decode_flags : decodeTableWord 32 0x0000008F = some (.buildTcpHdr false true) ∧
    decodeTableWord 32 0x00030114 = some (.tcpClient false true 3) := by decide

/-- EC-9 to EC-15. -/
theorem test_illegal_words : ∀ w ∈ [0x00000000, 0x00000018, 0x00010001, 0x00000602, 0x00000802,
    0x00000050, 0x0000003F],
    decodeTableWord 32 w = none := by decide

/-- EC-12: an illegal word written to CMD raises ILLEGAL (STATUS = ERR 1 and FAULT). -/
theorem test_illegal_word_latches : seen State.status (run 0x00000602 fresh) = some 0x00000101 := by decide

/-- As the first step after reset, with parameters that are open, every row of the opcode table runs to a next state. -/
theorem test_first_steps : ∀ w ∈ [0x01, 0x02, 0x03, 0x04, 0x05, 0x06, 0x07, 0x08, 0x09, 0x0A, 0x0B, 0x0C, 0x0D,
    0x0E, 0x0F, 0x10, 0x11, 0x12, 0x13, 0x14, 0x15, 0x16, 0x17],
    (seen State.fault (step (State.reset.withFetchWord 32 w))).isSome = true := by decide

/-! ## One test or two for each command -/

/-- R350, R34: the identity becomes ARG_MAC and ARG_IP. -/
theorem test_initAddr :
    seen State.identity (run 0x00000001 { fresh with
      argMacHi := some 0x0200, argMacLo := some 0x00000001, argIp := some 0xC0A8016F }) = some (some hostId) := by decide

/-- EX-3: REINIT. -/
theorem test_initAddr_again : seen State.status (run 0x00000001 booted) = some 0x00000303 := by decide

/-- CK-1. -/
theorem test_checksum :
    seen State.result (run 0x00080002 (put 0 (hex 8 0x0001F203F4F5F6F7) { fresh with argOff := some 0 })) =
    some (some 0x220D) := by decide

/-- CK-10. -/
theorem test_checksum_udp_odd :
    seen State.result (run 0x00090202 (put 0 (hex 9 0x000000000000000001) { fresh with argOff := some 0 })) =
    some (some 0xFEED) := by decide

/-- CL-2. -/
theorem test_isArpForMe : seen State.result (run 0x00290003 (received frameCL1)) = some (some 1) := by decide

/-- CL-3. -/
theorem test_isArpForMe_short :
    seen State.result (run 0x00280003 (received frameCL1)) = some (some 0) := by decide

/-- CL-6 with IS_IP_FOR_ME. -/
theorem test_isIpForMe : seen State.result (run 0x00360004 (received frameTC1)) = some (some 1) := by decide

/-- CL-8. -/
theorem test_isIpForMe_options :
    seen State.result (run 0x00360004 (put 14 (hex 1 0x46) (received frameTC1))) = some (some 0) := by decide

/-- CL-6. -/
theorem test_classify : seen State.result (run 0x00360005 (received frameTC1)) = some (some 2) := by decide

/-- CL-10. -/
theorem test_classify_undef : seen State.status (run 0x002A0005 booted) = some 0x00000305 := by decide

/-- EN-1. -/
theorem test_swapEth :
    fbIs 0 (hex 12 0xAABBCCDDEEFF020000000001) (run 0x00000006 (put 0 (hex 12 0x020000000001AABBCCDDEEFF) booted)) =
    some true := by decide

/-- EN-2. -/
theorem test_swapIp :
    fbIs 14 (hex 20 0x45000054ABCD400040010B12C0A8016FC0A8010A) (run 0x00000007
    (put 14 (hex 20 0x45000054ABCD000080010B12C0A8010AC0A8016F) booted)) = some true := by decide +kernel

/-- EN-3. -/
theorem test_fillIpCsum :
    fbIs 14 (hex 20 0x4500001C00004000401126CF0A0000010A000002) (run 0x00000008
    (put 14 (hex 20 0x4500001C000000001111ABCD0A0000010A000002) fresh)) = some true := by decide +kernel

/-- EN-4. -/
theorem test_newIpHdrTcp :
    fbIs 14 (hex 20 0x4500002C010040004006B60BC0A8016FC0A80101) (run 0x002C0009
    { booted with ipid := 0x0100, argIp := some 0xC0A80101 }) = some true := by decide +kernel

/-- EN-5: IPID wraps. -/
theorem test_newIpHdrTcp_ipid :
    seen State.ipid (run 0x00280009 { booted with ipid := 0xFFFF, argIp := some 0x0A000001 }) = some 0x0000 := by decide +kernel

/-- AR-1. -/
theorem test_arpReply : sent (run 0x0000000A (received frameCL1)) = some [frameAR1] := by decide

/-- AR-4: no event. -/
theorem test_arpReply_undef :
    seen (fun s => (s.err, s.tx)) (run 0x0000000A booted) = some (0x05, []) := by decide

/-- AR-3. -/
theorem test_arpRequest :
    sent (run 0x0000000B { booted with argIp := some 0xC0A8010A }) = some [frameAR3] := by decide

/-- AR-2. -/
theorem test_isArpReplyForMe :
    seen State.result (run 0x0000000C (put 38 (hex 4 0xC0A8016F) (received frameAR1))) = some (some 1) := by decide

/-- AR-2 with FB[20..21] = 00 01. -/
theorem test_isArpReplyForMe_request :
    seen State.result (run 0x0000000C (put 20 (hex 2 0x0001) (put 38 (hex 4 0xC0A8016F) (received frameAR1)))) =
    some (some 0) := by decide

/-- IC-1. -/
theorem test_echoReply : sent (run 0x002E000D (received frameIC1)) = some [frameIC1o] := by decide +kernel

/-- IC-2: F8 12 becomes 00 13. -/
theorem test_echoReply_carry :
    fbIs 36 (hex 2 0x0013) (run 0x002E000D (put 36 (hex 2 0xF812) (received frameIC1))) = some true := by decide +kernel

/-- UD-1. -/
theorem test_udpReply :
    sent (run 0x0003000E { received frameUD1 with argPort := some 0x1388, pb := Memory.writeBytes [] 0 (hex 3 0x4F4B21) }) =
    some [frameUD1o] := by decide +kernel

/-- UD-3. -/
theorem test_udpReply_no_payload :
    fbIs 34 (hex 8 0x1388000700086885) (run 0x0000000E { received frameUD1 with argPort := some 7 }) = some true := by decide +kernel

/-- AA-1, with S. -/
theorem test_buildTcpHdr_ack_wraps :
    fbIs 38 (hex 8 0xDEADBEEF00000000) (run 0x0000008F (put 34 (hex 12 0x00010002FFFFFFFFDEADBEEF)
    { fresh with argAck := some 1 })) = some true := by decide +kernel

/-- AA-8, with M. -/
theorem test_buildTcpHdr_mss :
    fbIs 34 (hex 24 0x000000000000FE0000000001600000000000000002040580) (run 0x0000004F
    (put 34 (hex 24 0) { fresh with isn := 0xFE, argAck := some 1 })) = some true := by decide +kernel

/-- TC-2. -/
theorem test_tcpSynack : sent (run 0x00000010 (received frameTC1)) = some [frameTC2] := by decide +kernel

/-- TC-2: ISN. -/
theorem test_tcpSynack_isn : seen State.isn (run 0x00000010 (received frameTC1)) = some 0x0C := by decide +kernel

/-- TC-4. -/
theorem test_tcpAckFromAny : sent (run 0x00000011 (received frameTC3)) = some [frameTC4] := by decide +kernel

/-- TC-4: ACK_BUILT and ID_VALID. -/
theorem test_tcpAckFromAny_status :
    seen State.status (run 0x00000011 (received frameTC3)) = some 0x00000600 := by decide +kernel

/-- TC-5. -/
theorem test_tcpAckWithData :
    sent (run 0x00020012 (put 54 (hex 2 0x4F4B) { received frameTC4 with ackBuilt := true })) = some [frameTC5] := by decide +kernel

/-- EX-4: SEQ. -/
theorem test_tcpAckWithData_seq : seen State.status (run 0x00000012 booted) = some 0x00000307 := by decide +kernel

/-- TC-5. -/
theorem test_tcpRespondData :
    sent (run 0x00020013 { received frameTC4 with ackBuilt := true, pb := Memory.writeBytes [] 0 (hex 2 0x4F4B) }) =
    some [frameTC5] := by decide +kernel

/-- TC-9: RANGE. -/
theorem test_tcpRespondData_range :
    seen State.status (run 0x02230013 { received frameTC4 with ackBuilt := true }) = some 0x00000704 := by decide +kernel

/-- A state for the client vectors. -/
def client (flags : Byte) (rel : Half) (s : State) : State :=
  { s with
    argMacHi := some 0x0011, argMacLo := some 0x22334455, argIp := some 0xC0A80101, argPort := some 80
    argSport := some 0xC350, argFlags := some flags, argAck := some rel }

/-- TC-7. -/
theorem test_tcpClient_syn :
    sent (run 0x00000154 (client 0x02 0 (put 38 (hex 8 0x0000000012345678) (put 52 (hex 2 0x0000)
    { booted with ipid := 0x0100 })))) = some [frameTC7o] := by decide +kernel

/-- TC-8. -/
theorem test_tcpClient_data :
    sent (run 0x00030114 (client 0x18 1 (put 54 (hex 3 0x474554) { received frameTC8 with ipid := 0x0101 }))) =
    some [frameTC8o] := by decide +kernel

/-- TC-3. -/
theorem test_inboundInfo :
    seen (fun s => (s.infoDlen, s.infoHlen)) (run 0x00000015 (received frameTC3)) = some (some 5, some 20) := by decide

/-- TC-3. -/
theorem test_getDataOffset :
    seen State.result (run 0x00000016 (received frameTC3)) = some (some 54) := by decide

/-- DL-2. -/
theorem test_getDataOffset_none :
    seen State.result (run 0x00000016 (put 16 (hex 2 0x001E) (received frameTC3))) = some (some 0) := by decide

/-- TC-3. -/
theorem test_getDataLen : seen State.result (run 0x00000017 (received frameTC3)) = some (some 5) := by decide

/-- DL-5. -/
theorem test_getDataLen_largest :
    seen State.result (run 0x00000017 (put 16 (hex 2 0xFFFF) (put 46 (hex 1 0xF0) (received frameTC3)))) =
    some (some 65455) := by decide

/-! ## Witnesses: hypotheses that meet, one theorem for each statement that has some -/

/-- A buffer of n equal bytes. -/
@[irreducible] def filled (n : Nat) (b : Byte) : Memory := Memory.writeBytes [] 0 (List.replicate n b)

theorem defined_filled (n : Nat) (b : Byte) : Defined (filled n b) 0 n := by
  intro k hk
  unfold filled
  simp [read_writeBytes, hk]

theorem form_filled (n : Nat) (b : Byte) : (filled n b).wf = true ∧ (filled n b).below n = true := by
  unfold filled
  exact ⟨wf_writeBytes rfl, below_writeBytes (by simp) rfl⟩

/-- Every argument register is set and both buffers are full, so every command but INIT_ADDR is ready. -/
def full (n : Nat) : State :=
  { State.resetWith { vecParams with bufSize := n } with
    fb := filled n 0x45, pb := filled 256 0x4F
    identity := some hostId, ackBuilt := true, argOff := some 0, argPort := some 7, argSport := some 9
    argFlags := some 0x02, argAck := some 1, argMacHi := some 0x0011, argMacLo := some 0x22334455
    argIp := some 0xC0A80101 }

theorem full_ready (n : Nat) (hn : 64 ≤ n) {i : Instr} (hi : i.wellFormed = true)
    (hu : upFrontError (full n) i = none) : Ready (full n) i :=
  ready_of_full hn hi hu (defined_filled n 0x45) (defined_filled 256 0x4F)

theorem full_legal (n : Nat) (hn : 64 ≤ n ∧ n ≤ 600) : (full n).params.Legal := by
  simp [Config.Params.Legal, full, State.resetWith, vecParams]; omega

/-- The states and operands of the result statements: `Ready`, with the identity and the argument registers they name. -/
theorem witness_Ready : ∀ i ∈ [Instr.checksum .ip 0, .checksum .udp 8, .checksum .tcp 600, .isArpForMe 40, .isArpForMe 41,
    .isIpForMe 41, .isIpForMe 42, .classify 0, .classify 42, .swapEth, .swapIp, .fillIpCsum, .arpReply, .isArpReplyForMe,
    .echoReply 0, .echoReply 600, .udpReply 0, .udpReply 220, .udpReply 221, .udpReply 0xFFFF, .buildTcpHdr true true,
    .buildTcpHdr false false, .tcpSynack, .tcpAckFromAny, .tcpAckWithData 0, .tcpAckWithData 546, .tcpRespondData 0,
    .tcpRespondData 256, .tcpClient true true 0, .tcpClient false false 546, .tcpClient true false 542, .inboundInfo,
    .getDataOffset, .getDataLen], (full 600).params.Legal ∧ (full 600).identity = some hostId ∧ (full 600).argOff = some 0 ∧
      (full 600).argPort = some 7 ∧ (full 600).argSport = some 9 ∧ (full 600).argFlags = some 0x02 ∧
      (full 600).argAck = some 1 ∧ (full 600).argMac = some 0x001122334455 ∧ (full 600).argIp = some 0xC0A80101 ∧
      Ready (full 600) i := by
  intro i hi
  refine ⟨full_legal 600 (by decide), rfl, rfl, rfl, rfl, rfl, rfl, by decide, rfl, full_ready 600 (by decide) ?_ ?_⟩ <;>
    · revert i; decide

/-- In the smallest buffer too, at the largest lengths that fit it. -/
theorem witness_Ready_smallest : ∀ i ∈ [Instr.checksum .ip 64, .echoReply 64, .udpReply 22, .tcpAckWithData 10,
    .tcpRespondData 10, .tcpClient true false 6, .tcpClient false true 10, .tcpSynack],
    (full 64).params.Legal ∧ Ready (full 64) i := by
  intro i hi
  refine ⟨by decide, full_ready 64 (by decide) ?_ ?_⟩ <;>
    · revert i; decide

/-- NEW_IP_HDR_TCP and ARP_REQUEST read no buffer. -/
theorem witness_NewIpHdrTcpBuildsHeader : booted.params.Legal ∧ booted.identity = some hostId ∧
    ({ booted with argIp := some 0 } : State).argIp = some 0 := by decide

theorem witness_newIpHeaderForTcp : ∃ t, newIpHeaderForTcp hostId 65535 0 booted = .ok t := ⟨_, rfl⟩

theorem witness_fillIpChecksum : ∃ t, fillIpChecksum (received frameTC1) = .ok t := by
  cases h : fillIpChecksum (received frameTC1) with
  | ok t => exact ⟨t, rfl⟩
  | error e =>
    have hd : (fillIpChecksum (received frameTC1)).toOption.isSome = true := by decide +kernel
    rw [h] at hd; simp [Except.toOption] at hd

theorem witness_EncodeThenDecode : (Instr.tcpClient true true 0xFFFF).wellFormed = true := by decide

theorem witness_DecodeThenEncode : decode 0xFFFF0154 = .ok (.tcpClient true true 0xFFFF) := by decide

theorem witness_LegalWord : LegalWord 0xFFFF0402 ∧ ¬ LegalWord 0xFFFF0602 ∧ ¬ LegalWord 0x00000018 ∧
    ¬ LegalWord 0x00010001 ∧ fresh.fault = false := by unfold LegalWord; decide

theorem witness_AssembledCommandsAreLegal : assemble "CHECKSUM" { l := some 65535, k := some .tcp } =
    some (.checksum .tcp 65535) ∧ assemble "BUILD_TCP_HDR" { m := true, s := true } = some (.buildTcpHdr true true) ∧
    (Instr.checksum .tcp 65535).wellFormed = true ∧
    written (.checksum .tcp 65535) = ("CHECKSUM", { l := some 65535, k := some .tcp }) := by decide

theorem witness_StepRunsDecodedCommand : fresh.fault = false ∧ decode 0x00000001 = .ok .initAddr ∧
    decode (tableWord 6 0x01) = .ok .initAddr ∧
    ({ fresh with host := [.regWrite 0 0x00000001] } : State).host = [.regWrite 0 0x00000001] := by decide

theorem witness_IdleStepChangesNothing : fresh.host = [] := rfl

/-- A state with a fault latched. -/
def faulted : State := latched booted 0x05 0x0000000A

theorem witness_FaultedCoreIgnoresOnlyCommands : faulted.fault = true ∧
    runMove (.rx frameCL1) { faulted with fault := false } = .next (deposit frameCL1 { faulted with fault := false }) :=
  ⟨rfl, rfl⟩

theorem witness_FaultIsStickyUntilReset : ∃ t, faulted.fault = true ∧
    step { faulted with host := [.regWrite 0 0x0000000A] } = .next t := ⟨_, rfl, rfl⟩

/-- A state with ACK_BUILT = 1 and a full frame meets the invariant, and so does one with a fault. -/
theorem witness_StepKeepsInvariant : CoreInv (full 64) ∧ CoreInv faulted ∧ ∃ t, step (full 64) = .next t := by
  have none_some : ∀ {α : Type} {p : α → Prop} (x : α), none = some x → p x := fun _ h => nomatch h
  refine ⟨⟨full_legal 64 (by decide), ?_, ?_, ⟨rfl, rfl⟩, ?_, by simp [full, State.resetWith], none_some, none_some⟩,
    ⟨by decide, by decide, by decide, by decide, by decide, by decide, none_some, none_some⟩, full 64, rfl⟩
  · exact form_filled 64 0x45
  · exact form_filled 256 0x4F
  · exact fun _ => ⟨rfl, defined_sub (defined_filled 64 0x45) (by omega) (by omega)⟩

theorem witness_FaultEntryIsPrecise : booted.params.Legal ∧ booted.fault = false ∧
    writeCmd 0x00000001 booted = .next (latched booted 0x03 0x00000001) ∧
    (latched booted 0x03 0x00000001).fault = true := ⟨by decide, rfl, rfl, rfl⟩

/-- Each clause: an illegal word; an error up front; a byte that is not defined; none of them. -/
theorem witness_FirstErrorIsReported : fresh.params.Legal ∧ fresh.fault = false ∧ ¬ LegalWord 0x00000000 ∧
    decode 0x0000000A = .ok .arpReply ∧ upFrontError fresh .arpReply = some 0x02 ∧
    (upFrontError booted .arpReply = none ∧ ¬ Readable booted .arpReply) ∧
    upFrontError (full 600) .arpReply = none ∧ Readable (full 600) .arpReply := by
  refine ⟨by decide, rfl, by unfold LegalWord; decide, by decide, by decide, ⟨by decide, fun h => ?_⟩, by decide,
    (full_ready 600 (by decide) (i := .arpReply) rfl (by decide)).2.2⟩
  exact absurd (h.1 6 (by decide)) (by decide)

theorem witness_CommandsRaiseOnlyTheirErrors : fresh.params.Legal ∧ Instr.arpReply.wellFormed = true ∧
    fresh.fault = false ∧ exec .arpReply fresh = .next (latched fresh 0x02 0x0000000A) := ⟨by decide, rfl, rfl, rfl⟩

theorem witness_NotInitIsRaised : needsIdentity .arpReply = true ∧ fresh.identity = none := by decide

/-- A step that sets the identity. -/
theorem witness_IdentityIsSetOnce : ∃ s t, s.params.Legal ∧ s.identity = none ∧ step s = .next t ∧
    t.identity = some hostId :=
  ⟨{ fresh with
      argMacHi := some 0x0200, argMacLo := some 0x00000001, argIp := some 0xC0A8016F
      host := [.regWrite 0 0x00000001] }, _, by decide, rfl, rfl, by decide⟩

theorem witness_InitAddrSetsIdentity : booted.identity.isSome = true ∧ fresh.identity = none ∧ fresh.argIp = none ∧
    ({ fresh with argMacHi := some 2, argMacLo := some 1, argIp := some 3 } : State).argMac = some 0x000200000001 := by
  decide

/-- A range that ends at the last byte of FB, and one of no bytes. -/
theorem witness_ChecksumResultRange : inetChecksum fresh 0 0 .ip = .ok 0xFFFF ∧
    Holds (Memory.write (Memory.write [] 598 0xFF) 599 0xFF) 598 [0xFF, 0xFF] ∧ 598 + 2 ≤ fresh.params.bufSize := by
  refine ⟨by decide, ?_, by decide⟩
  unfold Holds; decide

/-- EN-3: a header with its checksum field zero. -/
theorem witness_ChecksumRoundTrip :
    let s := put 14 (hex 20 0x4500001C00004000401100000A0000010A000002) fresh
    14 ≤ 24 ∧ 24 + 2 ≤ 14 + 20 ∧ (24 - 14) % 2 = 0 ∧ beAt s.fb 24 2 = 0 ∧ 14 + 20 ≤ s.params.bufSize ∧
    inetChecksum s 14 20 .ip = .ok 0x26CF := by decide +kernel

theorem witness_ChecksumFitsAccumulator : fresh.params.Legal ∧ 600 + 0 ≤ fresh.params.bufSize ∧
    sumWords fresh 600 0 (checksumSeed .udp 0) = .ok 17 := by decide

/-- A frame in a full buffer of 64 bytes. -/
def echoing (message : List Byte) : State := put 34 message (full 64)

theorem echoing_ready (message : List Byte) (l : Half) (hl : l.toNat ≤ 64) : Ready (echoing message) (.echoReply l) :=
  ready_of_full (full_legal 64 (by decide)).1 rfl
    (upFront_of (fun h => nomatch h) (fun _ => rfl) (fun h => nomatch h) rfl rfl (decide_eq_true hl))
    (fun k hk => isSome_writeBytes (defined_filled 64 0x45 k hk)) (defined_filled 256 0x4F)

/-- Each clause: the inbound checksum 0xF7FF; 0xF8FF and 0xFEFF, the ends of the range; 0x3337 (IC-1) and 0xF8FE. -/
theorem witness_EchoChecksumMatchesRecomputation : ∀ m ∈ [hex 6 0x0800F7FF0000, hex 6 0x0800F8FFFEFF,
    hex 6 0x0800FEFFF8FF, hex 12 0x080033370001000161626364, hex 6 0x0800F8FEFF00],
    (echoing m).params.Legal ∧ Ready (echoing m) (.echoReply 46) ∧ Defined (echoing m).fb 34 m.length ∧
    4 ≤ m.length ∧ 34 + m.length ≤ (echoing m).params.bufSize ∧ byteAt (echoing m).fb 34 = 8 ∧
    CsumField (echoing m).fb 0 34 m.length 36 := by
  intro m hm
  refine ⟨full_legal 64 (by decide), echoing_ready m 46 (by decide), fun k hk => by simp [echoing, put, read_writeBytes, hk], ?_, ?_, ?_, ?_⟩
  · revert m; decide
  · revert m; decide
  · revert m; decide +kernel
  · revert m; unfold CsumField; decide +kernel

/-- Each clause: ready with 262 bytes in FB; turned away with RANGE in a buffer of 64. -/
theorem witness_UdpPayloadIsClamped : 220 < (221 : Half).toNat ∧ (full 600).params.Legal ∧ (full 64).params.Legal ∧
    Ready (full 600) (.udpReply 220) ∧
    exec (.udpReply 220) (full 64) = .next (latched (full 64) 0x04 (encode (.udpReply 220))) :=
  ⟨by decide, by decide, by decide, full_ready 600 (by decide) rfl (by decide), rfl⟩

/-- AA-1: the sequence number 0xFFFFFFFF. -/
def wrapping : State := put 34 (hex 12 0x00010002FFFFFFFFDEADBEEF) fresh

theorem witness_AcknowledgmentLaw : wrapping.params.Legal ∧ beAt wrapping.fb 38 4 = 0xFFFFFFFF ∧
    (buildTcpHeader 1 true false wrapping).toOption.isSome = true ∧
    (buildTcpHeader 1 false true wrapping).toOption.isSome = true ∧
    (ackLoop true [3, 2, 1, 0] 0xFFFF wrapping).toOption.isSome = true := by decide +kernel

/-- Each clause: a command that runs, one that faults, the smallest deposit, another move. -/
theorem witness_AckBuiltUpdate : (full 64).params.Legal ∧ (full 64).fault = false ∧ decode 0x00000006 = .ok .swapEth ∧
    (∃ t, writeCmd 0x00000006 (full 64) = .next t) ∧
    writeCmd 0x00000018 (full 64) = .next (latched (full 64) 0x01 0x00000018) ∧
    runMove (.rx [0x00]) (full 64) = .next (deposit [0x00] (full 64)) ∧ (full 64).params.bufSize = 64 ∧
    runMove (.regWrite 15 0) (full 64) = .next { full 64 with argIp := some 0 } :=
  ⟨full_legal 64 (by decide), rfl, by decide, exec_total .swapEth (full 64), rfl, rfl, rfl, rfl⟩

/-- For the statements about every command: one that runs and one that faults. -/
theorem witness_every_command : (full 600).params.Legal ∧ (full 600).fault = false ∧
    (∃ t, exec .tcpSynack (full 600) = .next t) ∧
    exec .arpReply fresh = .next (latched fresh 0x02 0x0000000A) :=
  ⟨by decide, rfl, exec_total .tcpSynack (full 600), rfl⟩

theorem witness_DefinedBytesStayDefined : fresh.params.Legal ∧ (∀ rest, fresh.host ≠ .reset :: rest) ∧
    step fresh = .next fresh ∧ ((full 64).fb.read 63).isSome = true :=
  ⟨by decide, fun _ h => (nomatch h), rfl, defined_filled 64 0x45 63 (by decide)⟩

/-- The last byte in range and the first outside. -/
theorem witness_AccessRules : 599 < fresh.params.bufSize ∧ fresh.params.bufSize ≤ 600 ∧ fresh.params.Legal ∧
    runMove (.fbWrite 599 1) fresh = .next (put 599 [1] fresh) ∧ [(7 : Byte)][0]? = some 7 ∧
    runMove (.rx [7]) fresh = .next (deposit [7] fresh) := ⟨by decide, by decide, by decide, rfl, rfl, rfl⟩

theorem witness_MemoryFieldRoundTrip : 598 + 2 ≤ fresh.params.bufSize ∧ 600 + 0 ≤ fresh.params.bufSize := by decide

/-- One byte, P_BUF_SIZE bytes, one more, none. -/
theorem witness_DepositWritesFrame : fresh.params.Legal ∧ 1 ≤ [(0 : Byte)].length ∧
    (List.replicate 600 (0 : Byte)).length ≤ fresh.params.bufSize ∧
    fresh.params.bufSize < (List.replicate 601 (0 : Byte)).length := by
  simp only [List.length_replicate]; decide

/-- Both halves set, and one alone. -/
theorem witness_ArgumentWritesAreStored :
    let s : State := { fresh with argMacHi := some 0x0200, argMacLo := some 1 }
    s.argMacHi = some 0x0200 ∧ s.argMacLo = some 1 ∧ ({ fresh with argMacHi := some 0x0200 } : State).argMacLo = none := by
  decide

theorem witness_RegisterReadsGiveValues :
    let s : State := { fresh with result := some 0xFFFF, infoDlen := some 5, infoHlen := some 60, rxLen := some 1 }
    s.result = some 0xFFFF ∧ s.infoDlen = some 5 ∧ s.infoHlen = some 60 ∧ s.rxLen = some 1 := by decide

theorem witness_MeaninglessAccessesAreRefused : fresh.result = none ∧ fresh.infoDlen = none ∧ fresh.infoHlen = none ∧
    fresh.rxLen = none ∧ fresh.fb.read 0 = none ∧ fresh.pb.read 0 = none ∧ fresh.params.bufSize ≤ 600 ∧
    fresh.params.pbSize ≤ 256 ∧ (0x00010005 : Word).toNat % 65536 = (5 : Word).toNat % 65536 ∧
    (0x00000105 : Word).toNat % 256 = (5 : Word).toNat % 256 := by decide

theorem witness_HostBytesReadBack : 599 < fresh.params.bufSize ∧ 255 < fresh.params.pbSize := by decide

theorem witness_ResetSetsEveryElement : (∃ t, runMove .reset booted = .next t) ∧
    ∃ t, fresh.params.Legal ∧ exec .arpReply fresh = .next t := ⟨⟨_, rfl⟩, _, by decide, rfl⟩

theorem witness_InitAddressingSetsIdentity :
    let s : State := { fresh with host := callInitAddressing 0x020000000001 0xC0A8016F ++ [] }
    s.fault = false ∧ s.identity = none ∧ s.host = callInitAddressing 0x020000000001 0xC0A8016F ++ [] := by decide

/-- A host program that latches a fault, then asserts reset. -/
def faultThenReset : State := { fresh with host := [.regWrite 0 0x00000000, .reset] }

/-- Each clause: a run that faults and is then reset, so that no fault is latched at its end; one with a refused read; one
of a single move, with its end. -/
theorem witness_RunThatFaultsIsNeverSuccessful :
    (∃ t, Reaches faultThenReset t ∧ t.fault = true) ∧ (∃ t, Ends faultThenReset t ∧ t.fault = false) ∧
    step { fresh with host := [.regRead 0] } = .refused (.readOfWriteOnlyRegister 0) ∧
    fresh.params.Legal ∧ .reset ∉ ({ fresh with host := [.regWrite 15 1] } : State).host ∧
    Ends { fresh with host := [.regWrite 15 1] } { fresh with argIp := some 1 } :=
  ⟨⟨_, .next rfl (.here _), rfl⟩, ⟨_, ⟨.next rfl (.next rfl (.here _)), rfl⟩, rfl⟩, rfl, by decide, by decide,
    .next rfl (.here _), rfl⟩

end Sys2Proof.Tests
end

namespace Sys2Proof.Proofs

open Sys2Proof.Machine

/-! PROOFS. The host's accesses to the registers and buffers, said once per register or kind of refusal, and the two
statements on them (spec/10_state.md, R45 to R47). -/

/-! ## Writes of the argument registers (R45 to R47) -/

@[simp] theorem runMove_regWrite_argOff (s : State) (v : Word) :
    runMove (.regWrite 8 v) s = .next { s with argOff := some (BitVec.ofNat 16 v.toNat) } := rfl

@[simp] theorem runMove_regWrite_argPort (s : State) (v : Word) :
    runMove (.regWrite 9 v) s = .next { s with argPort := some (BitVec.ofNat 16 v.toNat) } := rfl

@[simp] theorem runMove_regWrite_argSport (s : State) (v : Word) :
    runMove (.regWrite 10 v) s = .next { s with argSport := some (BitVec.ofNat 16 v.toNat) } := rfl

@[simp] theorem runMove_regWrite_argFlags (s : State) (v : Word) :
    runMove (.regWrite 11 v) s = .next { s with argFlags := some (BitVec.ofNat 8 v.toNat) } := rfl

@[simp] theorem runMove_regWrite_argAck (s : State) (v : Word) :
    runMove (.regWrite 12 v) s = .next { s with argAck := some (BitVec.ofNat 16 v.toNat) } := rfl

@[simp] theorem runMove_regWrite_argMacHi (s : State) (v : Word) :
    runMove (.regWrite 13 v) s = .next { s with argMacHi := some (v.extractLsb' 0 16) } := rfl

@[simp] theorem runMove_regWrite_argMacLo (s : State) (v : Word) :
    runMove (.regWrite 14 v) s = .next { s with argMacLo := some v } := rfl

@[simp] theorem runMove_regWrite_argIp (s : State) (v : Word) :
    runMove (.regWrite 15 v) s = .next { s with argIp := some v } := rfl

/-! ## ARG_MAC and its halves (R47) -/

theorem argMac_of_halves {s : State} {hi : BitVec 16} {lo : BitVec 32} (hhi : s.argMacHi = some hi)
    (hlo : s.argMacLo = some lo) : s.argMac = some (hi ++ lo) := by
  simp only [State.argMac, hhi, hlo]

theorem argMac_of_half_unset {s : State} (h : s.argMacHi = none ∨ s.argMacLo = none) : s.argMac = none := by
  rcases h with hhi | hlo
  · simp only [State.argMac, hhi]
  · cases hhi : s.argMacHi <;> simp only [State.argMac, hhi, hlo]

/-- Bytes 0 and 1 of an address lie in its HI half, whatever the LO half is. -/
theorem macByte_append_hi (hi : BitVec 16) (lo : BitVec 32) {i : Nat} (h : i ≤ 1) :
    macByte (hi ++ lo) i = hi.extractLsb' (8 * (1 - i)) 8 := by
  rw [macByte, BitVec.extractLsb'_append_eq_of_le (by omega), show 8 * (5 - i) - 32 = 8 * (1 - i) by omega]

/-- Bytes 2 to 5 of an address lie in its LO half, whatever the HI half is. -/
theorem macByte_append_lo (hi : BitVec 16) (lo : BitVec 32) {i : Nat} (h : 2 ≤ i) :
    macByte (hi ++ lo) i = lo.extractLsb' (8 * (5 - i)) 8 :=
  BitVec.extractLsb'_append_eq_of_add_le (by omega)

/-- The bytes of ARG_MAC that a value written to ARG_MAC_HI sets: bits 15:8 and 7:0 of it. -/
theorem macByte_writtenHi (v : Word) (lo : BitVec 32) {i : Nat} (h : i ≤ 1) :
    macByte (v.extractLsb' 0 16 ++ lo) i = v.extractLsb' (8 * (1 - i)) 8 := by
  rw [macByte_append_hi _ _ h, BitVec.extractLsb'_extractLsb'_of_le (by omega)]

/-- Settles O53, from the write of each register and the place of each byte in the two halves. -/
theorem argumentWritesAreStored : Obligations.ArgumentWritesAreStored := by
  unfold Obligations.ArgumentWritesAreStored
  refine ⟨fun s v => ⟨runMove_regWrite_argMacHi s v, runMove_regWrite_argMacLo s v⟩,
    fun _ _ _ => ⟨argMac_of_halves, argMac_of_half_unset⟩, fun v lo => ⟨?byte0, ?byte1⟩,
    fun v hi => ⟨?byte2, ?byte3, ?byte4, ?byte5⟩, fun s v => ?others⟩
  case byte0 => exact macByte_writtenHi v lo (by decide)
  case byte1 => exact macByte_writtenHi v lo (by decide)
  case byte2 => exact macByte_append_lo hi v (by decide)
  case byte3 => exact macByte_append_lo hi v (by decide)
  case byte4 => exact macByte_append_lo hi v (by decide)
  case byte5 => exact macByte_append_lo hi v (by decide)
  case others =>
    exact ⟨runMove_regWrite_argOff s v, runMove_regWrite_argPort s v, runMove_regWrite_argSport s v,
      runMove_regWrite_argFlags s v, runMove_regWrite_argAck s v, runMove_regWrite_argIp s v⟩

/-! ## Refused register accesses (R46) -/

theorem hostReg_reserved {n : Nat} (h : n = 7 ∨ 16 ≤ n) : hostReg n = none := by
  rcases h with rfl | hge
  · rfl
  · obtain ⟨k, rfl⟩ := Nat.exists_eq_add_of_le' hge
    rfl

theorem runMove_regRead_writeOnly (s : State) {n : Nat} (h : n = 0 ∨ (8 ≤ n ∧ n ≤ 15)) :
    runMove (.regRead n) s = .refused (.readOfWriteOnlyRegister n) := by
  rcases h with rfl | ⟨hlo, hhi⟩
  · rfl
  · interval_cases n <;> rfl

theorem runMove_regWrite_readOnly (s : State) (v : Word) {n : Nat} (h : 1 ≤ n ∧ n ≤ 6) :
    runMove (.regWrite n v) s = .refused (.writeOfReadOnlyRegister n) := by
  obtain ⟨hlo, hhi⟩ := h
  interval_cases n <;> rfl

theorem runMove_regRead_reserved (s : State) {n : Nat} (h : n = 7 ∨ 16 ≤ n) :
    runMove (.regRead n) s = .refused (.reservedRegister n) := by
  simp only [runMove, regRead, hostReg_reserved h, giveHost]

theorem runMove_regWrite_reserved (s : State) (v : Word) {n : Nat} (h : n = 7 ∨ 16 ≤ n) :
    runMove (.regWrite n v) s = .refused (.reservedRegister n) := by
  simp only [runMove, regWrite, hostReg_reserved h]

/-- What the host gets from a read of RESULT, INFO_DLEN, INFO_HLEN or RX_LEN while the register holds no value (R378). -/
theorem giveHost_valueOr_none {w : Nat} (n : Nat) {r : Option (BitVec w)} (s : State) (h : r = none) :
    giveHost (valueOr n r) s = .refused (.readOfRegisterWithNoValue n) := by
  subst h; rfl

/-! ## Refused buffer accesses (R46) -/

theorem giveHost_bufRead_undefined (s : State) {size i : Nat} {m : Memory} (h : m.read i = none) :
    ∃ r, giveHost (asWord (bufRead size m i)) s = .refused r := by
  unfold bufRead
  rw [h]
  split
  · exact ⟨.readOfUndefinedByte i, rfl⟩
  · exact ⟨.indexOutsideArray i, rfl⟩

theorem giveHost_bufRead_outside (s : State) {size i : Nat} (m : Memory) (h : size ≤ i) :
    giveHost (asWord (bufRead size m i)) s = .refused (.indexOutsideArray i) := by
  rw [bufRead, if_neg (by omega)]; rfl

theorem hostFbWrite_outside (s : State) {i : Nat} (b : Byte) (h : s.params.bufSize ≤ i) :
    hostFbWrite i b s = .refused (.indexOutsideArray i) := if_neg (by omega)

theorem hostPbWrite_outside (s : State) {i : Nat} (b : Byte) (h : s.params.pbSize ≤ i) :
    hostPbWrite i b s = .refused (.indexOutsideArray i) := if_neg (by omega)

/-! ## The ignored bits of a written value (R46) -/

theorem ofNat_toNat_congr {k : Nat} {v w : Word} (h : v.toNat % 2 ^ k = w.toNat % 2 ^ k) :
    BitVec.ofNat k v.toNat = BitVec.ofNat k w.toNat :=
  BitVec.eq_of_toNat_eq (by simpa only [BitVec.toNat_ofNat] using h)

theorem runMove_regWrite_congr16 (s : State) {v w : Word} (h : v.toNat % 65536 = w.toNat % 65536) {n : Nat}
    (hn : n = 8 ∨ n = 9 ∨ n = 10 ∨ n = 12 ∨ n = 13) : runMove (.regWrite n v) s = runMove (.regWrite n w) s := by
  have hlow : BitVec.ofNat 16 v.toNat = BitVec.ofNat 16 w.toNat := ofNat_toNat_congr h
  have hhi : v.extractLsb' 0 16 = w.extractLsb' 0 16 := hlow
  rcases hn with rfl | rfl | rfl | rfl | rfl
  · rw [runMove_regWrite_argOff, runMove_regWrite_argOff, hlow]
  · rw [runMove_regWrite_argPort, runMove_regWrite_argPort, hlow]
  · rw [runMove_regWrite_argSport, runMove_regWrite_argSport, hlow]
  · rw [runMove_regWrite_argAck, runMove_regWrite_argAck, hlow]
  · rw [runMove_regWrite_argMacHi, runMove_regWrite_argMacHi, hhi]

theorem runMove_regWrite_congr8 (s : State) {v w : Word} (h : v.toNat % 256 = w.toNat % 256) :
    runMove (.regWrite 11 v) s = runMove (.regWrite 11 w) s := by
  rw [runMove_regWrite_argFlags, runMove_regWrite_argFlags, ofNat_toNat_congr h]

/-- Settles O55, by the refusal each kind of access meets and the low bits each narrow register keeps. -/
theorem meaninglessAccessesAreRefused : Obligations.MeaninglessAccessesAreRefused := by
  unfold Obligations.MeaninglessAccessesAreRefused
  refine ⟨?writeOnly, ?readOnly, ?reserved, ?noValue, ?buffers, ?ignoredBits⟩
  case writeOnly => exact fun s n h => ⟨_, runMove_regRead_writeOnly s h⟩
  case readOnly => exact fun s n v h => ⟨_, runMove_regWrite_readOnly s v h⟩
  case reserved =>
    exact fun s n v h => ⟨⟨_, runMove_regRead_reserved s h⟩, _, runMove_regWrite_reserved s v h⟩
  case noValue =>
    exact fun s => ⟨fun h => ⟨_, giveHost_valueOr_none 2 s h⟩, fun h => ⟨_, giveHost_valueOr_none 3 s h⟩,
      fun h => ⟨_, giveHost_valueOr_none 4 s h⟩, fun h => ⟨_, giveHost_valueOr_none 6 s h⟩⟩
  case buffers =>
    exact fun s i b => ⟨fun h => giveHost_bufRead_undefined s h, fun h => giveHost_bufRead_undefined s h,
      fun h => ⟨⟨_, giveHost_bufRead_outside s s.fb h⟩, _, hostFbWrite_outside s b h⟩,
      fun h => ⟨⟨_, giveHost_bufRead_outside s s.pb h⟩, _, hostPbWrite_outside s b h⟩⟩
  case ignoredBits =>
    exact fun s v w => ⟨fun h n hn => runMove_regWrite_congr16 s h hn, fun h => runMove_regWrite_congr8 s h⟩

end Sys2Proof.Proofs

namespace Sys2Proof.Proofs

open Sys2Proof.Machine Sys2Proof.Safety Sys2Proof.Laws

/-! PROOFS. The accesses to FB and PB: what a command, the host and a deposit write and what is read afterwards, and who
changes PB (spec/20_memory.md, R90 to R92). -/

/-! ## Accesses of a command (R90, R91) -/

/-- Both ways of `fbRead_eq_ok`: a command's read needs an index in range and a defined byte, and nothing else. -/
theorem fbRead_eq_ok_iff {s : State} {i : Nat} {b : Byte} :
    s.fbRead i = .ok b ↔ i < s.params.bufSize ∧ s.fb.read i = some b := by
  refine ⟨fbRead_eq_ok, fun ⟨hi, hb⟩ => ?_⟩
  rw [State.fbRead, if_pos hi, hb]

theorem fbWrite_outside {s : State} {i : Nat} (v : Byte) (h : s.params.bufSize ≤ i) :
    s.fbWrite i v = .error .range := if_neg (by omega)

theorem fbRead_setFb_write {s : State} {i : Nat} (v : Byte) (hi : i < s.params.bufSize) :
    (s.setFb (s.fb.write i v)).fbRead i = .ok v := by
  rw [fbRead_eq_ok_iff, setFb_fb, read_write, if_pos rfl]
  exact ⟨hi, rfl⟩

/-- A command's write in range: the byte reads back, and no other byte of FB and no other element of the state changes. -/
theorem fbWrite_inRange {s : State} {i : Nat} (v : Byte) (hi : i < s.params.bufSize) :
    ∃ t, s.fbWrite i v = .ok t ∧ t = { s with fb := t.fb } ∧ t.fbRead i = .ok v ∧
      ∀ a, a ≠ i → t.fb.read a = s.fb.read a := by
  refine ⟨_, fbWrite_ok hi, rfl, fbRead_setFb_write v hi, fun a ha => ?_⟩
  rw [setFb_fb, read_write, if_neg ha.symm]

/-! ## Writes of the host and of a deposit (R91, R377) -/

/-- The inversion of a host write of FB that is not refused. -/
theorem hostFbWrite_next {s t : State} {i : Nat} {b : Byte} (h : hostFbWrite i b s = .next t) :
    i < s.params.bufSize ∧ t = s.setFb (s.fb.write i b) := by
  unfold hostFbWrite at h
  split at h
  · cases h; exact ⟨‹_›, rfl⟩
  · cases h

theorem deposit_of_fits {s : State} {bytes : List Byte} (h1 : 1 ≤ bytes.length)
    (h2 : bytes.length ≤ s.params.bufSize) :
    deposit bytes s = { s with
      fb := s.fb.writeBytes 0 bytes, rxLen := some (BitVec.ofNat 16 bytes.length), ackBuilt := false } :=
  if_pos ⟨h1, h2⟩

theorem deposit_pb (bytes : List Byte) (s : State) : (deposit bytes s).pb = s.pb := by
  unfold deposit; split <;> rfl

theorem fbRead_deposit {s : State} {bytes : List Byte} {i : Nat} {b : Byte} (hlen : bytes.length ≤ s.params.bufSize)
    (hb : bytes[i]? = some b) : (deposit bytes s).fbRead i = .ok b := by
  have hi : i < bytes.length := (List.getElem?_eq_some_iff.mp hb).1
  rw [deposit_of_fits (by omega) hlen, fbRead_eq_ok_iff, read_writeBytes, if_pos (by omega)]
  exact ⟨Nat.lt_of_lt_of_le hi hlen, hb⟩

/-! ## Who changes PB (R92) -/

/-- The inversion of a write of CMD: ignored while the latch is set, otherwise an illegal word or a command that runs. -/
theorem writeCmd_next {w : Word} {s t : State} (h : writeCmd w s = .next t) :
    (s.fault = true ∧ t = s) ∨ (s.fault = false ∧ (∃ d, decode w = .error d) ∧ t = s.raise .illegal w) ∨
    (s.fault = false ∧ ∃ i, decode w = .ok i ∧ exec i s = .next t) := by
  unfold writeCmd at h
  split at h
  · cases h; exact .inl ⟨‹_›, rfl⟩
  · have hf : s.fault = false := Bool.eq_false_iff.mpr ‹_›
    split at h
    · cases h; exact .inr (.inl ⟨hf, ⟨_, ‹_›⟩, rfl⟩)
    · exact .inr (.inr ⟨hf, _, ‹_›, h⟩)

theorem exec_pb {s t : State} {i : Instr} (hl : s.params.Legal) (hi : i.wellFormed = true)
    (h : exec i s = .next t) : t.pb = s.pb := by
  rcases exec_next hl.1 hi h with ⟨c, rfl, -⟩ | ⟨hdone, -⟩
  · rfl
  · rw [hdone.eq]

theorem writeCmd_pb {w : Word} {s t : State} (hl : s.params.Legal) (h : writeCmd w s = .next t) : t.pb = s.pb := by
  rcases writeCmd_next h with ⟨-, rfl⟩ | ⟨-, -, rfl⟩ | ⟨-, i, hd, hexec⟩
  · rfl
  · rfl
  · exact exec_pb hl (decode_wellFormed hd) hexec

/-- No move but the host's PbWrite and reset changes PB. -/
theorem runMove_pb {s t : State} {e : HostMove} (hl : s.params.Legal) (h : runMove e s = .next t)
    (hpb : ∀ i b, e ≠ .pbWrite i b) (hreset : e ≠ .reset) : t.pb = s.pb := by
  rcases runMove_next h with ⟨w, rfl, hcmd⟩ | ⟨rfl, -⟩ | ⟨bytes, rfl, rfl⟩ | hport | ⟨i, b, rfl, -, rfl⟩ |
    ⟨i, b, rfl, -, -⟩
  · exact writeCmd_pb hl hcmd
  · exact absurd rfl hreset
  · exact deposit_pb bytes s
  · rw [hport.eq]
  · rfl
  · exact absurd rfl (hpb i b)

/-- Settles O50: the reads are R90's and R92's own cases, each of the three writers of FB is read back by the law of its
write, and the moves are sorted by `runMove_next` for PB. -/
theorem accessRules : Obligations.AccessRules := by
  unfold Obligations.AccessRules
  refine ⟨fun s i v => ⟨?fbRead, fun hi => fbWrite_inRange v hi, fun hi => fbWrite_outside v hi, ?pbRead⟩,
    ?hostWrite, ?deposit, fun s t e hl h hpb hreset => runMove_pb hl h hpb hreset⟩
  case fbRead => rfl
  case pbRead => rfl
  case hostWrite =>
    intro s t i b h
    obtain ⟨hi, rfl⟩ := hostFbWrite_next h
    exact fbRead_setFb_write b hi
  case deposit =>
    intro s t bytes i b hlen hb h
    cases h
    exact fbRead_deposit hlen hb

end Sys2Proof.Proofs

namespace Sys2Proof.Proofs

open Sys2Proof.Machine Sys2Proof.Safety Sys2Proof.Laws

/-! PROOFS. The opcode table and the decoder: a word has at most one row, so it decodes exactly when it is a legal word
(spec/30_encoding.md, R113, R115, R119). -/

/-! ## The opcode table (R117) -/

/-- The model's columns match and mask are the ones `LegalWord` is stated with. -/
theorem opcodeTable_columns : opcodeTable.map (fun r => (r.pattern.toNat, r.mask.toNat)) = legalPatterns := by decide

theorem opcodes_nodup : (opcodeTable.map fun r => opField r.pattern).Nodup := by decide

theorem opField_mask {r : Row} (hr : r ∈ opcodeTable) : opField r.mask = BitVec.allOnes 6 := by
  revert r; decide

/-- A matching word has its row's opcode, since every mask covers the field OP. -/
theorem opField_of_match {r : Row} {w : Word} (hr : r ∈ opcodeTable) (hm : w &&& r.mask = r.pattern) :
    opField w = opField r.pattern := by
  rw [← hm, opField, opField, BitVec.extractLsb'_and, ← opField, ← opField, opField_mask hr, BitVec.and_allOnes]

theorem rowOf_of_mem {r : Row} (hr : r ∈ opcodeTable) : rowOf (opField r.pattern) = some r := by
  cases hfind : rowOf (opField r.pattern) with
  | none => exact absurd (List.find?_eq_none.mp hfind r hr) (by simp)
  | some r' =>
    have hop : opField r'.pattern = opField r.pattern := by simpa using List.find?_some hfind
    rw [List.inj_on_of_nodup_map opcodes_nodup (List.mem_of_find?_eq_some hfind) hr hop]

/-! ## The decoder (R119) -/

theorem decode_of_row {r : Row} {w : Word} (hrow : rowOf (opField w) = some r) (hm : w &&& r.mask = r.pattern) :
    decode w = if (r.build w).wellFormed then .ok (r.build w) else .error .reservedKind := by
  simp only [decode, hrow, hm, if_true]

theorem decode_eq_ok_iff {w : Word} {i : Instr} :
    decode w = .ok i ↔ ∃ r ∈ opcodeTable, w &&& r.mask = r.pattern ∧ (r.build w).wellFormed = true ∧ r.build w = i := by
  constructor
  · intro h
    unfold decode at h
    split at h
    · cases h
    · split at h
      · split at h
        · cases h; exact ⟨_, List.mem_of_find?_eq_some ‹_›, ‹_›, ‹_›, rfl⟩
        · cases h
      · cases h
  · rintro ⟨r, hr, hm, hwf, rfl⟩
    rw [decode_of_row (opField_of_match hr hm ▸ rowOf_of_mem hr) hm, if_pos hwf]

theorem ofBits_wellFormed (k : BitVec 2) : (Kind.ofBits k).wellFormed = true ↔ k ≠ 3 := by
  revert k; decide

/-- Every row but that of CHECKSUM builds well-formed commands only. -/
theorem build_wellFormed_or_checksum {r : Row} (hr : r ∈ opcodeTable) (w : Word) :
    ((r.build w).wellFormed = true ∧ opField r.pattern ≠ 2) ∨
      (r.build w = .checksum (Kind.ofBits (kField w)) (lField w) ∧ opField r.pattern = 2) := by
  revert r
  simp [opcodeTable, plainRow, lengthRow, Instr.wellFormed, opField]

theorem build_wellFormed_iff {r : Row} (hr : r ∈ opcodeTable) (w : Word) :
    (r.build w).wellFormed = true ↔ (opField r.pattern = 2 → kField w ≠ 3) := by
  rcases build_wellFormed_or_checksum hr w with ⟨hwf, hop⟩ | ⟨hbuild, hop⟩
  · exact ⟨fun _ h => absurd h hop, fun _ => hwf⟩
  · rw [hbuild, Instr.wellFormed, ofBits_wellFormed]
    exact ⟨fun h _ => h, fun h => h hop⟩

/-! ## Legal words (R115) -/

theorem exists_row_match_iff {w : Word} :
    (∃ p ∈ legalPatterns, w.toNat &&& p.2 = p.1) ↔ ∃ r ∈ opcodeTable, w &&& r.mask = r.pattern := by
  simp only [← opcodeTable_columns, List.mem_map, exists_exists_and_eq_and, ← BitVec.toNat_and, BitVec.toNat_inj]

theorem opField_eq_two_iff {w : Word} : opField w = 2 ↔ w.toNat % 64 = 2 := by
  simp [opField, BitVec.toNat_eq]

theorem kField_ne_three_iff {w : Word} : kField w ≠ 3 ↔ w.toNat / 512 % 4 ≠ 3 := by
  simp [kField, BitVec.toNat_eq, Nat.shiftRight_eq_div_pow]

theorem legalWord_iff_decodes {w : Word} : LegalWord w ↔ ∃ i, decode w = .ok i := by
  rw [LegalWord, exists_row_match_iff, ← opField_eq_two_iff, ← kField_ne_three_iff]
  constructor
  · rintro ⟨⟨r, hr, hm⟩, hk⟩
    rw [opField_of_match hr hm] at hk
    exact ⟨_, decode_eq_ok_iff.mpr ⟨r, hr, hm, (build_wellFormed_iff hr w).mpr hk, rfl⟩⟩
  · rintro ⟨i, hi⟩
    obtain ⟨r, hr, hm, hwf, -⟩ := decode_eq_ok_iff.mp hi
    exact ⟨⟨r, hr, hm⟩, opField_of_match hr hm ▸ (build_wellFormed_iff hr w).mp hwf⟩

theorem writeCmd_of_decode_error {w : Word} {s : State} {d : DecodeError} (hf : s.fault = false)
    (hd : decode w = .error d) : writeCmd w s = .next (latched s 0x01 w) := by
  rw [writeCmd, hf, hd]; rfl

/-- Settles O3: the legal words are those that decode, and the decoder's error is ILLEGAL. -/
theorem legalWordsRunAndOthersAreIllegal : Obligations.LegalWordsRunAndOthersAreIllegal := by
  unfold Obligations.LegalWordsRunAndOthersAreIllegal
  refine fun w => ⟨legalWord_iff_decodes.mp, fun hill s hf => ?_⟩
  cases hd : decode w with
  | ok i => exact absurd (legalWord_iff_decodes.mpr ⟨i, hd⟩) hill
  | error d => exact writeCmd_of_decode_error hf hd

/-! ## The field K of CHECKSUM (R113) -/

/-- The decoder on an encoded command, K = 3 included. -/
theorem decode_encode_of_opcodeRow {i : Instr} (h : OpcodeRow.Statement i) :
    decode (encode i) = if i.wellFormed then .ok i else .error .reservedKind := by
  obtain ⟨r, hrow, hm, hbuild⟩ := h
  rw [decode_of_row hrow hm, hbuild]

theorem toNat_append_eq_add {n m : Nat} (x : BitVec n) (y : BitVec m) :
    (x ++ y).toNat = x.toNat * 2 ^ m + y.toNat := by
  rw [BitVec.toNat_append, ← Nat.shiftLeft_add_eq_or_of_lt y.isLt, Nat.shiftLeft_eq]

/-- The layout of R111 as a sum: each field times the weight of its lowest bit. -/
theorem toNat_cmdWord (l : Half) (k : BitVec 2) (z s m : Bool) (op : BitVec 6) :
    (cmdWord l k z s m op).toNat =
      l.toNat * 65536 + k.toNat * 512 + z.toNat * 256 + s.toNat * 128 + m.toNat * 64 + op.toNat := by
  simp only [cmdWord, toNat_append_eq_add, BitVec.toNat_ofBool, BitVec.toNat_zero]
  omega

theorem encode_checksum_eq_ofNat {k : Kind} {n : Nat} (hn : k.bits.toNat = n) (l : Half) :
    encode (.checksum k l) = BitVec.ofNat 32 (l.toNat * 65536 + n * 512 + 2) := by
  have hsum : (encode (.checksum k l)).toNat = l.toNat * 65536 + n * 512 + 2 := by
    simp [encode, toNat_cmdWord, hn]
  rw [← hsum, BitVec.ofNat_toNat, BitVec.setWidth_eq]

theorem decode_checksumWord {k : Kind} {n : Nat} (hn : k.bits.toNat = n) (l : Half) :
    decode (BitVec.ofNat 32 (l.toNat * 65536 + n * 512 + 2)) =
      if k.wellFormed then .ok (.checksum k l) else .error .reservedKind := by
  rw [← encode_checksum_eq_ofNat hn, decode_encode_of_opcodeRow (OpcodeRow.checksum k l)]; rfl

/-- Settles O4, by the decoder on the words of the four checksum kinds. -/
theorem checksumKindField : Obligations.ChecksumKindField := by
  unfold Obligations.ChecksumKindField
  refine fun l => ⟨?ip, ?udp, ?tcp, fun s hf => ?reserved⟩
  case ip => exact decode_checksumWord (k := .ip) (n := 0) rfl l
  case udp => exact decode_checksumWord (k := .udp) (n := 1) rfl l
  case tcp => exact decode_checksumWord (k := .tcp) (n := 2) rfl l
  case reserved => exact writeCmd_of_decode_error hf (decode_checksumWord (k := .reserved) (n := 3) rfl l)

end Sys2Proof.Proofs

namespace Sys2Proof.Proofs

open Sys2Proof.Machine Sys2Proof.Safety Sys2Proof.Laws

/-! PROOFS. The Checksum Engine (spec/40_checksum.md): a checksum that was computed is the closed form of its range,
which gives the range of the result (R152) and the round trip through the checksum field (R153). -/

/-! ## Checksums that were computed (R151) -/

/-- The sum that is answered is the word sum, also over an empty range outside FB, which `sumWords_ok` leaves out. -/
theorem sumWords_eq_ok {s : State} {a n acc sum : Nat} (h : sumWords s a n acc = .ok sum) :
    sum = acc + wordSum s.fb a n := by
  induction n using Nat.strongRecOn generalizing a acc with
  | ind n ih =>
    match n, ih, h with
    | 0, _, h => cases h; rfl
    | 1, _, h =>
      obtain ⟨b, hb, h⟩ := bind_eq_ok h
      cases h
      rw [wordSum_one, byteAt_of_read (fbRead_eq_ok hb).2, Nat.shiftLeft_eq]
    | n + 2, ih, h =>
      obtain ⟨w, hw, h⟩ := bind_eq_ok h
      rw [ih n (by omega) h, (memRead_eq_ok hw).2, wordSum_add_two, Nat.add_assoc]

theorem complement_ofNat_ocFold (sum : Nat) :
    ~~~(BitVec.ofNat 16 (ocFold sum)) = BitVec.ofNat 16 (ocChecksum sum) := by
  have := ocFold_lt sum
  refine BitVec.eq_of_toNat_eq ?_
  simp [ocChecksum]; omega

theorem inetChecksum_eq_ok {s : State} {a n : Nat} {k : Kind} {c : Half} (h : inetChecksum s a n k = .ok c) :
    c = BitVec.ofNat 16 (ocChecksum (checksumSeed k n + wordSum s.fb a n)) := by
  obtain ⟨sum, hsum, h⟩ := bind_eq_ok h
  cases h
  rw [sumWords_eq_ok hsum, foldCarries_eq, complement_ofNat_ocFold]

theorem defined_of_inetChecksum_ok {s : State} {a n : Nat} {k : Kind} {c : Half} (hi : a + n ≤ s.params.bufSize)
    (h : inetChecksum s a n k = .ok c) : Defined s.fb a n := fun j hj =>
  ((Asks.inetChecksum hi s rfl).1 c h).1 (a + j) (by simp only [Fx.range]; omega)

/-! ## The range of the result (R152) -/

theorem ocFold_eq_zero_iff {sum : Nat} : ocFold sum = 0 ↔ sum = 0 := by
  unfold ocFold; split <;> omega

theorem ofNat_ocChecksum_eq_max_iff {sum : Nat} : BitVec.ofNat 16 (ocChecksum sum) = 0xFFFF ↔ sum = 0 := by
  have hfold := ocFold_lt sum
  rw [← ocFold_eq_zero_iff, ← BitVec.toNat_inj]
  simp [ocChecksum]; omega

theorem wordSum_eq_zero_iff {m : Memory} {a n : Nat} :
    wordSum m a n = 0 ↔ ∀ j < n, byteAt m (a + j) = 0 := by
  have hterm (j : Nat) : (byteAt m (a + j)).toNat * (if j % 2 = 0 then 256 else 1) = 0 ↔ byteAt m (a + j) = 0 := by
    rw [← BitVec.toNat_inj]; split <;> simp
  simp only [wordSum, List.sum_eq_zero_iff, List.forall_mem_map, List.mem_range, hterm]

theorem defined_of_holds {m : Memory} {a : Nat} {bs : List Byte} (h : Holds m a bs) : Defined m a bs.length :=
  fun j hj => by rw [h j hj, List.getElem?_eq_getElem hj]; rfl

theorem checksumSeed_eq_zero_iff {k : Kind} {n : Nat} (hk : k ≠ .reserved) : checksumSeed k n = 0 ↔ k = .ip := by
  cases k <;> simp [checksumSeed] at hk ⊢

/-- Settles O20, from the closed form of the fold, which is 0 only for the sum 0. -/
theorem checksumResultRange : Obligations.ChecksumResultRange := by
  unfold Obligations.ChecksumResultRange
  refine ⟨fun sum => ?fold, fun s a n k c hk h => ?allZero, fun s a hi h => ?allOnes⟩
  case fold =>
    rw [foldCarries_eq]
    exact ⟨Nat.le_of_lt_succ (ocFold_lt sum), ocFold_eq_zero_iff⟩
  case allZero =>
    rw [inetChecksum_eq_ok h, ofNat_ocChecksum_eq_max_iff, Nat.add_eq_zero_iff, checksumSeed_eq_zero_iff hk,
      wordSum_eq_zero_iff]
  case allOnes =>
    have h0 : s.fb.read a = some 0xFF := h 0 (by decide)
    have h1 : s.fb.read (a + 1) = some 0xFF := h 1 (by decide)
    have hsum : wordSum s.fb a 2 = 65535 := by
      rw [wordSum_add_two, wordSum_zero, beAt_two, byteAt_of_read h0, byteAt_of_read h1]; rfl
    rw [inetChecksum_ok hi (defined_of_holds h), hsum]; rfl

/-! ## The round trip (R153) -/

/-- Settles O21: the checksum that is written is the field `csumField_put2` speaks of, and over such a field the range
verifies. -/
theorem checksumRoundTrip : Obligations.ChecksumRoundTrip := by
  unfold Obligations.ChecksumRoundTrip
  intro s a n f k c h1 h2 heven hz hi h
  have hd : Defined (put2 s.fb f c.toNat) a n :=
    defined_mono (defined_of_inetChecksum_ok hi h) fun _ => isSome_put2
  have hc : c.toNat = ocChecksum (checksumSeed k n + wordSum s.fb a n) := by
    rw [inetChecksum_eq_ok h, BitVec.toNat_ofNat, Nat.mod_eq_of_lt (ocChecksum_lt _)]
  have hverify : ocChecksum (checksumSeed k n + wordSum (put2 s.fb f c.toNat) a n) = 0 := by
    rw [hc]; exact ocChecksum_of_csumField h1 h2 heven (csumField_put2 h1 h2 heven hz)
  exact ⟨_, memWrite_two (by omega), by rw [inetChecksum_at hi hd, hverify]; rfl⟩

end Sys2Proof.Proofs

namespace Sys2Proof.Proofs

open Sys2Proof.Machine Sys2Proof.Safety Sys2Proof.Laws

/-! PROOFS. The Envelope Swapper (spec/42_envelope.md): what stands in the buffers that `swapEthernet`, `fillIpChecksum`
and `newIpHeaderForTcp` leave (R191, R195, R197), and that a `fillIpChecksum` that was run leaves such a buffer, in an FB
of any size. -/

/-! ## Bytes of a buffer -/

@[simp] theorem holds_nil (m : Memory) (a : Nat) : Holds m a [] := fun _ hk => absurd hk (Nat.not_lt_zero _)

theorem holds_cons {m : Memory} {a : Nat} {b : Byte} {bs : List Byte} :
    Holds m a (b :: bs) ↔ m.read a = some b ∧ Holds m (a + 1) bs := by
  refine ⟨fun h => ⟨h 0 (Nat.succ_pos _), fun k hk => ?_⟩, fun ⟨h0, h⟩ k hk => ?_⟩
  · have hread := h (k + 1) (Nat.succ_lt_succ hk)
    rwa [← Nat.add_assoc, Nat.add_right_comm, List.getElem?_cons_succ] at hread
  · cases k with
    | zero => exact h0
    | succ k =>
      rw [← Nat.add_assoc, Nat.add_right_comm, List.getElem?_cons_succ]
      exact h k (Nat.lt_of_succ_lt_succ hk)

/-- Two bytes that hold the halves of a 16-bit value are the field with that value (R81). -/
theorem hasField_of_holds {m : Memory} {a v : Nat} (hv : v < 65536)
    (h : Holds m a [BitVec.ofNat 8 (v >>> 8), BitVec.ofNat 8 v]) : HasField m a v := by
  refine ⟨defined_of_holds h, ?_⟩
  obtain ⟨hhi, h⟩ := holds_cons.mp h
  obtain ⟨hlo, -⟩ := holds_cons.mp h
  rw [beAt_two, byteAt_of_read hhi, byteAt_of_read hlo]
  simp [Nat.shiftRight_eq_div_pow]; omega

/-! ## The end of a command (R97, R295) -/

/-- Stated for a named buffer `m`, so that no buffer is unfolded to compare the two states. -/
theorem exec_of_body_setFb {i : Instr} {s t : State} {m : Memory} (h : body i s = .ok (t.setFb m))
    (hi : i ≠ .tcpAckFromAny) : exec i s = .next { t with fb := m, ackBuilt := false } := by
  rw [exec_eq, finish_ok h, ended, decide_eq_false hi]
  rfl

/-! ## SWAP_ETH (R190, R191) -/

theorem ethTurned_swapEthMem {id : Identity} {m : Memory} (h : Defined m 6 6) :
    EthTurned id m (swapEthMem id.mac m) := by
  refine ⟨fun k hk => ?_, ?_⟩
  · rw [Nat.zero_add, read_swapEthMem h, if_pos hk]
  · simp [macBytes, holds_cons, read_swapEthMem h]

theorem sameFrom_swapEthMem {mac : BitVec 48} {m : Memory} (h : Defined m 6 6) : SameFrom 12 m (swapEthMem mac m) :=
  fun a ha => by rw [read_swapEthMem h, if_neg (by omega), if_neg (by omega)]

/-- Settles O25: where FB[6..11] is defined `swapEthernet` runs, and its buffer is read off `read_swapEthMem`. -/
theorem swapEthExchangesMacs : Obligations.SwapEthExchangesMacs := by
  unfold Obligations.SwapEthExchangesMacs
  rintro s id ⟨hroom, -⟩ hid ⟨-, -, hfb, -⟩
  have hd : Defined s.fb 6 6 := fun k hk => hfb _ (within_iff.mpr (by omega))
  have hrun : body .swapEth s = .ok (s.setFb (swapEthMem id.mac s.fb)) := by
    rw [body, swapEthBody, needIdentity_some hid, bind_ok]
    exact swapEthernet_ok (s := s) hroom hd
  exact ⟨swapEthMem id.mac s.fb, exec_of_body_setFb hrun nofun, ethTurned_swapEthMem hd, sameFrom_swapEthMem hd⟩

/-! ## FILL_IP_CSUM (R194, R195) -/

/-- The header `fillIpChecksum` leaves has DF, offset 0, TTL 64 and its checksum, whatever stood there before. -/
theorem ipNormal_fillIpMem (m : Memory) : IpNormal (fillIpMem m) :=
  ⟨by simp [holds_cons, read_fillIpMem], csumField_fillIpMem m⟩

/-- `fillIpChecksum` writes at 20 to 22, 24 and 25 only. -/
theorem read_fillIpMem_outside {m : Memory} {a : Nat} (h : a < 20 ∨ a = 23 ∨ 26 ≤ a) :
    (fillIpMem m).read a = m.read a := by
  rw [read_fillIpMem a (by omega) (by omega), if_neg (by omega), if_neg (by omega), if_neg (by omega)]

theorem memWrite_two_eq_ok {s t : State} {a v : Nat} (h : s.memWrite a 2 v = .ok t) : t = s.setFb (put2 s.fb a v) := by
  obtain ⟨s', h1, h⟩ := bind_eq_ok h
  obtain ⟨t', h2, h⟩ := bind_eq_ok h
  cases h
  obtain ⟨-, rfl⟩ := fbWrite_eq_ok h1
  exact (fbWrite_eq_ok h2).2

theorem inRange_of_memRead_ok {s : State} {a n v : Nat} (hn : 0 < n) (h : s.memRead a n = .ok v) :
    a + n ≤ s.params.bufSize := by
  induction n generalizing a v with
  | zero => omega
  | succ n ih =>
    obtain ⟨b, hb, h⟩ := bind_eq_ok h
    obtain ⟨r, hr, -⟩ := bind_eq_ok h
    have ha := (fbRead_eq_ok hb).1
    rcases Nat.eq_zero_or_pos n with rfl | hn
    · exact ha
    · have := ih hn hr; omega

/-- A range that was summed lies inside FB, when it has a byte. -/
theorem inRange_of_sumWords_ok {s : State} {a n acc sum : Nat} (hn : 0 < n) (h : sumWords s a n acc = .ok sum) :
    a + n ≤ s.params.bufSize := by
  induction n using Nat.strongRecOn generalizing a acc with
  | ind n ih =>
    match n, ih, h with
    | 0, _, _ => omega
    | 1, _, h =>
      obtain ⟨b, hb, -⟩ := bind_eq_ok h
      exact (fbRead_eq_ok hb).1
    | n + 2, ih, h =>
      obtain ⟨w, hw, h⟩ := bind_eq_ok h
      rcases Nat.eq_zero_or_pos n with rfl | hn
      · exact inRange_of_memRead_ok (by omega) hw
      · have := ih n (by omega) hn h; omega

theorem inRange_of_inetChecksum_ok {s : State} {a n : Nat} {k : Kind} {c : Half} (hn : 0 < n)
    (h : inetChecksum s a n k = .ok c) : a + n ≤ s.params.bufSize :=
  let ⟨_, hsum, _⟩ := bind_eq_ok h
  inRange_of_sumWords_ok hn hsum

/-- The inversion of `fillIpChecksum`: its buffer, and that the header it summed lies inside FB and is defined. -/
theorem fillIpChecksum_eq_ok {s t : State} (h : fillIpChecksum s = .ok t) :
    t = s.setFb (fillIpMem s.fb) ∧ 14 + 20 ≤ s.params.bufSize ∧ Defined (fillIpMem s.fb) 14 20 := by
  obtain ⟨s1, h1, h⟩ := bind_eq_ok h
  obtain ⟨s2, h2, h⟩ := bind_eq_ok h
  obtain ⟨s3, h3, h⟩ := bind_eq_ok h
  obtain ⟨s4, h4, h⟩ := bind_eq_ok h
  obtain ⟨c, hc, h⟩ := bind_eq_ok h
  cases memWrite_two_eq_ok h1
  obtain ⟨-, rfl⟩ := fbWrite_eq_ok h2
  obtain ⟨-, rfl⟩ := fbWrite_eq_ok h3
  obtain ⟨-, rfl⟩ := fbWrite_eq_ok h4
  have hzeroed : inetChecksum (s.setFb (fillIpZeroed s.fb)) 14 20 .ip = .ok c := hc
  have hi := inRange_of_inetChecksum_ok (by omega) hzeroed
  have hcsum : c.toNat = ocChecksum (wordSum (fillIpZeroed s.fb) 14 20) := by
    rw [inetChecksum_eq_ok hzeroed, BitVec.toNat_ofNat, Nat.mod_eq_of_lt (ocChecksum_lt _), checksumSeed, Nat.zero_add,
      setFb_fb]
  refine ⟨?_, hi, defined_mono (defined_of_inetChecksum_ok hi hzeroed) fun _ => isSome_put2⟩
  rw [memWrite_two_eq_ok h, hcsum]
  rfl

/-- Settles O27: a range with its checksum in place verifies (R153), and `csumField_fillIpMem` puts it in place. -/
theorem fillIpCsumMakesHeaderVerify : Obligations.FillIpCsumMakesHeaderVerify := by
  unfold Obligations.FillIpCsumMakesHeaderVerify
  constructor
  · intro s t h
    obtain ⟨rfl, hi, hd⟩ := fillIpChecksum_eq_ok h
    have hverify : ocChecksum (checksumSeed .ip 20 + wordSum (fillIpMem s.fb) 14 20) = 0 :=
      ocChecksum_of_csumField (f := 24) (by omega) (by omega) (by omega) (csumField_fillIpMem s.fb)
    rw [inetChecksum_at hi hd, hverify]; rfl
  · rintro s ⟨hroom, -⟩ ⟨-, -, hfb, -⟩
    have hread : IpHeaderRead s.fb := by
      refine ⟨fun k hk => hfb _ ?_, fun k hk => hfb _ ?_, fun k hk => hfb _ ?_⟩ <;>
        simp [readsFb, within_iff] <;> omega
    have hrun : body .fillIpCsum s = .ok (s.setFb (fillIpMem s.fb)) := fillIpChecksum_ok (s := s) hroom hread
    exact ⟨fillIpMem s.fb, exec_of_body_setFb hrun nofun, ipNormal_fillIpMem _,
      fun a _ h => read_fillIpMem_outside (by omega), fun a _ _ => read_fillIpMem_outside (by omega),
      fun a _ => read_fillIpMem_outside (by omega)⟩

/-! ## NEW_IP_HDR_TCP (R196, R197) -/

/-- `newIpHeaderForTcp` ends in `fillIpChecksum`, in an FB of any size. -/
theorem newIpHeaderForTcp_eq_ok {s t : State} {id : Identity} {tl : Nat} {dip : BitVec 32}
    (h : newIpHeaderForTcp id tl dip s = .ok t) : ∃ u, fillIpChecksum u = .ok t := by
  simp only [newIpHeaderForTcp] at h
  iterate 9 obtain ⟨_, -, h⟩ := bind_eq_ok h
  exact ⟨_, h⟩

theorem read_newIpMem_outside {src dst : BitVec 32} {ident : Half} {tl : Nat} {m : Memory} {a : Nat}
    (h : a < 14 ∨ 34 ≤ a) : (newIpMem src dst ident tl m).read a = m.read a := by
  rw [newIpMem, read_fillIpMem_outside (by omega), read_newIpRaw]
  repeat rw [if_neg (by omega)]

/-- Settles O28: `fillIpChecksum` comes last, so its DF and TTL 64 stay; the command's buffer is read off
`read_newIpMem`. -/
theorem newIpHdrTcpBuildsHeader : Obligations.NewIpHdrTcpBuildsHeader := by
  unfold Obligations.NewIpHdrTcpBuildsHeader
  constructor
  · intro s t id tl dip h
    obtain ⟨u, hfill⟩ := newIpHeaderForTcp_eq_ok h
    obtain ⟨rfl, -⟩ := fillIpChecksum_eq_ok hfill
    exact (ipNormal_fillIpMem u.fb).1
  · rintro s l id dip ⟨hroom, -⟩ hid hdip
    have hrun : body (.newIpHdrTcp l) s = .ok (s.bumpIpid.setFb (newIpMem id.ip dip s.ipid l.toNat s.fb)) := by
      rw [body, newIpHdrTcpBody, needIdentity_some hid, bind_ok, hdip, orUndef_some, bind_ok]
      exact newIpHeaderForTcp_ok (s := s) hroom
    refine ⟨newIpMem id.ip dip s.ipid l.toNat s.fb, exec_of_body_setFb hrun nofun,
      fun a _ h => read_newIpMem_outside (.inl h), ?version, hasField_of_holds l.isLt ?length,
      hasField_of_holds s.ipid.isLt ?ident, ipNormal_fillIpMem _, ?protocol, ?source, ?destination,
      fun a h => read_newIpMem_outside (.inr h)⟩
    all_goals simp [holds_cons, ipBytes, read_newIpMem]

end Sys2Proof.Proofs

namespace Sys2Proof.Proofs

open Sys2Proof.Machine Sys2Proof.Safety Sys2Proof.Laws

/-! PROOFS. The ARP Responder (spec/43_arp.md): the frames ARP_REPLY and ARP_REQUEST build and send (R221, R223). Each
frame is given as one table of reads, from which its fields are read off. -/

/-! ## A command that ends in `Send` (R12, R376) -/

/-- The counterpart of `exec_of_body_setFb` for a body that sends the buffer it has built. -/
theorem exec_of_body_send {i : Instr} {s t : State} {m : Memory} {n : Nat} (h : body i s = (t.setFb m).send n)
    (hn : n ≤ t.params.bufSize) (hd : Defined m 0 n) (hi : i ≠ .tcpAckFromAny) :
    ∃ bytes, exec i s = .next { t with fb := m, tx := t.tx ++ [⟨n, bytes⟩], ackBuilt := false } ∧
      IsFrame m n bytes := by
  rw [send_at hn hd] at h
  refine ⟨_, ?_, isFrame_of_defined hd⟩
  rw [exec_eq, finish_ok h, ended, decide_eq_false hi]
  rfl

/-! ## The address loops (R220, R222) -/

/-- Byte by byte: the field at `dst` gets the field at `src`, which then gets the bytes `own`. -/
def turnField (src dst : Nat) (own : Nat → Byte) (n : Nat) : State → Except Err State :=
  forEach (fun i s => do
    let b ← s.fbRead (src + i)
    let s ← s.fbWrite (dst + i) b
    s.fbWrite (src + i) (own i)) (List.range n)

theorem turnField_ok {s : State} {m : Memory} {src dst n : Nat} {own : Nat → Byte} (hsep : src + n ≤ dst)
    (hi : dst + n ≤ s.params.bufSize) (hd : Defined m src n) :
    ∃ m', turnField src dst own n (s.setFb m) = .ok (s.setFb m') ∧ ∀ a, m'.read a =
      if src ≤ a ∧ a < src + n then some (own (a - src))
      else if dst ≤ a ∧ a < dst + n then m.read (src + (a - dst)) else m.read a := by
  induction n with
  | zero => exact ⟨m, rfl, fun a => by rw [if_neg (by omega), if_neg (by omega)]⟩
  | succ n ih =>
    obtain ⟨m', hrun, hread⟩ := ih (by omega) (by omega) (defined_sub hd (by omega) (by omega))
    have hsrc : m'.read (src + n) = some (byteAt m (src + n)) := by
      rw [hread, if_neg (by omega), if_neg (by omega)]
      exact read_of_isSome (hd n (by omega))
    refine ⟨(m'.write (dst + n) (byteAt m (src + n))).write (src + n) (own n), ?run, fun a => ?read⟩
    case run =>
      rw [turnField] at hrun ⊢
      rw [List.range_succ, forEach_append, hrun, bind_ok, forEach_cons,
        fbRead_at (by omega) (by rw [hsrc]; rfl), bind_ok, fbWrite_at (by omega), bind_ok, fbWrite_at (by omega),
        bind_ok, forEach_nil, byteAt_of_read hsrc]
    case read =>
      have hold := read_of_isSome (hd n (by omega))
      rw [read_write, read_write, hread]
      grind

/-- Byte by byte: the fields at `p` and `q` get the bytes `f` and `g`. -/
def fillFields (p q : Nat) (f g : Nat → Byte) (n : Nat) : State → Except Err State :=
  forEach (fun i s => do
    let s ← s.fbWrite (p + i) (f i)
    s.fbWrite (q + i) (g i)) (List.range n)

theorem fillFields_ok {s : State} {m : Memory} {p q n : Nat} {f g : Nat → Byte} (hsep : p + n ≤ q)
    (hi : q + n ≤ s.params.bufSize) :
    ∃ m', fillFields p q f g n (s.setFb m) = .ok (s.setFb m') ∧ ∀ a, m'.read a =
      if p ≤ a ∧ a < p + n then some (f (a - p)) else if q ≤ a ∧ a < q + n then some (g (a - q)) else m.read a := by
  induction n with
  | zero => exact ⟨m, rfl, fun a => by rw [if_neg (by omega), if_neg (by omega)]⟩
  | succ n ih =>
    obtain ⟨m', hrun, hread⟩ := ih (by omega) (by omega)
    refine ⟨(m'.write (p + n) (f n)).write (q + n) (g n), ?run, fun a => ?read⟩
    case run =>
      rw [fillFields] at hrun ⊢
      rw [List.range_succ, forEach_append, hrun, bind_ok, forEach_cons, fbWrite_at (by omega), bind_ok,
        fbWrite_at (by omega), bind_ok, forEach_nil]
    case read =>
      rw [read_write, read_write, hread]
      grind

/-! ## ARP_REPLY (R220, R221) -/

theorem arpReplyFrame_eq (id : Identity) (s : State) : arpReplyFrame id s =
    swapEthernet id s >>= fun s => s.memWrite 20 2 2 >>= fun s => turnField 22 32 (macByte id.mac) 6 s >>=
      turnField 28 38 (ipByte id.ip) 4 := rfl

theorem body_arpReply {s : State} {id : Identity} (hid : s.identity = some id) :
    body .arpReply s = arpReplyFrame id s >>= fun t => t.send 42 := by
  rw [body, arpReplyBody, needIdentity_some hid]
  simp [arpReplyFrame]

/-- The reply's sender and target fields lie side by side, so both targets come from ten bytes further down. -/
theorem arpReplyFrame_ok {s : State} {id : Identity} (hs : Roomy s) (heth : Defined s.fb 6 6)
    (harp : Defined s.fb 22 10) :
    ∃ m, arpReplyFrame id s = .ok (s.setFb m) ∧ ∀ a, m.read a =
      if a < 6 then s.fb.read (6 + a) else if a < 12 then some (macByte id.mac (a - 6))
      else if a = 20 then some 0x00 else if a = 21 then some 0x02
      else if 22 ≤ a ∧ a < 28 then some (macByte id.mac (a - 22))
      else if 28 ≤ a ∧ a < 32 then some (ipByte id.ip (a - 28))
      else if 32 ≤ a ∧ a < 42 then s.fb.read (a - 10) else s.fb.read a := by
  have hread1 (a : Nat) : (put2 (swapEthMem id.mac s.fb) 20 2).read a = if a = 20 then some 0x00
      else if a = 21 then some 0x02 else if a < 6 then s.fb.read (6 + a)
      else if a < 12 then some (macByte id.mac (a - 6)) else s.fb.read a := by
    rw [read_put2, read_swapEthMem heth]; grind
  have hmac : Defined (put2 (swapEthMem id.mac s.fb) 20 2) 22 6 := fun k hk => by
    have := harp k (by omega)
    rw [hread1]; grind
  obtain ⟨m2, hrun2, hread2⟩ := turnField_ok (s := s) (dst := 32) (own := macByte id.mac) (by omega) (by omega) hmac
  have hip : Defined m2 28 4 := fun k hk => by
    have := harp (6 + k) (by omega)
    rw [hread2, hread1]; grind
  obtain ⟨m3, hrun3, hread3⟩ := turnField_ok (s := s) (dst := 38) (own := ipByte id.ip) (by omega) (by omega) hip
  have heth' := swapEthernet_ok (id := id) hs heth
  rw [setFb_self] at heth'
  refine ⟨m3, ?_, fun a => ?_⟩
  · rw [arpReplyFrame_eq, heth', bind_ok, memWrite_low hs (by omega), bind_ok, hrun2, bind_ok, hrun3]
  · rw [hread3, hread2, hread1, hread2, hread1]; grind

/-- Settles O29: every byte of the reply is read off the table of `arpReplyFrame_ok`. -/
theorem arpReplySendsReply : Obligations.ArpReplySendsReply := by
  unfold Obligations.ArpReplySendsReply
  rintro s id ⟨hroom, -⟩ hid ⟨-, -, hfb, -⟩
  have hin (a : Nat) (h : (6 ≤ a ∧ a < 20) ∨ (22 ≤ a ∧ a < 32)) : (s.fb.read a).isSome = true :=
    hfb a (by simpa [readsFb, within] using h)
  obtain ⟨m, hrun, hread⟩ := arpReplyFrame_ok (id := id) (s := s) hroom (fun k _ => hin _ (by omega))
    (fun k _ => hin _ (by omega))
  have hbody : body .arpReply s = (s.setFb m).send 42 := by rw [body_arpReply hid, hrun, bind_ok]
  have hd : Defined m 0 42 := fun k hk => by
    rw [hread]; grind
  obtain ⟨bytes, hexec, hframe⟩ := exec_of_body_send hbody (by omega) hd nofun
  refine ⟨m, bytes, hexec, hframe, ⟨fun k hk => ?ethDst, ?ethSrc⟩, fun a h1 h2 => ?kept, ?opcode, ?senderMac, ?senderIp,
    fun k hk => ?targetMac, fun k hk => ?targetIp, fun a ha => ?rest⟩
  case ethDst | kept | targetMac | targetIp | rest => rw [hread]; grind
  all_goals simp [holds_cons, macBytes, ipBytes, hread]

/-! ## ARP_REQUEST (R222, R223) -/

/-- EtherType and fixed ARP header of a request. -/
def arpRequestHeader : List Byte := [0x08, 0x06, 0x00, 0x01, 0x08, 0x00, 6, 4, 0x00, 0x01]

theorem length_arpRequestHeader : arpRequestHeader.length = 10 := rfl

/-- The header's writes, field by field. -/
def writeArpRequestHeader (s : State) : Except Err State := do
  let s ← s.memWrite 12 2 0x0806
  let s ← s.memWrite 14 2 0x0001
  let s ← s.memWrite 16 2 0x0800
  let s ← s.fbWrite 18 6
  let s ← s.fbWrite 19 4
  s.memWrite 20 2 0x0001

theorem writeArpRequestHeader_ok {s : State} {m : Memory} (hs : Roomy s) :
    writeArpRequestHeader (s.setFb m) = .ok (s.setFb (m.writeBytes 12 arpRequestHeader)) := by
  simp only [writeArpRequestHeader, memWrite_low hs, fbWrite_low hs, bind_ok, Nat.reduceAdd, Nat.reduceLT]
  rfl

theorem arpRequestFrame_eq (id : Identity) (tip : BitVec 32) (s : State) : arpRequestFrame id tip s =
    fillFields 0 6 (fun _ => 0xFF) (macByte id.mac) 6 s >>= fun s => writeArpRequestHeader s >>= fun s =>
      fillFields 22 32 (macByte id.mac) (fun _ => 0x00) 6 s >>= fillFields 28 38 (ipByte id.ip) (ipByte tip) 4 := by
  simp only [writeArpRequestHeader, bind_assoc]
  rfl

theorem body_arpRequest {s : State} {id : Identity} {tip : BitVec 32} (hid : s.identity = some id)
    (htip : s.argIp = some tip) : body .arpRequest s = arpRequestFrame id tip s >>= fun t => t.send 42 := by
  rw [body, arpRequestBody, needIdentity_some hid, bind_ok, htip, orUndef_some]
  simp [arpRequestFrame]

theorem arpRequestFrame_ok {s : State} {id : Identity} {tip : BitVec 32} (hs : Roomy s) :
    ∃ m, arpRequestFrame id tip s = .ok (s.setFb m) ∧ ∀ a, m.read a =
      if a < 6 then some 0xFF else if a < 12 then some (macByte id.mac (a - 6))
      else if a < 22 then arpRequestHeader[a - 12]?
      else if a < 28 then some (macByte id.mac (a - 22)) else if a < 32 then some (ipByte id.ip (a - 28))
      else if a < 38 then some 0x00 else if a < 42 then some (ipByte tip (a - 38)) else s.fb.read a := by
  obtain ⟨m1, hrun1, hread1⟩ := fillFields_ok (s := s) (m := s.fb) (p := 0) (q := 6) (n := 6) (f := fun _ => 0xFF)
    (g := macByte id.mac) (by omega) (by omega)
  obtain ⟨m3, hrun3, hread3⟩ := fillFields_ok (s := s) (m := m1.writeBytes 12 arpRequestHeader) (p := 22) (q := 32)
    (n := 6) (f := macByte id.mac) (g := fun _ => 0x00) (by omega) (by omega)
  obtain ⟨m4, hrun4, hread4⟩ := fillFields_ok (s := s) (m := m3) (p := 28) (q := 38) (n := 4) (f := ipByte id.ip)
    (g := ipByte tip) (by omega) (by omega)
  rw [setFb_self] at hrun1
  refine ⟨m4, ?_, fun a => ?_⟩
  · rw [arpRequestFrame_eq, hrun1, bind_ok, writeArpRequestHeader_ok hs, bind_ok, hrun3, bind_ok, hrun4]
  · rw [hread4, hread3, read_writeBytes, hread1, length_arpRequestHeader]; grind

/-- Settles O30: every byte of the request is read off the table of `arpRequestFrame_ok`. -/
theorem arpRequestSendsRequest : Obligations.ArpRequestSendsRequest := by
  unfold Obligations.ArpRequestSendsRequest
  rintro s id tip ⟨hroom, -⟩ hid htip
  obtain ⟨m, hrun, hread⟩ := arpRequestFrame_ok (id := id) (tip := tip) (s := s) hroom
  have hbody : body .arpRequest s = (s.setFb m).send 42 := by rw [body_arpRequest hid htip, hrun, bind_ok]
  have hd : Defined m 0 42 := fun k hk => by
    have hlen := length_arpRequestHeader
    rw [hread]; grind
  obtain ⟨bytes, hexec, hframe⟩ := exec_of_body_send hbody (by omega) hd nofun
  refine ⟨m, bytes, hexec, hframe, ?ethDst, ?ethSrc, ?header, ?senderMac, ?senderIp, ?targetMac, ?targetIp,
    fun a ha => ?rest⟩
  case rest => rw [hread]; grind
  all_goals simp [holds_cons, macBytes, ipBytes, hread, arpRequestHeader]

end Sys2Proof.Proofs

namespace Sys2Proof.Proofs

open Sys2Proof.Machine Sys2Proof.Safety Sys2Proof.Laws

/-! PROOFS. The UDP Responder (spec/45_udp.md): the datagram UDP_REPLY builds, sends and checksums (R260, R265), and its
clamped payload length (R261). -/

/-! ## Checksums that are in place -/

/-- A range whose checksum is in place has the checksum 0 (R153). -/
theorem inetChecksum_eq_zero_of_csumField {s : State} {a n f : Nat} {k : Kind} (hi : a + n ≤ s.params.bufSize)
    (hd : Defined s.fb a n) (h1 : a ≤ f) (h2 : f + 2 ≤ a + n) (heven : (f - a) % 2 = 0)
    (h : CsumField s.fb (checksumSeed k n) a n f) : inetChecksum s a n k = .ok 0 := by
  rw [inetChecksum_ok hi hd, ocChecksum_of_csumField h1 h2 heven h]; rfl

theorem checksumSeed_udp (n : Nat) : checksumSeed .udp (16 + n) = 17 + (8 + n) := by
  simp only [checksumSeed, protoUdp]; omega

/-! ## The buffer of the reply (R260, R264) -/

/-- The buffer whose IP addresses UDP_REPLY exchanges: the MACs are exchanged and the lengths written. -/
def udpSized (mac : BitVec 48) (n : Nat) (m : Memory) : Memory :=
  put2 (put2 (swapEthMem mac m) 16 (28 + n)) 38 (8 + n)

/-- The buffer UDP_REPLY checksums: the whole reply with the checksum field zero. -/
def udpZeroed (id : Identity) (port : Half) (pb : Memory) (n : Nat) (m : Memory) : Memory :=
  put2 ((put2 (swapIpMem id.ip (udpSized id.mac n m)) 36 port.toNat).writeBytes 42 (bytesOf pb n)) 40 0

/-- The buffer UDP_REPLY sends. -/
def udpMem (id : Identity) (port : Half) (pb : Memory) (n : Nat) (m : Memory) : Memory :=
  csumMem (17 + (8 + n)) (16 + n) 40 (udpZeroed id port pb n m)

/-- The bytes of FB that UDP_REPLY reads before it writes them. -/
def UdpRead (m : Memory) : Prop := ∀ a, (6 ≤ a ∧ a < 16) ∨ (18 ≤ a ∧ a < 20) ∨ a = 23 ∨ (26 ≤ a ∧ a < 30) ∨
  (34 ≤ a ∧ a < 36) → (m.read a).isSome = true

theorem udpRead_of_readable {s : State} {l : Half} (h : Readable s (.udpReply l)) : UdpRead s.fb :=
  fun a ha => h.1 a (by simpa [readsFb, within, or_assoc] using ha)

section

variable {id : Identity} {port : Half} {pb m : Memory} {n : Nat}

theorem read_udpSized (h : UdpRead m) (a : Nat) : (udpSized id.mac n m).read a =
    if a < 6 then m.read (6 + a) else if a < 12 then some (macByte id.mac (a - 6))
    else if a = 16 then some (BitVec.ofNat 8 ((28 + n) >>> 8)) else if a = 17 then some (BitVec.ofNat 8 (28 + n))
    else if a = 38 then some (BitVec.ofNat 8 ((8 + n) >>> 8)) else if a = 39 then some (BitVec.ofNat 8 (8 + n))
    else m.read a := by
  have heth : Defined m 6 6 := fun k hk => h _ (by omega)
  rw [udpSized, read_put2, read_put2, read_swapEthMem heth]; grind

theorem isSome_udpSized (h : UdpRead m) {a : Nat} (ha : a < 20 ∨ a = 23 ∨ (26 ≤ a ∧ a < 30) ∨ (34 ≤ a ∧ a < 36) ∨
    a = 38 ∨ a = 39) : ((udpSized id.mac n m).read a).isSome = true := by
  unfold UdpRead at h
  rw [read_udpSized h]; grind

theorem swapIpRead_udpSized (h : UdpRead m) : SwapIpRead (udpSized id.mac n m) :=
  ⟨fun _ _ => isSome_udpSized h (by omega), fun _ _ => isSome_udpSized h (by omega),
    fun _ _ => isSome_udpSized h (by omega)⟩

/-- Every byte of the reply outside the two checksum fields, the last write first (R260). -/
theorem read_udpZeroed (h : UdpRead m) (hpb : Defined pb 0 n) (a : Nat) (h24 : a ≠ 24) (h25 : a ≠ 25) :
    (udpZeroed id port pb n m).read a =
      if a = 40 ∨ a = 41 then some 0x00 else if 42 ≤ a ∧ a < 42 + n then pb.read (a - 42)
      else if a = 36 then some (BitVec.ofNat 8 (port.toNat >>> 8)) else if a = 37 then some (BitVec.ofNat 8 port.toNat)
      else if a = 20 then some 0x40 else if a = 21 then some 0x00 else if a = 22 then some 64
      else if 26 ≤ a ∧ a < 30 then some (ipByte id.ip (a - 26)) else if 30 ≤ a ∧ a < 34 then m.read (a - 4)
      else (udpSized id.mac n m).read a := by
  have hpayload (hp : 42 ≤ a ∧ a < 42 + n) : (bytesOf pb n)[a - 42]? = pb.read (a - 42) := by
    rw [getElem?_bytesOf pb (by omega), read_of_defined hpb (b := a - 42) (by omega) (by omega)]
  have hsource (hs : 30 ≤ a ∧ a < 34) : (udpSized id.mac n m).read (a - 4) = m.read (a - 4) := by
    rw [read_udpSized h]; grind
  rw [udpZeroed, read_put2, read_writeBytes, length_bytesOf, read_put2,
    read_swapIpMem (swapIpRead_udpSized h).2.2 a h24 h25]
  grind

/-- What UDP_REPLY writes after `swapIp` lies behind the IP header. -/
theorem read_udpZeroed_ipHeader {a : Nat} (ha : a < 34) :
    (udpZeroed id port pb n m).read a = (swapIpMem id.ip (udpSized id.mac n m)).read a := by
  rw [udpZeroed, read_put2, read_writeBytes, read_put2]
  repeat rw [if_neg (by omega)]

theorem defined_udpZeroed (h : UdpRead m) (hpb : Defined pb 0 n) : Defined (udpZeroed id port pb n m) 0 (42 + n) := by
  intro a ha
  rw [Nat.zero_add]
  by_cases hip : 14 ≤ a ∧ a < 34
  · rw [read_udpZeroed_ipHeader hip.2, read_of_defined (defined_swapIpMem (swapIpRead_udpSized h)) hip.1 hip.2]; rfl
  · have hpayload (hp : 42 ≤ a) : (pb.read (a - 42)).isSome = true := by
      rw [read_of_defined hpb (Nat.zero_le _) (by omega)]; rfl
    have hsized := isSome_udpSized (id := id) (n := n) h (a := a)
    rw [read_udpZeroed h hpb a (by omega) (by omega)]; grind

theorem defined_udpMem (h : UdpRead m) (hpb : Defined pb 0 n) : Defined (udpMem id port pb n m) 0 (42 + n) :=
  defined_mono (defined_udpZeroed h hpb) fun _ => isSome_csumMem

theorem read_udpMem {a : Nat} (h40 : a ≠ 40) (h41 : a ≠ 41) :
    (udpMem id port pb n m).read a = (udpZeroed id port pb n m).read a := read_csumMem h40 h41

theorem csumField_udpMem : CsumField (udpMem id port pb n m) (17 + (8 + n)) 26 (16 + n) 40 :=
  csumField_csumMem (by omega) (by omega) (by omega) (by simp [beAt_two, byteAt, udpZeroed, read_put2])

/-- The UDP checksum of the reply verifies (R265). -/
theorem inetChecksum_udpMem {t : State} (hfb : t.fb = udpMem id port pb n m) (h : UdpRead m) (hpb : Defined pb 0 n)
    (hb : 42 + n ≤ t.params.bufSize) : inetChecksum t 26 (16 + n) .udp = .ok 0 := by
  refine inetChecksum_eq_zero_of_csumField (f := 40) (by omega) ?_ (by omega) (by omega) (by omega) ?_
  · rw [hfb]; exact defined_sub (defined_udpMem h hpb) (by omega) (by omega)
  · rw [hfb, checksumSeed_udp]; exact csumField_udpMem

theorem csumField_ipHeader_udpMem : CsumField (udpMem id port pb n m) 0 14 20 24 :=
  CsumField.congr (csumField_swapIpMem id.ip (udpSized id.mac n m)) (by omega) (by omega) fun a _ ha => by
    rw [read_udpMem (by omega) (by omega), read_udpZeroed_ipHeader ha]

theorem read_udpMem_kept (h : UdpRead m) (hpb : Defined pb 0 n) {a : Nat} (ha : (12 ≤ a ∧ a < 16) ∨
    (18 ≤ a ∧ a < 20) ∨ a = 23 ∨ (34 ≤ a ∧ a < 36) ∨ 42 + n ≤ a) : (udpMem id port pb n m).read a = m.read a := by
  rw [read_udpMem (by omega) (by omega), read_udpZeroed h hpb a (by omega) (by omega), read_udpSized h]
  repeat rw [if_neg (by omega)]

/-! ## The run (R260) -/

theorem udpFrame_ok {s : State} (hs : Roomy s) (h : UdpRead s.fb) (hpb : Defined s.pb 0 n) (hp : n ≤ s.params.pbSize)
    (hb : 42 + n ≤ s.params.bufSize) :
    udpFrame id port n s = .ok (s.setFb (udpMem id port s.pb n s.fb)) := by
  have heth := swapEthernet_ok (id := id) hs fun k (_ : k < 6) => h (6 + k) (by omega)
  have hsized : put2 (put2 (swapEthMem id.mac s.fb) 16 (28 + n)) 38 (8 + n) = udpSized id.mac n s.fb := rfl
  have hturn := swapIp_ok (id := id) hs (swapIpRead_udpSized (id := id) (n := n) h)
  have hzeroed : put2 ((put2 (swapIpMem id.ip (udpSized id.mac n s.fb)) 36 port.toNat).writeBytes 42
    (bytesOf s.pb n)) 40 0 = udpZeroed id port s.pb n s.fb := rfl
  have hsum := inetChecksum_at (s := s) (k := .udp) (by omega) (defined_sub (b := 26) (k := 16 + n)
    (defined_udpZeroed (id := id) (port := port) h hpb) (by omega) (by omega))
  have hlt := ocChecksum_lt (17 + (8 + n) + wordSum (udpZeroed id port s.pb n s.fb) 26 (16 + n))
  rw [setFb_self] at heth
  rw [checksumSeed_udp] at hsum
  simp [udpFrame, udpMem, csumMem, heth, memWrite_low, hs, hsized, hturn, copyPayload_ok hp hb hpb, hzeroed, hsum,
    Nat.mod_eq_of_lt hlt]

end

theorem body_udpReply {s : State} {l port : Half} {id : Identity} (hid : s.identity = some id)
    (hport : s.argPort = some port) (hp : udpLength l ≤ s.params.pbSize) (hb : 42 + udpLength l ≤ s.params.bufSize) :
    body (.udpReply l) s = udpFrame id port (udpLength l) s >>= fun t => t.send (42 + udpLength l) := by
  have hfits : (decide (udpLength l > s.params.pbSize) || decide (42 + udpLength l > s.params.bufSize)) = false := by
    simp [hp, hb]
  rw [body, udpReplyBody, needIdentity_some hid, bind_ok, hport, orUndef_some, bind_ok]
  unfold udpLength at hfits ⊢
  simp only [udpClamp, udpPayload, hfits, raiseIf_false, bind_ok, udpFrame, bind_assoc]

/-- Settles O34: the buffer the run leaves is `udpMem`, whose bytes are read off the tables of `udpZeroed` and
`udpSized`, and whose two checksums are in place. -/
theorem udpReplySendsReply : Obligations.UdpReplySendsReply := by
  unfold Obligations.UdpReplySendsReply
  rintro s l port id ⟨hroom, -⟩ hid hport ⟨-, hup, hreadable⟩
  obtain ⟨-, -, -, -, -, hfits⟩ := upFront_none hup
  obtain ⟨hp, hb⟩ := of_decide_eq_true hfits
  have hfb := udpRead_of_readable hreadable
  have hpb : Defined s.pb 0 (udpLength l) := fun k hk => hreadable.2 _ (by simpa [readsPb] using hk)
  have hle : udpLength l ≤ 220 := Nat.min_le_right _ _
  have hbody := body_udpReply hid hport hp hb
  rw [udpFrame_ok hroom hfb hpb hp hb, bind_ok] at hbody
  obtain ⟨bytes, hexec, hframe⟩ := exec_of_body_send hbody hb (defined_udpMem hfb hpb) nofun
  generalize udpLength l = n at *
  have hkept {a : Nat} := read_udpMem_kept (id := id) (port := port) hfb hpb (a := a)
  refine ⟨udpMem id port s.pb n s.fb, bytes, hexec, hframe, ⟨fun k hk => ?ethDst, ?ethSrc⟩,
    fun a h1 h2 => hkept (by omega), hasField_of_holds (by omega) ?totalLen, fun a h1 h2 => hkept (by omega),
    ⟨?normal, csumField_ipHeader_udpMem⟩, fun a h1 h2 => hkept (by omega), ⟨?source, fun k hk => ?dest⟩,
    fun a h1 h2 => hkept (by omega), hasField_of_holds port.isLt ?dstPort, hasField_of_holds (by omega) ?udpLen,
    csumField_udpMem, fun t ht hparams => inetChecksum_udpMem ht hfb hpb (hparams ▸ hb), fun k hk => ?payload,
    fun a ha => hkept (by omega)⟩
  case ethDst | dest | payload =>
    rw [read_udpMem (by omega) (by omega), read_udpZeroed hfb hpb _ (by omega) (by omega), read_udpSized hfb]; grind
  all_goals simp [holds_cons, macBytes, ipBytes, read_udpMem, read_udpZeroed hfb hpb, read_udpSized hfb]

/-! ## The clamped length (R261) -/

theorem udpLength_clamped {l : Half} (h : 220 < l.toNat) : udpLength l = udpLength 220 := by
  simp [udpLength, Nat.le_of_lt h]

theorem body_udpReply_clamped {l : Half} (h : 220 < l.toNat) (s : State) :
    body (.udpReply l) s = body (.udpReply 220) s := by
  have hlen : min l.toNat udpClamp = min (220 : Half).toNat udpClamp := udpLength_clamped h
  rw [body, body, udpReplyBody, udpReplyBody, hlen]

/-- The one law about commands, for a body that has run. -/
theorem done_of_body_ok {i : Instr} {s t : State} (hp : Roomy s) (hi : i.wellFormed = true) (h : body i s = .ok t) :
    Done i s (ended i t) := by
  have hcases := cases_body hp hi
  unfold Cases at hcases
  rw [h] at hcases
  split at hcases
  · obtain ⟨_, herr, -⟩ := hcases
    cases herr
  · obtain herr | ⟨_, hok, hdone, -⟩ := hcases
    · cases herr
    · cases hok; exact hdone

/-- A command that would send and has only latched an error was stopped by that error: else it had left an event. -/
theorem body_eq_error_of_exec_latched {i : Instr} {s : State} {code : Byte} {w : Word} (hp : Roomy s)
    (hi : i.wellFormed = true) (hs : sends i = true) (h : exec i s = .next (latched s code w)) :
    ∃ e, body i s = .error e ∧ e.code = code := by
  rw [exec_eq] at h
  cases hrun : body i s with
  | error e =>
    rw [finish_error hrun] at h
    injection h with hlatched
    exact ⟨e, rfl, congrArg State.err hlatched⟩
  | ok t =>
    have htx := (done_of_body_ok hp hi hrun).tx
    rw [finish_ok hrun] at h
    injection h with hended
    rw [if_pos hs, hended] at htx
    obtain ⟨f, htx, -⟩ := htx
    simp [latched] at htx

/-- Settles O35: both commands run one body; a 220-byte payload makes the frame of 262 bytes, and an error of that body is
latched under the command's own word. -/
theorem udpPayloadIsClamped : Obligations.UdpPayloadIsClamped := by
  unfold Obligations.UdpPayloadIsClamped
  intro s l hl hlegal
  have hbody := body_udpReply_clamped hl s
  refine ⟨fun hready => ?_, fun code h => ?_⟩
  · obtain ⟨-, hid, -, hargs, -⟩ := upFront_none hready.2.1
    obtain ⟨id, hid⟩ := Option.isSome_iff_exists.mp (hid rfl)
    obtain ⟨port, hport⟩ := Option.isSome_iff_exists.mp hargs
    obtain ⟨m, bytes, hexec, -⟩ := udpReplySendsReply s 220 port id hlegal hid hport hready
    have hsame : exec (.udpReply l) s = exec (.udpReply 220) s := by
      cases hrun : body (.udpReply 220) s with
      | ok t => rw [exec_eq, exec_eq, hbody, hrun]; rfl
      | error e => rw [exec_eq, finish_error hrun] at hexec; simp [latched] at hexec
    exact ⟨hsame, _, _, hsame.trans hexec, rfl, rfl, rfl⟩
  · obtain ⟨e, he, rfl⟩ := body_eq_error_of_exec_latched hlegal.1 rfl rfl h
    rw [exec_eq, finish_error (hbody.trans he)]

end Sys2Proof.Proofs

namespace Sys2Proof.Proofs

open Sys2Proof.Machine Sys2Proof.Safety Sys2Proof.Laws

/-! PROOFS. The TCP Engine (spec/46_tcp.md): the acknowledgment and sequence laws of `buildTcpHeader` (R289, R290), the
bare ACK that TCP_ACK_FROM_ANY builds and sends (R283, R284), and how ACK_BUILT changes (R295). -/

/-! ## How ACK_BUILT changes (R295) -/

/-- A command that ends without a fault latched ran to its end, and `finish` says what ACK_BUILT then is. -/
theorem exec_ackBuilt_of_noFault {s t : State} {i : Instr} (h : exec i s = .next t) (hf : t.fault = false) :
    t.ackBuilt = decide (i = .tcpAckFromAny) := by
  rw [exec_eq] at h
  cases hrun : body i s with
  | ok u => rw [finish_ok hrun] at h; cases h; rfl
  | error e => rw [finish_error hrun] at h; cases h; cases hf

/-- A command that leaves a fault latched, where none was, has only latched it. -/
theorem exec_ackBuilt_of_fault {s t : State} {i : Instr} (hp : Roomy s) (hi : i.wellFormed = true)
    (hs : s.fault = false) (h : exec i s = .next t) (hf : t.fault = true) : t.ackBuilt = s.ackBuilt := by
  rcases exec_next hp hi h with ⟨c, rfl, -⟩ | ⟨hdone, -⟩
  · rfl
  · have hkept : t.fault = s.fault := by rw [hdone.eq]
    rw [hkept, hs] at hf
    cases hf

/-- Settles O45: the two ends of a command are the two lemmas above, a deposit is its own law, and the remaining moves
are sorted by `runMove_next`. -/
theorem ackBuiltUpdate : Obligations.AckBuiltUpdate := by
  unfold Obligations.AckBuiltUpdate
  refine ⟨fun s t w i hs hw h hf => ?completes, fun s t w hl hs h hf => ?faults, fun s t bytes h1 h2 h => ?deposit,
    fun s t e hcmd hrx hreset h => ?others⟩
  case completes =>
    rw [writeCmd, hs, hw] at h
    exact exec_ackBuilt_of_noFault h hf
  case faults =>
    rcases writeCmd_next h with ⟨-, rfl⟩ | ⟨-, -, rfl⟩ | ⟨-, i, hd, hexec⟩
    · rfl
    · rfl
    · exact exec_ackBuilt_of_fault hl.1 (decode_wellFormed hd) hs hexec hf
  case deposit =>
    cases h
    rw [deposit_of_fits h1 h2]
  case others =>
    rcases runMove_next h with ⟨w, rfl, -⟩ | ⟨rfl, -⟩ | ⟨bytes, rfl, -⟩ | hport | ⟨i, b, rfl, -, rfl⟩ |
      ⟨i, b, rfl, -, rfl⟩
    · exact absurd rfl (hcmd w)
    · exact absurd rfl hreset
    · exact absurd rfl (hrx bytes)
    · rw [hport.eq]
    · rfl
    · rfl

/-! ## The acknowledgment law (R289) -/

/-- A header that was built was read first, so `buildTcpHeader_ok` says what it left. -/
theorem buildTcpHeader_eq_ok {s t : State} {rel : Nat} {mss copySeq : Bool} (hs : Roomy s)
    (h : buildTcpHeader rel mss copySeq s = .ok t) :
    Defined s.fb 34 12 ∧ t = (isnAfter copySeq s).setFb (buildTcpMem s.isn rel mss copySeq s.fb) := by
  have hd : Defined s.fb 34 12 := fun k hk =>
    ((does_buildTcpHeader hs rel mss copySeq s rfl).1 t h).2.1 (34 + k) (by simp only [onFb_reads]; omega)
  have hrun := buildTcpHeader_ok (s := s) (rel := rel) (mss := mss) (copySeq := copySeq) hs hd
  rw [setFb_self, h] at hrun
  exact ⟨hd, Except.ok.inj hrun⟩

theorem ackLoop_all_eq_ok {s t : State} {rel : Nat} {copySeq : Bool} (hs : Roomy s)
    (h : ackLoop copySeq [3, 2, 1, 0] rel s = .ok t) : t = s.setFb (ackMem copySeq rel s.fb) := by
  have hd : Defined s.fb 38 8 := fun k hk =>
    ((does_ackLoop_all hs copySeq rel s rfl).1 t h).2.1 (38 + k) (by simp only [onFb_reads]; omega)
  have hrun := ackLoop_ok (s := s) (copySeq := copySeq) (l := [3, 2, 1, 0]) (carry := rel) hs (by decide) hd
  rw [setFb_self, h] at hrun
  exact Except.ok.inj hrun

theorem beAt_buildTcpHeader {s t : State} {rel : Nat} {mss copySeq : Bool} (hs : Roomy s)
    (h : buildTcpHeader rel mss copySeq s = .ok t) : beAt t.fb 42 4 = (beAt s.fb 38 4 + rel) % 4294967296 := by
  obtain ⟨hd, rfl⟩ := buildTcpHeader_eq_ok hs h
  exact beAt_buildTcpMem hd

/-- Settles O37: what the loop leaves is `ackMem`, over which the byte-wise addition is `beAt_ackMem`; the wrap is its
case 0xFFFFFFFF + 1. -/
theorem acknowledgmentLaw : Obligations.AcknowledgmentLaw := by
  unfold Obligations.AcknowledgmentLaw
  refine ⟨fun s t rel mss copySeq hl h => beAt_buildTcpHeader hl.1 h, fun s t rel hl h => ?loop,
    fun s t mss copySeq hl hseq h => ?wraps⟩
  case loop =>
    rw [ackLoop_all_eq_ok hl.1 h]
    exact beAt_ackMem
  case wraps => rw [beAt_buildTcpHeader hl.1 h, hseq]

/-! ## The sequence law (R290) -/

theorem beAt_congr {m m' : Memory} {a b n : Nat} (h : ∀ k < n, m'.read (b + k) = m.read (a + k)) :
    beAt m' b n = beAt m a n := by
  induction n generalizing a b with
  | zero => rfl
  | succ n ih =>
    have hhead : byteAt m' b = byteAt m a := by rw [byteAt, byteAt]; exact congrArg (·.getD 0) (h 0 (by omega))
    have htail : beAt m' (b + 1) n = beAt m (a + 1) n := ih fun k hk => by
      rw [show b + 1 + k = b + (k + 1) by omega, show a + 1 + k = a + (k + 1) by omega]
      exact h (k + 1) (by omega)
    rw [beAt, beAt, hhead, htail]

theorem copied_seq_buildTcpMem {isn : Byte} {rel : Nat} {mss : Bool} {m : Memory} (h : Defined m 34 12) :
    Copied 42 38 4 m (buildTcpMem isn rel mss true m) := fun k hk => by
  rw [read_buildTcpMem h _ (by omega)]; grind

theorem holds_seq_buildTcpMem {isn : Byte} {rel : Nat} {mss : Bool} {m : Memory} (h : Defined m 34 12) :
    Holds (buildTcpMem isn rel mss false m) 38 [0x00, 0x00, isn, 0x00] := by
  simp [holds_cons, read_buildTcpMem h]

theorem beAt_of_holds_fresh {m : Memory} {a : Nat} {isn : Byte} (h : Holds m a [0x00, 0x00, isn, 0x00]) :
    beAt m a 4 = isn.toNat * 256 := by
  simp only [holds_cons] at h
  obtain ⟨h0, h1, h2, h3, -⟩ := h
  simp [beAt, byteAt_of_read, *]

/-- Settles O38: the sequence number is copied, or the four fresh bytes; ISN moves on by 2 in a byte. -/
theorem sequenceLaw : Obligations.SequenceLaw := by
  unfold Obligations.SequenceLaw
  refine fun s t rel mss hl => ⟨fun h => ?copied, fun h => ?fresh⟩
  case copied =>
    obtain ⟨hd, rfl⟩ := buildTcpHeader_eq_ok hl.1 h
    exact ⟨beAt_congr (copied_seq_buildTcpMem hd), rfl⟩
  case fresh =>
    obtain ⟨hd, rfl⟩ := buildTcpHeader_eq_ok hl.1 h
    have hisn : (s.isn + 2).toNat = (s.isn.toNat + 2) % 256 := BitVec.toNat_add s.isn 2
    have hparity : (s.isn + 2).toNat % 2 = s.isn.toNat % 2 := by rw [hisn]; omega
    exact ⟨beAt_of_holds_fresh (holds_seq_buildTcpMem hd), hisn, hparity⟩

/-! ## The parts of TCP_ACK_FROM_ANY that only read (R283, R284) -/

theorem and_flagFin_beq (b : Byte) : (b &&& flagFin == 0x01) = decide (b.toNat % 2 = 1) := by
  rw [Bool.eq_iff_iff, beq_iff_eq, decide_eq_true_iff, ← BitVec.toNat_inj, BitVec.toNat_and]
  exact iff_of_eq (congrArg (· = 1) (Nat.and_one_is_mod _))

/-- FB[47] is asked for only where FINs are echoed (R284). -/
theorem inboundFin_ok {s : State} (hs : Roomy s) (h : s.params.ackFin = .echoFin → (s.fb.read 47).isSome = true) :
    inboundFin s = .ok (decide (s.params.ackFin = .echoFin ∧ (byteAt s.fb 47).toNat % 2 = 1)) := by
  unfold inboundFin
  cases hfin : s.params.ackFin with
  | never => simp
  | echoFin => rw [fbRead_ok (by omega) (h hfin), bind_ok, and_flagFin_beq, pure_eq_ok]; simp

/-- How many bytes the bare ACK acknowledges (R283). -/
def bareAckRel (m : Memory) : Nat := if inboundLen m = 0 then 1 else inboundLen m

/-- The flags byte of the bare ACK (R284). -/
def bareAckFlags (s : State) : Byte :=
  if s.params.ackFin = .echoFin ∧ inboundLen s.fb = 0 ∧ (byteAt s.fb 47).toNat % 2 = 1 then 0x11 else 0x10

theorem bareAckFlags_eq (s : State) : bareAckFlags s =
    if decide (inboundLen s.fb = 0) && decide (s.params.ackFin = .echoFin ∧ (byteAt s.fb 47).toNat % 2 = 1)
    then flagsAckFin else flagsAck :=
  if_congr (by rw [Bool.and_eq_true, decide_eq_true_iff, decide_eq_true_iff, and_left_comm]) rfl rfl

/-- The bytes of FB that TCP_ACK_FROM_ANY reads before it writes them, FB[47] aside. -/
def BareAckRead (m : Memory) : Prop := ∀ a, (6 ≤ a ∧ a < 20) ∨ a = 23 ∨ (26 ≤ a ∧ a < 30) ∨ (34 ≤ a ∧ a < 47) ∨
  (48 ≤ a ∧ a < 50) ∨ (52 ≤ a ∧ a < 54) → (m.read a).isSome = true

theorem bareAckRead_of_readable {s : State} (h : Readable s .tcpAckFromAny) : BareAckRead s.fb := fun a ha =>
  h.1 a (by simp [readsFb, within]; omega)

theorem isSome_flags_of_readable {s : State} (h : Readable s .tcpAckFromAny) (hfin : s.params.ackFin = .echoFin) :
    (s.fb.read 47).isSome = true := h.1 47 (by simp [readsFb, hfin])

theorem body_tcpAckFromAny {s : State} {id : Identity} (hs : Roomy s) (hid : s.identity = some id)
    (h : Readable s .tcpAckFromAny) : body .tcpAckFromAny s =
      tcpAckFrame id (bareAckRel s.fb) (bareAckFlags s) s >>= fun t => t.send 54 := by
  have hread := bareAckRead_of_readable h
  have hinfo := inboundInfo_ok (s := s) hs (fun k (_ : k < 2) => hread (16 + k) (by omega)) (hread 46 (by omega))
  rw [setFb_self] at hinfo
  rw [body, tcpAckFromAnyBody, needIdentity_some hid, bind_ok, hinfo, bind_ok, bareAckFlags_eq]
  simp only [inboundFin_ok hs (isSome_flags_of_readable h), bind_ok, bareAckRel, tcpAckFrame, bind_assoc]

/-! ## The buffer of the bare ACK (R283) -/

/-- The buffer whose MACs are exchanged and whose flags are set. -/
def bareAckTurned (mac : BitVec 48) (flags : Byte) (m : Memory) : Memory := (swapEthMem mac m).write 47 flags

/-- The buffer whose IP addresses TCP_ACK_FROM_ANY exchanges: the TCP header is built and the length written. -/
def bareAckSized (mac : BitVec 48) (isn : Byte) (rel : Nat) (flags : Byte) (m : Memory) : Memory :=
  put2 (buildTcpMem isn rel false true (bareAckTurned mac flags m)) 16 40

/-- The buffer TCP_ACK_FROM_ANY checksums: the whole segment with the TCP checksum field zero. -/
def bareAckZeroed (id : Identity) (isn : Byte) (rel : Nat) (flags : Byte) (m : Memory) : Memory :=
  swapIpMem id.ip (bareAckSized id.mac isn rel flags m)

/-- The buffer TCP_ACK_FROM_ANY sends. -/
def bareAckMem (id : Identity) (isn : Byte) (rel : Nat) (flags : Byte) (m : Memory) : Memory :=
  csumMem (6 + 20) 28 50 (bareAckZeroed id isn rel flags m)

section

variable {id : Identity} {isn : Byte} {rel : Nat} {flags : Byte} {m : Memory}

theorem read_bareAckTurned (h : BareAckRead m) (a : Nat) : (bareAckTurned id.mac flags m).read a =
    if a = 47 then some flags else if a < 6 then m.read (6 + a) else if a < 12 then some (macByte id.mac (a - 6))
    else m.read a := by
  have heth : Defined m 6 6 := fun k hk => h _ (by omega)
  rw [bareAckTurned, read_write, read_swapEthMem heth]; grind

theorem read_bareAckTurned_kept (h : BareAckRead m) {a : Nat} (h12 : 12 ≤ a) (h47 : a ≠ 47) :
    (bareAckTurned id.mac flags m).read a = m.read a := by
  rw [read_bareAckTurned h, if_neg h47, if_neg (by omega), if_neg (by omega)]

theorem defined_tcp_bareAckTurned (h : BareAckRead m) : Defined (bareAckTurned id.mac flags m) 34 12 := fun k hk => by
  rw [read_bareAckTurned_kept h (by omega) (by omega)]; exact h _ (by omega)

/-- Every byte of the segment before `swapIp`, but for the acknowledgment number. -/
theorem read_bareAckSized (h : BareAckRead m) (a : Nat) (ha : a < 42 ∨ 46 ≤ a) :
    (bareAckSized id.mac isn rel flags m).read a =
      if a = 16 then some 0 else if a = 17 then some 40
      else if a = 34 ∨ a = 35 then m.read (a + 2) else if a = 36 ∨ a = 37 then m.read (a - 2)
      else if 38 ≤ a ∧ a < 42 then m.read (a + 4) else if a = 46 then some 0x50
      else if a = 50 ∨ a = 51 then some 0 else (bareAckTurned id.mac flags m).read a := by
  have hturned {b : Nat} := read_bareAckTurned_kept (id := id) (flags := flags) h (a := b)
  have hsrcPort (hp : a = 34 ∨ a = 35) := hturned (b := a + 2) (by omega) (by omega)
  have hdstPort (hp : a = 36 ∨ a = 37) := hturned (b := a - 2) (by omega) (by omega)
  have hseq (hp : 38 ≤ a ∧ a < 42) := hturned (b := a + 4) (by omega) (by omega)
  rw [bareAckSized, read_put2, read_buildTcpMem (defined_tcp_bareAckTurned h) a ha]
  grind

theorem isSome_bareAckTurned (h : BareAckRead m) {a : Nat} (ha : a < 20 ∨ a = 23 ∨ (26 ≤ a ∧ a < 30) ∨
    (34 ≤ a ∧ a < 50) ∨ (52 ≤ a ∧ a < 54)) : ((bareAckTurned id.mac flags m).read a).isSome = true := by
  rw [read_bareAckTurned h]
  unfold BareAckRead at h
  grind

theorem isSome_bareAckSized (h : BareAckRead m) {a : Nat} (ha : a < 20 ∨ a = 23 ∨ (26 ≤ a ∧ a < 30) ∨
    (34 ≤ a ∧ a < 54)) : ((bareAckSized id.mac isn rel flags m).read a).isSome = true := by
  by_cases hcsum : a = 50 ∨ a = 51
  · rw [read_bareAckSized h a (by omega), if_pos hcsum]
    repeat rw [if_neg (by omega)]
    rfl
  · exact isSome_put2 (isSome_buildTcpMem (isSome_bareAckTurned h (by omega)))

theorem swapIpRead_bareAckSized (h : BareAckRead m) : SwapIpRead (bareAckSized id.mac isn rel flags m) :=
  ⟨fun _ _ => isSome_bareAckSized h (by omega), fun _ _ => isSome_bareAckSized h (by omega),
    fun _ _ => isSome_bareAckSized h (by omega)⟩

/-- Every byte of the bare ACK outside the two checksum fields, the last write first (R283). -/
theorem read_bareAckMem (h : BareAckRead m) (a : Nat) (h24 : a ≠ 24) (h25 : a ≠ 25) (h50 : a ≠ 50) (h51 : a ≠ 51) :
    (bareAckMem id isn rel flags m).read a =
      if a = 20 then some 0x40 else if a = 21 then some 0x00 else if a = 22 then some 64
      else if 26 ≤ a ∧ a < 30 then some (ipByte id.ip (a - 26)) else if 30 ≤ a ∧ a < 34 then m.read (a - 4)
      else (bareAckSized id.mac isn rel flags m).read a := by
  have hsource (hs : 30 ≤ a ∧ a < 34) : (bareAckSized id.mac isn rel flags m).read (a - 4) = m.read (a - 4) := by
    rw [read_bareAckSized h _ (by omega), read_bareAckTurned_kept h (by omega) (by omega)]
    repeat rw [if_neg (by omega)]
  rw [bareAckMem, read_csumMem h50 h51, bareAckZeroed, read_swapIpMem (swapIpRead_bareAckSized h).2.2 a h24 h25]
  grind

theorem read_bareAckMem_outsideIp (h : BareAckRead m) {a : Nat} (ha : a < 14 ∨ 34 ≤ a) (h50 : a ≠ 50) (h51 : a ≠ 51) :
    (bareAckMem id isn rel flags m).read a = (bareAckSized id.mac isn rel flags m).read a := by
  rw [read_bareAckMem h a (by omega) (by omega) h50 h51]
  repeat rw [if_neg (by omega)]

theorem read_bareAckMem_kept (h : BareAckRead m) {a : Nat} (ha : (12 ≤ a ∧ a < 16) ∨ (18 ≤ a ∧ a < 20) ∨ a = 23 ∨
    (48 ≤ a ∧ a < 50) ∨ 52 ≤ a) : (bareAckMem id isn rel flags m).read a = m.read a := by
  rw [read_bareAckMem h a (by omega) (by omega) (by omega) (by omega), read_bareAckSized h a (by omega),
    read_bareAckTurned_kept h (by omega) (by omega)]
  repeat rw [if_neg (by omega)]

theorem read_bareAckMem_macs (h : BareAckRead m) {a : Nat} (ha : a < 12) :
    (bareAckMem id isn rel flags m).read a = (swapEthMem id.mac m).read a := by
  rw [read_bareAckMem_outsideIp h (by omega) (by omega) (by omega), read_bareAckSized h a (by omega), bareAckTurned,
    read_write]
  repeat rw [if_neg (by omega)]

theorem length_macBytes (mac : BitVec 48) : (macBytes mac).length = 6 := rfl

theorem ethTurned_bareAckMem (h : BareAckRead m) : EthTurned id m (bareAckMem id isn rel flags m) := by
  obtain ⟨hdst, hsrc⟩ := ethTurned_swapEthMem (id := id) fun k (_ : k < 6) => h (6 + k) (by omega)
  exact ⟨fun k hk => (read_bareAckMem_macs h (by omega)).trans (hdst k hk), fun k hk =>
    (read_bareAckMem_macs h (by rw [length_macBytes] at hk; omega)).trans (hsrc k hk)⟩

theorem ipTurned_bareAckMem (h : BareAckRead m) : IpTurned id m (bareAckMem id isn rel flags m) := by
  refine ⟨by simp [holds_cons, ipBytes, read_bareAckMem h], fun k hk => ?_⟩
  rw [read_bareAckMem h _ (by omega) (by omega) (by omega) (by omega)]; grind

theorem portsExchanged_bareAckMem (h : BareAckRead m) : PortsExchanged m (bareAckMem id isn rel flags m) := by
  refine ⟨fun k hk => ?srcPort, fun k hk => ?dstPort⟩
  all_goals
    rw [read_bareAckMem_outsideIp h (by omega) (by omega) (by omega), read_bareAckSized h _ (by omega)]
    grind

theorem copied_seq_bareAckMem (h : BareAckRead m) : Copied 42 38 4 m (bareAckMem id isn rel flags m) := fun k hk => by
  rw [read_bareAckMem_outsideIp h (by omega) (by omega) (by omega), read_bareAckSized h _ (by omega)]; grind

theorem defined_bareAckZeroed (h : BareAckRead m) : Defined (bareAckZeroed id isn rel flags m) 0 54 := by
  intro a ha
  have hip := swapIpRead_bareAckSized (id := id) (isn := isn) (rel := rel) (flags := flags) h
  rw [Nat.zero_add]
  by_cases hhdr : 14 ≤ a ∧ a < 34
  · rw [bareAckZeroed, read_of_defined (defined_swapIpMem hip) hhdr.1 hhdr.2]; rfl
  · exact isSome_swapIpMem hip.2.2 (isSome_bareAckSized h (by omega))

theorem defined_bareAckMem (h : BareAckRead m) : Defined (bareAckMem id isn rel flags m) 0 54 :=
  defined_mono (defined_bareAckZeroed h) fun _ => isSome_csumMem

/-- `buildTcpHeader` builds the acknowledgment number from the inbound sequence number, and nothing later touches it. -/
theorem acknowledges_bareAckMem (h : BareAckRead m) : Acknowledges rel m (bareAckMem id isn rel flags m) := by
  refine ⟨defined_sub (defined_bareAckMem h) (by omega) (by omega), ?_⟩
  have hbuilt : beAt (bareAckMem id isn rel flags m) 42 4 =
      beAt (buildTcpMem isn rel false true (bareAckTurned id.mac flags m)) 42 4 := beAt_congr fun k hk => by
    rw [read_bareAckMem_outsideIp h (by omega) (by omega) (by omega), bareAckSized, read_put2]
    repeat rw [if_neg (by omega)]
  have hseq : beAt (bareAckTurned id.mac flags m) 38 4 = beAt m 38 4 := beAt_congr fun k hk =>
    read_bareAckTurned_kept h (by omega) (by omega)
  rw [hbuilt, beAt_buildTcpMem (defined_tcp_bareAckTurned h), hseq]

theorem beAt_csum_bareAckZeroed (h : BareAckRead m) : beAt (bareAckZeroed id isn rel flags m) 50 2 = 0 := by
  simp [beAt_two, byteAt, bareAckZeroed, read_swapIpMem (swapIpRead_bareAckSized h).2.2, read_bareAckSized h]

theorem csumField_tcp_bareAckMem (h : BareAckRead m) :
    CsumField (bareAckMem id isn rel flags m) (6 + 20) 26 28 50 :=
  csumField_csumMem (by omega) (by omega) (by omega) (beAt_csum_bareAckZeroed h)

theorem ipNormal_bareAckMem (h : BareAckRead m) : IpNormal (bareAckMem id isn rel flags m) :=
  ⟨by simp [holds_cons, read_bareAckMem h], CsumField.congr (csumField_swapIpMem id.ip _) (by omega) (by omega)
    fun _ _ _ => read_csumMem (by omega) (by omega)⟩

/-! ## The run (R283) -/

theorem tcpAckFrame_ok {s : State} (hs : Roomy s) (h : BareAckRead s.fb) :
    tcpAckFrame id rel flags s = .ok (s.setFb (bareAckMem id s.isn rel flags s.fb)) := by
  have heth := swapEthernet_ok (id := id) hs fun k (_ : k < 6) => h (6 + k) (by omega)
  have htcp := buildTcpHeader_ok (rel := rel) (mss := false) (copySeq := true) hs
    (defined_tcp_bareAckTurned (id := id) (flags := flags) h)
  have hip := swapIp_ok (id := id) hs (swapIpRead_bareAckSized (id := id) (isn := s.isn) (rel := rel) (flags := flags) h)
  have hsum := fillTcpChecksum_ok (n := 28) hs (by omega) (defined_sub (b := 26) (k := 28)
    (defined_bareAckZeroed (id := id) (isn := s.isn) (rel := rel) (flags := flags) h) (by omega) (by omega))
  have hturned : (swapEthMem id.mac s.fb).write 47 flags = bareAckTurned id.mac flags s.fb := rfl
  have hsized : put2 (buildTcpMem s.isn rel false true (bareAckTurned id.mac flags s.fb)) 16 40 =
    bareAckSized id.mac s.isn rel flags s.fb := rfl
  have hzeroed : swapIpMem id.ip (bareAckSized id.mac s.isn rel flags s.fb) =
    bareAckZeroed id s.isn rel flags s.fb := rfl
  rw [setFb_self] at heth
  simp [tcpAckFrame, bareAckMem, heth, fbWrite_low, memWrite_low, hs, hturned, htcp, isnAfter, hsized, hip, hzeroed, hsum,
    checksumSeed]

end

/-- The counterpart of `exec_of_body_send` for the one command that sets ACK_BUILT (R295). -/
theorem exec_tcpAckFromAny_of_body_send {s t : State} {m : Memory} {n : Nat}
    (h : body .tcpAckFromAny s = (t.setFb m).send n) (hn : n ≤ t.params.bufSize) (hd : Defined m 0 n) :
    ∃ bytes, exec .tcpAckFromAny s = .next { t with fb := m, tx := t.tx ++ [⟨n, bytes⟩], ackBuilt := true } ∧
      IsFrame m n bytes := by
  rw [send_at hn hd] at h
  refine ⟨_, ?_, isFrame_of_defined hd⟩
  rw [exec_eq, finish_ok h, ended, decide_eq_true rfl]
  rfl

/-- Settles O40: the buffer the run leaves is `bareAckMem`, whose bytes are read off the tables of `bareAckMem`,
`bareAckSized` and `bareAckTurned`, with `acknowledges_bareAckMem` for the acknowledgment number. -/
theorem tcpAckFromAnySendsAck : Obligations.TcpAckFromAnySendsAck := by
  unfold Obligations.TcpAckFromAnySendsAck
  rintro s id ⟨hroom, -⟩ hid ⟨-, -, hreadable⟩ d
  have h := bareAckRead_of_readable hreadable
  have hbody := body_tcpAckFromAny hroom hid hreadable
  rw [tcpAckFrame_ok hroom h, bind_ok] at hbody
  obtain ⟨bytes, hexec, hframe⟩ := exec_tcpAckFromAny_of_body_send hbody (by omega) (defined_bareAckMem h)
  have hkept {a : Nat} := read_bareAckMem_kept (id := id) (isn := s.isn) (rel := bareAckRel s.fb)
    (flags := bareAckFlags s) h (a := a)
  refine ⟨_, bytes, hexec, hframe, ethTurned_bareAckMem h, fun a h1 h2 => hkept (by omega),
    hasField_of_holds (by omega) ?totalLen, fun a h1 h2 => hkept (by omega), ipNormal_bareAckMem h,
    fun a h1 h2 => hkept (by omega), ipTurned_bareAckMem h, portsExchanged_bareAckMem h, copied_seq_bareAckMem h,
    acknowledges_bareAckMem h, ?headerLen, ?flags, fun a h1 h2 => hkept (by omega), csumField_tcp_bareAckMem h,
    fun a ha => hkept (by omega)⟩
  all_goals
    simp [holds_cons, read_bareAckMem h, read_bareAckSized h, read_bareAckTurned h, bareAckFlags, d]

end Sys2Proof.Proofs

namespace Sys2Proof.Proofs

open Sys2Proof.Machine Sys2Proof.Safety Sys2Proof.Laws

/-! PROOFS. Errors (spec/60_exceptions.md): the word FAULT_CMD gets, a command that faults has no effect but the latch
(R361), NOT_INIT (R363), and the link deposit (R377). -/

/-! ## The word of a decoded command (R110, R115, R117) -/

/-- Two words are equal when they agree under a mask and in every bit the mask leaves free. -/
theorem eq_of_mask_agree {v w mask : Word} (hmask : v &&& mask = w &&& mask)
    (hfree : ∀ j < 32, mask.getLsbD j = false → v.getLsbD j = w.getLsbD j) : v = w := by
  refine BitVec.eq_of_getLsbD_eq fun j hj => ?_
  cases hb : mask.getLsbD j with
  | false => exact hfree j hj hb
  | true => simpa [hb] using congrArg (·.getLsbD j) hmask

theorem getLsbD_lField (w : Word) (j : Nat) : (lField w).getLsbD j = (decide (j < 16) && w.getLsbD (16 + j)) :=
  BitVec.getLsbD_extractLsb' ..

theorem getLsbD_kField (w : Word) (j : Nat) : (kField w).getLsbD j = (decide (j < 2) && w.getLsbD (9 + j)) :=
  BitVec.getLsbD_extractLsb' ..

theorem bits_ofBits (k : BitVec 2) : (Kind.ofBits k).bits = k := by revert k; decide

/-- The row reads nothing but what its mask leaves free: encoding what it builds gives the word back. -/
def RowInverts (r : Row) : Prop := ∀ w, w &&& r.mask = r.pattern → encode (r.build w) = w

theorem rowInverts_plainRow {mnemonic : String} {op : Word} {i : Instr} (h : encode i = op) :
    RowInverts (plainRow mnemonic op i) := fun w hw => by
  have hall : w &&& BitVec.allOnes 32 = op := hw
  rw [BitVec.and_allOnes] at hall
  exact h.trans hall.symm

theorem rowInverts_lengthRow {mnemonic : String} {op : BitVec 6} {pattern : Word} {f : Half → Instr}
    (h : ∀ l, encode (f l) = lengthWord l op) (hop : lengthWord 0 op = pattern) :
    RowInverts (lengthRow mnemonic pattern f) := fun w hw => by
  subst hop
  refine (h (lField w)).trans (eq_of_mask_agree ((lengthWord_mask _ op).trans hw.symm) fun j hj hfree => ?_)
  rw [lengthWord, getLsbD_cmdWord, getLsbD_lField]
  interval_cases j <;> simp_all

theorem rowInverts_checksum : RowInverts
    ⟨"CHECKSUM", 0x0000F9FF, 0x02, fun w => .checksum (Kind.ofBits (kField w)) (lField w)⟩ := fun w hw => by
  refine eq_of_mask_agree ((checksumWord_mask _ _).trans hw.symm) fun j hj hfree => ?_
  simp only [encode, getLsbD_cmdWord, bits_ofBits, getLsbD_lField, getLsbD_kField]
  interval_cases j <;> simp_all

theorem rowInverts_buildTcpHdr : RowInverts
    ⟨"BUILD_TCP_HDR", 0xFFFFFF3F, 0x0F, fun w => .buildTcpHdr (mField w) (sField w)⟩ := fun w hw => by
  have hmask (m s : Bool) : cmdWord 0 0 false s m 0x0F &&& 0xFFFFFF3F = 0x0F := by revert m s; decide
  refine eq_of_mask_agree ((hmask _ _).trans hw.symm) fun j hj hfree => ?_
  simp only [encode, getLsbD_cmdWord, mField, sField]
  interval_cases j <;> simp_all

theorem rowInverts_tcpClient : RowInverts
    ⟨"TCP_CLIENT", 0x0000FEBF, 0x14, fun w => .tcpClient (mField w) (zField w) (lField w)⟩ := fun w hw => by
  refine eq_of_mask_agree ((clientWord_mask _ _ _).trans hw.symm) fun j hj hfree => ?_
  simp only [encode, getLsbD_cmdWord, mField, zField, getLsbD_lField]
  interval_cases j <;> simp_all

theorem rowInverts_of_mem : ∀ r ∈ opcodeTable, RowInverts r := by
  simp only [opcodeTable, List.forall_mem_cons]
  exact ⟨rowInverts_plainRow rfl, rowInverts_checksum, rowInverts_lengthRow (fun _ => rfl) rfl,
    rowInverts_lengthRow (fun _ => rfl) rfl, rowInverts_lengthRow (fun _ => rfl) rfl, rowInverts_plainRow rfl,
    rowInverts_plainRow rfl, rowInverts_plainRow rfl, rowInverts_lengthRow (fun _ => rfl) rfl,
    rowInverts_plainRow rfl, rowInverts_plainRow rfl, rowInverts_plainRow rfl,
    rowInverts_lengthRow (fun _ => rfl) rfl, rowInverts_lengthRow (fun _ => rfl) rfl, rowInverts_buildTcpHdr,
    rowInverts_plainRow rfl, rowInverts_plainRow rfl, rowInverts_lengthRow (fun _ => rfl) rfl,
    rowInverts_lengthRow (fun _ => rfl) rfl, rowInverts_tcpClient, rowInverts_plainRow rfl, rowInverts_plainRow rfl,
    rowInverts_plainRow rfl, nofun⟩

/-- The word FAULT_CMD gets is the one the host wrote (R361; log entry 10). -/
theorem encode_of_decode {w : Word} {i : Instr} (h : decode w = .ok i) : encode i = w := by
  obtain ⟨r, hr, hm, -, rfl⟩ := decode_eq_ok_iff.mp h
  exact rowInverts_of_mem r hr w hm

/-! ## Fault entry (R361) -/

theorem writeCmd_of_decode_ok {w : Word} {s : State} {i : Instr} (hf : s.fault = false) (hd : decode w = .ok i) :
    writeCmd w s = exec i s := by
  rw [writeCmd, hf, hd]; rfl

/-- The codes of R360. -/
theorem upFrontError_range {s : State} {i : Instr} {c : Byte} (h : upFrontError s i = some c) :
    1 ≤ c.toNat ∧ c.toNat ≤ 7 := by
  unfold upFrontError at h
  repeat' split at h
  all_goals cases h
  all_goals decide

/-- Settles O13: the decoder latches ILLEGAL, and a command by `exec_next` latches one code or leaves no fault. -/
theorem faultEntryIsPrecise : Obligations.FaultEntryIsPrecise := by
  unfold Obligations.FaultEntryIsPrecise
  intro s t w hl hs h ht
  rcases writeCmd_next h with ⟨hf, -⟩ | ⟨-, -, rfl⟩ | ⟨-, i, hd, hexec⟩
  · rw [hs] at hf; cases hf
  · exact ⟨0x01, by decide, by decide, rfl⟩
  · rcases exec_next hl.1 (decode_wellFormed hd) hexec with ⟨c, rfl, hc⟩ | ⟨hdone, -⟩
    · have hrange : 1 ≤ c.toNat ∧ c.toNat ≤ 7 := by
        rcases hc with hc | rfl
        · exact upFrontError_range hc
        · decide
      exact ⟨c, hrange.1, hrange.2, by rw [encode_of_decode hd]⟩
    · have hkept : t.fault = s.fault := by rw [hdone.eq]
      rw [hkept, hs] at ht; cases ht

/-! ## NOT_INIT (R363) -/

/-- The identity is the first thing a command marked "ID" asks for. -/
theorem body_eq_needIdentity_bind {i : Instr} (h : needsIdentity i = true) (s : State) :
    ∃ f : Identity → Except Err State, body i s = s.needIdentity >>= f := by
  cases i with
  | isArpForMe | isIpForMe | classify | swapEth | swapIp | newIpHdrTcp | arpReply | arpRequest | isArpReplyForMe
  | echoReply | udpReply | tcpSynack | tcpAckFromAny | tcpClient => exact ⟨_, rfl⟩
  | initAddr | checksum | fillIpCsum | buildTcpHdr | tcpAckWithData | tcpRespondData | inboundInfo | getDataOffset
  | getDataLen => cases h

/-- Settles O16: the command's first question has no answer. -/
theorem notInitIsRaised : Obligations.NotInitIsRaised := by
  unfold Obligations.NotInitIsRaised
  intro s i hi hid
  obtain ⟨f, hbody⟩ := body_eq_needIdentity_bind hi s
  rw [needIdentity_none hid, bind_error] at hbody
  rw [exec_eq, finish_error hbody]
  rfl

/-! ## The link deposit (R377) -/

theorem deposit_of_not_fits {s : State} {bytes : List Byte} (h : bytes = [] ∨ s.params.bufSize < bytes.length) :
    deposit bytes s = s := by
  refine if_neg fun ⟨h1, h2⟩ => ?_
  rcases h with rfl | h
  · exact absurd h1 (by decide)
  · omega

theorem holds_writeBytes (m : Memory) (a : Nat) (bs : List Byte) : Holds (m.writeBytes a bs) a bs := fun k hk => by
  rw [read_writeBytes, if_pos (by omega), Nat.add_sub_cancel_left]

theorem sameFrom_writeBytes (m : Memory) (bs : List Byte) : SameFrom bs.length m (m.writeBytes 0 bs) := fun a ha => by
  rw [read_writeBytes, if_neg (by omega)]

/-- Settles O52: the two branches of `deposit`; a length P_BUF_SIZE allows fits RX_LEN. -/
theorem depositWritesFrame : Obligations.DepositWritesFrame := by
  unfold Obligations.DepositWritesFrame
  intro s bytes hl
  refine ⟨fun h1 h2 => ⟨s.fb.writeBytes 0 bytes, ?_, ?_, holds_writeBytes _ _ _, sameFrom_writeBytes _ _⟩, fun h => ?_⟩
  · rw [runMove, deposit_of_fits h1 h2]
  · have hmax := hl.2.1
    rw [BitVec.toNat_ofNat, Nat.mod_eq_of_lt (by omega)]
  · rw [runMove, deposit_of_not_fits h]

end Sys2Proof.Proofs

namespace Sys2Proof.Proofs

open Sys2Proof.Machine Sys2Proof.Safety Sys2Proof.Laws

/-! PROOFS. A command that is ready runs (R367): `Does` of Laws/Effects.lean says what an operation reads when it has
run; `Runs` is the other half, that it runs when those bytes are defined. -/

/-! ## Operations that run -/

/-- On a machine with the parameters `p` the operation runs wherever the bytes `fx` reads are defined. It leaves defined
what was, and what `fx` writes. -/
def Runs (p : Config.Params) (fx : Fx) (f : State → Except Err State) : Prop :=
  ∀ s, s.params = p → WasReadable fx s → ∃ t, f s = .ok t ∧ t.params = p ∧ t.pb = s.pb ∧
    ∀ a, (s.fb.read a).isSome = true ∨ fx.writes a → (t.fb.read a).isSome = true

section
variable {p : Config.Params} {x y : Fx} {f g : State → Except Err State}

/-- The second operation finds what the first has written, so it asks only for the rest. -/
theorem Runs.bind (hf : Runs p x f) (hg : Runs p y g) : Runs p (x.seq y) fun s => f s >>= g := by
  rintro s hs ⟨hfb, hpb⟩
  obtain ⟨t, hft, htp, htpb, htd⟩ := hf s hs ⟨fun a h => hfb a (.inl h), fun a h => hpb a (.inl h)⟩
  have hread : WasReadable y t := by
    refine ⟨fun a h => htd a ?_, fun a h => htpb ▸ hpb a (.inr h)⟩
    by_cases hw : x.writes a
    · exact .inr hw
    · exact .inl (hfb a (.inr ⟨h, hw⟩))
  obtain ⟨u, hgu, hup, hupb, hud⟩ := hg t htp hread
  refine ⟨u, by simp only [hft, bind_ok, hgu], hup, hupb.trans htpb, fun a ha => hud a ?_⟩
  rcases ha with ha | ha | ha
  · exact .inl (htd a (.inl ha))
  · exact .inl (htd a (.inr ha))
  · exact .inr ha

theorem Runs.weaken (h : Runs p x f) (hr : ∀ a, x.reads a → y.reads a) (hw : ∀ a, y.writes a → x.writes a)
    (hpb : ∀ a, x.pbReads a → y.pbReads a) : Runs p y f := fun s hs hread => by
  obtain ⟨t, hft, htp, htpb, htd⟩ := h s hs ⟨fun a ha => hread.1 a (hr a ha), fun a ha => hread.2 a (hpb a ha)⟩
  exact ⟨t, hft, htp, htpb, fun a ha => htd a (ha.imp_right (hw a))⟩

/-- The laws of Laws/Envelope.lean and Laws/Replies.lean speak of a state whose buffer is named. -/
theorem Runs.of_setFb (h : ∀ s, s.params = p → WasReadable x s → ∃ u m, f (s.setFb s.fb) = .ok (State.setFb u m) ∧
    u.params = p ∧ u.pb = s.pb ∧ ∀ a, (s.fb.read a).isSome = true ∨ x.writes a → (m.read a).isSome = true) :
    Runs p x f := fun s hs hread => by
  obtain ⟨u, m, hrun, hup, hupb, hm⟩ := h s hs hread
  exact ⟨u.setFb m, hrun, hup, hupb, hm⟩

theorem Runs.pure : Runs p Fx.none fun s => .ok s := fun s hs _ =>
  ⟨s, rfl, hs, rfl, fun _ ha => ha.resolve_right id⟩

theorem Runs.fbWrite {i : Nat} {v : State → Byte} (hi : i < p.bufSize) :
    Runs p (Fx.write i (i + 1)) fun s => s.fbWrite i (v s) := by
  refine Runs.of_setFb ?_
  rintro s rfl -
  refine ⟨s, _, fbWrite_at hi, rfl, rfl, fun a ha => ?_⟩
  simp only [Fx.write] at ha
  rw [read_write]
  grind

theorem Runs.memWrite {a : Nat} {v : State → Nat} (hi : a + 2 ≤ p.bufSize) :
    Runs p (Fx.write a (a + 2)) fun s => s.memWrite a 2 (v s) := by
  refine Runs.of_setFb ?_
  rintro s rfl -
  refine ⟨s, _, memWrite_at (by omega), rfl, rfl, fun b hb => ?_⟩
  simp only [Fx.write] at hb
  rw [read_put2]
  grind

theorem Runs.fbWriteBytes {a : Nat} {bs : List Byte} (hi : a + bs.length ≤ p.bufSize) :
    Runs p (Fx.write a (a + bs.length)) fun s => s.fbWriteBytes a bs := by
  refine Runs.of_setFb ?_
  rintro s rfl -
  refine ⟨s, _, fbWriteBytes_at hi, rfl, rfl, fun b hb => ?_⟩
  simp only [Fx.write] at hb
  rw [read_writeBytes]
  grind

/-! ## The helpers the commands call -/

theorem runs_swapEthernet (hp : 64 ≤ p.bufSize) (id : Identity) :
    Runs p (Fx.onFb (fun a => 6 ≤ a ∧ a < 12) fun a => a < 12) (swapEthernet id) := by
  refine Runs.of_setFb ?_
  rintro s rfl ⟨hfb, -⟩
  have h : Defined s.fb 6 6 := fun k hk => hfb _ (by simp; omega)
  refine ⟨s, _, swapEthernet_ok hp h, rfl, rfl, fun a ha => ?_⟩
  rw [read_swapEthMem h]
  have := h a
  grind [onFb_writes]

theorem runs_fillIpChecksum (hp : 64 ≤ p.bufSize) :
    Runs p (Fx.onFb (fun a => (14 ≤ a ∧ a < 20) ∨ a = 23 ∨ (26 ≤ a ∧ a < 34))
      fun a => (20 ≤ a ∧ a < 23) ∨ (24 ≤ a ∧ a < 26)) fillIpChecksum := by
  refine Runs.of_setFb ?_
  rintro s rfl ⟨hfb, -⟩
  have h : IpHeaderRead s.fb := ⟨fun k hk => hfb _ (by simp; omega), fun k hk => hfb _ (by simp; omega),
    fun k hk => hfb _ (by simp; omega)⟩
  refine ⟨s, _, fillIpChecksum_ok hp h, rfl, rfl, fun a ha => ?_⟩
  rcases ha with ha | ha
  · exact isSome_fillIpMem ha
  · exact isSome_of_defined (defined_fillIpMem h) (by simp at ha; omega) (by simp at ha; omega)

theorem runs_swapIp (hp : 64 ≤ p.bufSize) (id : Identity) :
    Runs p (Fx.onFb (fun a => (14 ≤ a ∧ a < 20) ∨ a = 23 ∨ (26 ≤ a ∧ a < 30))
      fun a => (20 ≤ a ∧ a < 23) ∨ (24 ≤ a ∧ a < 34)) (swapIp id) := by
  refine Runs.of_setFb ?_
  rintro s rfl ⟨hfb, -⟩
  have h : SwapIpRead s.fb := ⟨fun k hk => hfb _ (by simp; omega), fun k hk => hfb _ (by simp; omega),
    fun k hk => hfb _ (by simp; omega)⟩
  refine ⟨s, _, swapIp_ok hp h, rfl, rfl, fun a ha => ?_⟩
  rcases ha with ha | ha
  · exact isSome_swapIpMem h.2.2 ha
  · exact isSome_of_defined (defined_swapIpMem h) (by simp at ha; omega) (by simp at ha; omega)

theorem defined_newIpMem (src dst : BitVec 32) (ident : Half) (tl : Nat) (m : Memory) :
    Defined (newIpMem src dst ident tl m) 14 20 := defined_fillIpMem (ipHeaderRead_newIpRaw ..)

theorem runs_newIpHeaderForTcp (hp : 64 ≤ p.bufSize) (id : Identity) (tl : Nat) (dip : BitVec 32) :
    Runs p (Fx.onFb (fun _ => False) fun a => 14 ≤ a ∧ a < 34) (newIpHeaderForTcp id tl dip) := by
  refine Runs.of_setFb ?_
  rintro s rfl -
  refine ⟨s.bumpIpid, _, newIpHeaderForTcp_ok hp, rfl, rfl, fun a ha => ?_⟩
  by_cases hw : 14 ≤ a ∧ a < 34
  · exact isSome_of_defined (defined_newIpMem _ _ _ _ _) hw.1 hw.2
  · rw [read_newIpMem_outside (by omega)]
    exact ha.resolve_right hw

theorem runs_ackLoop (hp : 64 ≤ p.bufSize) (copySeq : Bool) (rel : Nat) :
    Runs p (Fx.onFb (fun a => 38 ≤ a ∧ a < 46) fun _ => False) (ackLoop copySeq [3, 2, 1, 0] rel) := by
  refine Runs.of_setFb ?_
  rintro s rfl ⟨hfb, -⟩
  have h : Defined s.fb 38 8 := fun k hk => hfb _ (by simp; omega)
  exact ⟨s, _, ackLoop_ok hp (by decide) h, rfl, rfl, fun a ha => isSome_ackMem (ha.resolve_right id)⟩

theorem runs_buildTcpHeader (hp : 64 ≤ p.bufSize) (rel : Nat) (mss copySeq : Bool) :
    Runs p (Fx.onFb (fun a => 34 ≤ a ∧ a < 46) fun a => a = 46 ∨ a = 50 ∨ a = 51 ∨ (mss = true ∧ 54 ≤ a ∧ a < 58))
      (buildTcpHeader rel mss copySeq) := by
  refine Runs.of_setFb ?_
  rintro s rfl ⟨hfb, -⟩
  have h : Defined s.fb 34 12 := fun k hk => hfb _ (by simp; omega)
  refine ⟨isnAfter copySeq s, _, buildTcpHeader_ok hp h, ?_, ?_, fun a ha => ?_⟩
  · cases copySeq <;> rfl
  · cases copySeq <;> rfl
  · rcases ha with ha | ha
    · exact isSome_buildTcpMem ha
    · simp only [onFb_writes] at ha
      rw [read_buildTcpMem h a (by omega)]
      grind

theorem runs_fillTcpChecksum (hp : 64 ≤ p.bufSize) {n : Nat} (hn : 26 + n ≤ p.bufSize) :
    Runs p (Fx.onFb (fun a => 26 ≤ a ∧ a < 26 + n) fun a => a = 50 ∨ a = 51) (fillTcpChecksum n) := by
  refine Runs.of_setFb ?_
  rintro s rfl ⟨hfb, -⟩
  have h : Defined s.fb 26 n := fun k hk => hfb _ (by simp; omega)
  refine ⟨s, _, fillTcpChecksum_ok hp hn h, rfl, rfl, fun a ha => ?_⟩
  rw [csumMem, read_put2]
  grind [onFb_writes]

theorem runs_copyPayload {dst n : Nat} (hb : dst + n ≤ p.bufSize) (hn : n ≤ p.pbSize) :
    Runs p { Fx.onFb (fun _ => False) (fun a => dst ≤ a ∧ a < dst + n) with pbReads := fun a => a < n }
      (copyPayload dst n) := by
  refine Runs.of_setFb ?_
  rintro s rfl ⟨-, hpb⟩
  have h : Defined s.pb 0 n := fun k hk => hpb _ (by simpa using hk)
  refine ⟨s, _, copyPayload_ok hn hb h, rfl, rfl, fun a ha => ?_⟩
  rw [read_writeBytes, length_bytesOf]
  grind [onFb_writes, length_bytesOf]

/-! ## The frames the commands send -/

theorem runs_echoFrame (hp : 64 ≤ p.bufSize) (id : Identity) :
    Runs p (Fx.onFb (fun a => (6 ≤ a ∧ a < 12) ∨ (14 ≤ a ∧ a < 20) ∨ a = 23 ∨ (26 ≤ a ∧ a < 30))
      fun a => a < 12 ∨ (20 ≤ a ∧ a < 23) ∨ (24 ≤ a ∧ a < 35)) (echoFrame id) := by
  refine Runs.weaken (Runs.bind (runs_swapEthernet hp id) (Runs.bind (runs_swapIp hp id)
    (Runs.fbWrite (i := 34) (v := fun _ => 0x00) (by omega)))) (fun a ha => ?_) (fun a ha => ?_) (fun a ha => ?_)
  · simp [Fx.seq, Fx.write, Fx.none] at ha ⊢; omega
  · simp [Fx.seq, Fx.write, Fx.none] at ha ⊢; omega
  · simp [Fx.seq, Fx.write, Fx.none] at ha

theorem runs_tcpSynackFrame (hp : 64 ≤ p.bufSize) (id : Identity) :
    Runs p (Fx.onFb (fun a => (6 ≤ a ∧ a < 12) ∨ (14 ≤ a ∧ a < 16) ∨ (18 ≤ a ∧ a < 20) ∨ a = 23 ∨
        (26 ≤ a ∧ a < 30) ∨ (34 ≤ a ∧ a < 46) ∨ (48 ≤ a ∧ a < 50) ∨ (52 ≤ a ∧ a < 54))
      (fun a => a < 12 ∨ (16 ≤ a ∧ a < 18) ∨ (20 ≤ a ∧ a < 23) ∨ (24 ≤ a ∧ a < 34) ∨ a = 46 ∨ a = 47 ∨
        (50 ≤ a ∧ a < 52) ∨ (54 ≤ a ∧ a < 58))) (tcpSynackFrame id) := by
  refine Runs.weaken (Runs.bind (runs_swapEthernet hp id)
    (Runs.bind (Runs.memWrite (a := 16) (v := fun _ => 44) (by omega))
    (Runs.bind (runs_swapIp hp id)
    (Runs.bind (Runs.fbWrite (i := 47) (v := fun _ => flagsSynAck) (by omega))
    (Runs.bind (runs_buildTcpHeader hp 1 true false) (runs_fillTcpChecksum hp (n := 32) (by omega)))))))
    (fun a ha => ?_) (fun a ha => ?_) (fun a ha => ?_)
  · simp [Fx.seq, Fx.write, Fx.none] at ha ⊢; omega
  · simp [Fx.seq, Fx.write, Fx.none] at ha ⊢; omega
  · simp [Fx.seq, Fx.write, Fx.none] at ha

theorem runs_ackWithDataFrame (hp : 64 ≤ p.bufSize) {n : Nat} (hn : 54 + n ≤ p.bufSize) :
    Runs p (Fx.onFb (fun a => (14 ≤ a ∧ a < 16) ∨ (18 ≤ a ∧ a < 20) ∨ a = 23 ∨ (26 ≤ a ∧ a < 47) ∨
        (48 ≤ a ∧ a < 50) ∨ (52 ≤ a ∧ a < 54 + n))
      fun a => (16 ≤ a ∧ a < 18) ∨ (20 ≤ a ∧ a < 23) ∨ (24 ≤ a ∧ a < 26) ∨ a = 47 ∨ a = 50 ∨ a = 51)
      (ackWithDataFrame n) := by
  refine Runs.weaken (Runs.bind (Runs.fbWrite (i := 47) (v := fun _ => flagsAckPshFin) (by omega))
    (Runs.bind (Runs.memWrite (a := 16) (v := fun _ => 20 + 20 + n) (by omega))
    (Runs.bind (runs_fillIpChecksum hp)
    (Runs.bind (Runs.memWrite (a := 50) (v := fun _ => 0) (by omega)) (runs_fillTcpChecksum hp (by omega))))))
    (fun a ha => ?_) (fun a ha => ?_) (fun a ha => ?_)
  · simp [Fx.seq, Fx.write, Fx.none] at ha ⊢; omega
  · simp [Fx.seq, Fx.write, Fx.none] at ha ⊢; omega
  · simp [Fx.seq, Fx.write, Fx.none] at ha

theorem runs_ethFields (hp : 64 ≤ p.bufSize) (u v : Nat → Byte) :
    Runs p (Fx.onFb (fun _ => False) fun a => a < 12) (fillFields 0 6 u v 6) := by
  refine Runs.of_setFb ?_
  rintro s rfl -
  obtain ⟨m, hrun, hread⟩ := fillFields_ok (s := s) (m := s.fb) (p := 0) (q := 6) (n := 6) (f := u) (g := v)
    (by omega) (by omega)
  refine ⟨s, m, hrun, rfl, rfl, fun a ha => ?_⟩
  rw [hread]
  grind [onFb_writes]

theorem runs_clearAck (hp : 64 ≤ p.bufSize) (z : Bool) (flags : Byte) : Runs p Fx.none (clearAck z flags) := by
  unfold clearAck
  split
  · exact (Runs.fbWriteBytes (a := 42) (bs := [0, 0, 0, 0]) (by simp; omega)).weaken (fun _ h => h)
      (fun _ h => h.elim) fun _ h => h
  · exact Runs.pure

theorem runs_clientOptions (hp : 64 ≤ p.bufSize) (m : Bool) :
    Runs p (Fx.onFb (fun _ => False) fun a => m = true ∧ ((48 ≤ a ∧ a < 50) ∨ (54 ≤ a ∧ a < 58)))
      (clientOptions m) := by
  cases m with
  | false => exact Runs.pure.weaken (fun _ h => h) (fun _ h => by simp at h) fun _ h => h
  | true =>
    refine (Runs.bind (Runs.fbWriteBytes (a := 54) (bs := mssOption) (by simp [mssOption]; omega))
      (Runs.memWrite (a := 48) (v := fun s => s.params.clientWindow.toNat) (by omega))).weaken (fun a ha => ?_)
      (fun a ha => ?_) fun a ha => ?_
    · simp [Fx.seq, Fx.write, Fx.none] at ha
    · simp [Fx.seq, Fx.write, Fx.none, mssOption] at ha ⊢; omega
    · simp [Fx.seq, Fx.write, Fx.none] at ha

/-- TCP_CLIENT's frame in two parts: up to the Ethernet type, and the IP and TCP headers. -/
theorem clientFrame_eq (id : Identity) (dport sport : Half) (flags : Byte) (rel : Half) (dmac : BitVec 48)
    (dip : BitVec 32) (m z : Bool) (len : Nat) (s : State) : clientFrame id dport sport flags rel dmac dip m z len s =
      (ackLoop true [3, 2, 1, 0] rel.toNat s >>= fun s => clearAck z flags s >>= fun s =>
        fillFields 0 6 (macByte dmac) (macByte id.mac) 6 s >>= fun s => s.memWrite 12 2 0x0800) >>= fun s =>
      newIpHeaderForTcp id (20 + clientHdr m + len) dip s >>= fun s => s.memWrite 34 2 sport.toNat >>= fun s =>
      s.memWrite 36 2 dport.toNat >>= fun s => s.fbWrite 46 (if m then hlen24 else hlen20) >>= fun s =>
      s.fbWrite 47 flags >>= fun s => clientOptions m s >>= fun s => s.memWrite 50 2 0x0000 >>=
      fillTcpChecksum (8 + clientHdr m + len) := by
  simp only [bind_assoc]
  rfl

theorem runs_clientFrame (hp : 64 ≤ p.bufSize) (id : Identity) (dport sport : Half) (flags : Byte) (rel : Half)
    (dmac : BitVec 48) (dip : BitVec 32) (m z : Bool) {len : Nat} (hb : 34 + clientHdr m + len ≤ p.bufSize) :
    Runs p (Fx.onFb (fun a => (38 ≤ a ∧ a < 46) ∨ (m = false ∧ 48 ≤ a ∧ a < 50) ∨ (52 ≤ a ∧ a < 54) ∨
        (34 + clientHdr m ≤ a ∧ a < 34 + clientHdr m + len))
      (fun a => a < 38 ∨ a = 46 ∨ a = 47 ∨ (m = true ∧ 48 ≤ a ∧ a < 50) ∨ (50 ≤ a ∧ a < 52) ∨
        (m = true ∧ 54 ≤ a ∧ a < 58))) (clientFrame id dport sport flags rel dmac dip m z len) := by
  have hfront : Runs p (Fx.onFb (fun a => 38 ≤ a ∧ a < 46) fun a => a < 14) fun s =>
      ackLoop true [3, 2, 1, 0] rel.toNat s >>= fun s => clearAck z flags s >>= fun s =>
        fillFields 0 6 (macByte dmac) (macByte id.mac) 6 s >>= fun s => s.memWrite 12 2 0x0800 := by
    refine (Runs.bind (runs_ackLoop hp true rel.toNat) (Runs.bind (runs_clearAck hp z flags)
      (Runs.bind (runs_ethFields hp _ _) (Runs.memWrite (a := 12) (v := fun _ => 0x0800) (by omega))))).weaken
      (fun a ha => ?_) (fun a ha => ?_) fun a ha => ?_
    · simpa [Fx.seq, Fx.write, Fx.none] using ha
    · simp [Fx.seq, Fx.write, Fx.none] at ha ⊢; omega
    · simp [Fx.seq, Fx.write, Fx.none] at ha
  rw [funext (clientFrame_eq id dport sport flags rel dmac dip m z len)]
  refine (Runs.bind hfront (Runs.bind (runs_newIpHeaderForTcp hp id _ dip)
    (Runs.bind (Runs.memWrite (a := 34) (v := fun _ => sport.toNat) (by omega))
    (Runs.bind (Runs.memWrite (a := 36) (v := fun _ => dport.toNat) (by omega))
    (Runs.bind (Runs.fbWrite (i := 46) (v := fun _ => if m then hlen24 else hlen20) (by omega))
    (Runs.bind (Runs.fbWrite (i := 47) (v := fun _ => flags) (by omega))
    (Runs.bind (runs_clientOptions hp m)
    (Runs.bind (Runs.memWrite (a := 50) (v := fun _ => 0x0000) (by omega))
      (runs_fillTcpChecksum hp (n := 8 + clientHdr m + len) (by omega)))))))))).weaken
    (fun a ha => ?_) (fun a ha => ?_) fun a ha => ?_
  · cases m <;> simp [Fx.seq, Fx.write, Fx.none, clientHdr] at ha ⊢ <;> omega
  · cases m <;> simp [Fx.seq, Fx.write, Fx.none] at ha ⊢ <;> omega
  · simp [Fx.seq, Fx.write, Fx.none] at ha

end

end Sys2Proof.Proofs

namespace Sys2Proof.Proofs

open Sys2Proof.Machine Sys2Proof.Safety Sys2Proof.Laws

/-! PROOFS. Every command that is ready runs, so the first error that applies is the one reported
(spec/60_exceptions.md, R367). Where a result statement settled above says what a command leaves, it is cited; the
others run by `Runs` or by the laws of their reads. -/

/-! ## The tests of the classifier -/

section
variable {s : State}

theorem ipAtIs_ok {a : Nat} (ip : BitVec 32) (hi : a + 4 ≤ s.params.bufSize) (h : Defined s.fb a 4) :
    ∃ b, ipAtIs s a ip = .ok b := ⟨_, by rw [ipAtIs, fbBytes_ok hi h, bind_ok]; rfl⟩

theorem isArpForMe_ok (hs : Roomy s) (ip : BitVec 32) {l : Half}
    (h : ∀ a, arpTestReads s l a = true → (s.fb.read a).isSome = true) : ∃ b, isArpForMe ip l.toNat s = .ok b := by
  unfold isArpForMe
  by_cases hl : l.toNat < 41
  · exact ⟨false, if_pos hl⟩
  have htype : Defined s.fb ethType 2 := fun k hk => h _ (by simp [arpTestReads, within]; omega)
  rw [if_neg hl, memRead_ok (by simp; omega) htype, bind_ok]
  split
  · exact ⟨false, rfl⟩
  · exact ipAtIs_ok ip (by simp; omega) fun k hk => h _ (by simp_all [arpTestReads, within]; omega)

theorem isIpForMe_ok (hs : Roomy s) (ip : BitVec 32) {l : Half}
    (h : ∀ a, ipTestReads s l a = true → (s.fb.read a).isSome = true) : ∃ b, isIpForMe ip l.toNat s = .ok b := by
  unfold isIpForMe
  by_cases hl : l.toNat < 42
  · exact ⟨false, if_pos hl⟩
  have htype : Defined s.fb ethType 2 := fun k hk => h _ (by simp [ipTestReads, within]; omega)
  rw [if_neg hl, memRead_ok (by simp; omega) htype, bind_ok]
  split
  · exact ⟨false, rfl⟩
  have hver : (s.fb.read ipVerIhl).isSome = true := h _ (by simp_all [ipTestReads])
  rw [fbRead_ok (by simp; omega) hver, bind_ok]
  split
  · exact ⟨false, rfl⟩
  · exact ipAtIs_ok ip (by simp; omega) fun k hk => h _ (by simp_all [ipTestReads, within]; omega)

theorem isArpReplyForMe_ok (hs : Roomy s) (ip : BitVec 32)
    (h : ∀ a, readsFb s .isArpReplyForMe a = true → (s.fb.read a).isSome = true) :
    ∃ b, isArpReplyForMe ip s = .ok b := by
  unfold isArpReplyForMe
  have htype : Defined s.fb ethType 2 := fun k hk => h _ (by simp [readsFb, within]; omega)
  rw [memRead_ok (by simp; omega) htype, bind_ok]
  split
  · exact ⟨false, rfl⟩
  have hop : Defined s.fb arpOpcode 2 := fun k hk => h _ (by simp_all [readsFb, within]; omega)
  rw [memRead_ok (by simp; omega) hop, bind_ok]
  split
  · exact ⟨false, rfl⟩
  · exact ipAtIs_ok ip (by simp; omega) fun k hk => h _ (by simp_all [readsFb, within]; omega)

/-! ## What a ready command has at hand -/

/-- The identity a command marked "ID" reads is there. -/
theorem identity_of_upFront {i : Instr} (hu : upFrontError s i = none) (hi : needsIdentity i = true) :
    ∃ id, s.identity = some id := Option.isSome_iff_exists.mp ((upFront_none hu).2.1 hi)

theorem argsSet_of_upFront {i : Instr} (hu : upFrontError s i = none) : argsSet s i = true := by
  obtain ⟨-, -, -, hargs, -⟩ := upFront_none hu
  exact hargs

theorem lengthsFit_of_upFront {i : Instr} (hu : upFrontError s i = none) : lengthsFit s i = true := by
  obtain ⟨-, -, -, -, -, hfit⟩ := upFront_none hu
  exact hfit

/-- A length check that passes. -/
theorem raiseIf_gt_of_le {m n : Nat} {e : Err} (h : m ≤ n) : raiseIf (decide (m > n)) e = .ok () := by
  rw [decide_eq_false (Nat.not_lt.mpr h), raiseIf_false]

theorem Runs.ok_of_readable {i : Instr} {fx : Fx} {f : State → Except Err State} (h : Runs s.params fx f)
    (hr : Readable s i) (hfb : ∀ a, fx.reads a → readsFb s i a = true)
    (hpb : ∀ a, fx.pbReads a → readsPb i a = true) : ∃ t, f s = .ok t := by
  obtain ⟨t, ht, -⟩ := h s rfl ⟨fun a ha => hr.1 a (hfb a ha), fun a ha => hr.2 a (hpb a ha)⟩
  exact ⟨t, ht⟩

/-- A frame is sent whole: what the command has not written itself it counts among its reads. -/
theorem Runs.send_of_readable {i : Instr} {fx : Fx} {f : State → Except Err State} {n : Nat} (h : Runs s.params fx f)
    (hn : n ≤ s.params.bufSize) (hr : Readable s i)
    (hfb : ∀ a, fx.reads a ∨ (a < n ∧ ¬ fx.writes a) → readsFb s i a = true)
    (hpb : ∀ a, fx.pbReads a → readsPb i a = true) : ∃ t, (f s >>= fun t => t.send n) = .ok t := by
  obtain ⟨t, hft, htp, -, htd⟩ := h s rfl ⟨fun a ha => hr.1 a (hfb a (.inl ha)), fun a ha => hr.2 a (hpb a ha)⟩
  have hwhole : Defined t.fb 0 n := fun k hk => htd _ <| by
    by_cases hw : fx.writes (0 + k)
    · exact .inr hw
    · exact .inl (hr.1 _ (hfb _ (.inr ⟨by omega, hw⟩)))
  exact ⟨_, by rw [hft, bind_ok, send_ok (htp ▸ hn) hwhole]⟩

/-! ## INIT_ADDR and the commands that write RESULT, INFO_DLEN or INFO_HLEN -/

theorem body_initAddr_ok (hu : upFrontError s .initAddr = none) : ∃ t, body .initAddr s = .ok t := by
  obtain ⟨-, -, hid, hargs, -⟩ := upFront_none hu
  simp only [argsSet, Bool.and_eq_true, Option.isSome_iff_exists] at hargs
  obtain ⟨⟨⟨hi, hhi⟩, lo, hlo⟩, ip, hip⟩ := hargs
  exact ⟨_, by rw [body, initAddrBody, hid rfl, argMac_of_halves hhi hlo, hip]; rfl⟩

theorem body_checksum_ok {k : Kind} {l : Half} (hk : k.wellFormed = true) (hu : upFrontError s (.checksum k l) = none)
    (hr : Readable s (.checksum k l)) : ∃ t, body (.checksum k l) s = .ok t := by
  obtain ⟨-, -, -, hargs, hlen, hfit⟩ := upFront_none hu
  obtain ⟨off, hoff⟩ := Option.isSome_iff_exists.mp hargs
  have hk : (k == Kind.reserved) = false := by cases k <;> simp_all [Kind.wellFormed]
  have hin : off.toNat + l.toNat ≤ s.params.bufSize := by simpa [lengthsFit, hoff] using hfit
  have hd : Defined s.fb off.toNat l.toNat := fun j hj => hr.1 _ (by simp [readsFb, within, hoff, hj])
  have hbody : body (.checksum k l) s = inetChecksum s off.toNat l.toNat k >>= fun c => .ok (s.setResult c) := by
    simp only [badLength] at hlen
    simp only [body, checksumBody, hk, hoff, hlen, raiseIf_gt_of_le hin, raiseIf_false, orUndef_some, bind_ok,
      pure_eq_ok]
  exact ⟨_, by rw [hbody, inetChecksum_ok hin hd, bind_ok]⟩

theorem body_isArpForMe_ok {l : Half} (hs : Roomy s) (hu : upFrontError s (.isArpForMe l) = none)
    (hr : Readable s (.isArpForMe l)) : ∃ t, body (.isArpForMe l) s = .ok t := by
  obtain ⟨id, hid⟩ := identity_of_upFront hu rfl
  obtain ⟨b, hb⟩ := isArpForMe_ok hs id.ip (l := l) hr.1
  exact ⟨_, by rw [body, isArpForMeBody, needIdentity_some hid, bind_ok, hb]; rfl⟩

theorem body_isIpForMe_ok {l : Half} (hs : Roomy s) (hu : upFrontError s (.isIpForMe l) = none)
    (hr : Readable s (.isIpForMe l)) : ∃ t, body (.isIpForMe l) s = .ok t := by
  obtain ⟨id, hid⟩ := identity_of_upFront hu rfl
  obtain ⟨b, hb⟩ := isIpForMe_ok hs id.ip (l := l) hr.1
  exact ⟨_, by rw [body, isIpForMeBody, needIdentity_some hid, bind_ok, hb]; rfl⟩

theorem body_classify_ok {l : Half} (hs : Roomy s) (hu : upFrontError s (.classify l) = none)
    (hr : Readable s (.classify l)) : ∃ t, body (.classify l) s = .ok t := by
  obtain ⟨id, hid⟩ := identity_of_upFront hu rfl
  obtain ⟨arp, harp⟩ := isArpForMe_ok hs id.ip (l := l) fun a ha => hr.1 a (by simp [readsFb, ha])
  obtain ⟨ip, hip⟩ := isIpForMe_ok hs id.ip (l := l) fun a ha => hr.1 a (by simp [readsFb, ha])
  rw [body, classifyBody, needIdentity_some hid, bind_ok, harp, hip]
  cases arp <;> cases ip <;> exact ⟨_, rfl⟩

theorem body_isArpReplyForMe_ok (hs : Roomy s) (hu : upFrontError s .isArpReplyForMe = none)
    (hr : Readable s .isArpReplyForMe) : ∃ t, body .isArpReplyForMe s = .ok t := by
  obtain ⟨id, hid⟩ := identity_of_upFront hu rfl
  obtain ⟨b, hb⟩ := isArpReplyForMe_ok hs id.ip hr.1
  exact ⟨_, by rw [body, isArpReplyForMeBody, needIdentity_some hid, bind_ok, hb]; rfl⟩

/-- The three commands that read the inbound segment's lengths read the same bytes. -/
theorem inboundInfo_ok_of_readable {i : Instr} (hs : Roomy s) (hr : Readable s i)
    (hi : readsFb s i = fun a => within 16 18 a || a == 46) :
    inboundInfo s = .ok (inboundLen s.fb, inboundHdr s.fb) := by
  refine inboundInfo_ok (m := s.fb) hs (fun k hk => hr.1 _ ?_) (hr.1 _ ?_)
  · rw [hi]; simp [within]; omega
  · rw [hi]; rfl

theorem body_inboundInfo_ok (hs : Roomy s) (hr : Readable s .inboundInfo) : ∃ t, body .inboundInfo s = .ok t :=
  ⟨_, by rw [body, inboundInfoBody, inboundInfo_ok_of_readable hs hr rfl]; rfl⟩

theorem body_getDataOffset_ok (hs : Roomy s) (hr : Readable s .getDataOffset) :
    ∃ t, body .getDataOffset s = .ok t :=
  ⟨_, by rw [body, getDataOffsetBody, inboundInfo_ok_of_readable hs hr rfl]; rfl⟩

theorem body_getDataLen_ok (hs : Roomy s) (hr : Readable s .getDataLen) : ∃ t, body .getDataLen s = .ok t :=
  ⟨_, by rw [body, getDataLenBody, inboundInfo_ok_of_readable hs hr rfl]; rfl⟩

/-! ## The commands that write headers -/

theorem body_swapEth_ok (hs : Roomy s) (hu : upFrontError s .swapEth = none) (hr : Readable s .swapEth) :
    ∃ t, body .swapEth s = .ok t := by
  obtain ⟨id, hid⟩ := identity_of_upFront hu rfl
  rw [body, swapEthBody, needIdentity_some hid, bind_ok]
  exact (runs_swapEthernet hs id).ok_of_readable hr (fun a ha => by simpa [readsFb, within] using ha) fun _ h => h.elim

theorem body_swapIp_ok (hs : Roomy s) (hu : upFrontError s .swapIp = none) (hr : Readable s .swapIp) :
    ∃ t, body .swapIp s = .ok t := by
  obtain ⟨id, hid⟩ := identity_of_upFront hu rfl
  rw [body, swapIpBody, needIdentity_some hid, bind_ok]
  exact (runs_swapIp hs id).ok_of_readable hr (fun a ha => by simp [readsFb, within] at ha ⊢; omega) fun _ h => h.elim

theorem body_fillIpCsum_ok (hs : Roomy s) (hr : Readable s .fillIpCsum) : ∃ t, body .fillIpCsum s = .ok t :=
  (runs_fillIpChecksum hs).ok_of_readable hr (fun a ha => by simp [readsFb, within] at ha ⊢; omega) fun _ h => h.elim

theorem body_newIpHdrTcp_ok {l : Half} (hs : Roomy s) (hu : upFrontError s (.newIpHdrTcp l) = none)
    (hr : Readable s (.newIpHdrTcp l)) : ∃ t, body (.newIpHdrTcp l) s = .ok t := by
  obtain ⟨id, hid⟩ := identity_of_upFront hu rfl
  obtain ⟨dip, hdip⟩ := Option.isSome_iff_exists.mp (argsSet_of_upFront hu)
  rw [body, newIpHdrTcpBody, needIdentity_some hid, bind_ok, hdip, orUndef_some, bind_ok]
  exact (runs_newIpHeaderForTcp hs id _ dip).ok_of_readable hr (fun _ h => h.elim) fun _ h => h.elim

theorem body_buildTcpHdr_ok {m c : Bool} (hs : Roomy s) (hu : upFrontError s (.buildTcpHdr m c) = none)
    (hr : Readable s (.buildTcpHdr m c)) : ∃ t, body (.buildTcpHdr m c) s = .ok t := by
  obtain ⟨rel, hrel⟩ := Option.isSome_iff_exists.mp (argsSet_of_upFront hu)
  rw [body, buildTcpHdrBody, hrel, orUndef_some, bind_ok]
  exact (runs_buildTcpHeader hs _ m c).ok_of_readable hr (fun a ha => by simpa [readsFb, within] using ha)
    fun _ h => h.elim

/-! ## The commands that send -/

/-- A command that has sent a frame has run. -/
theorem body_ok_of_sent {i : Instr} {t : State} {f : Tx} (h : exec i s = .next t) (htx : t.tx = s.tx ++ [f]) :
    ∃ u, body i s = .ok u := by
  cases hrun : body i s with
  | ok u => exact ⟨u, rfl⟩
  | error e =>
    rw [exec_eq, finish_error hrun] at h
    cases h
    simp [latched] at htx

theorem body_arpReply_ok (hl : s.params.Legal) (hu : upFrontError s .arpReply = none) (hr : Readable s .arpReply) :
    ∃ t, body .arpReply s = .ok t := by
  obtain ⟨id, hid⟩ := identity_of_upFront hu rfl
  obtain ⟨m, bytes, hexec, -⟩ := arpReplySendsReply s id hl hid ⟨rfl, hu, hr⟩
  exact body_ok_of_sent hexec rfl

theorem body_arpRequest_ok (hl : s.params.Legal) (hu : upFrontError s .arpRequest = none) :
    ∃ t, body .arpRequest s = .ok t := by
  obtain ⟨id, hid⟩ := identity_of_upFront hu rfl
  obtain ⟨tip, htip⟩ := Option.isSome_iff_exists.mp (argsSet_of_upFront hu)
  obtain ⟨m, bytes, hexec, -⟩ := arpRequestSendsRequest s id tip hl hid htip
  exact body_ok_of_sent hexec rfl

theorem body_udpReply_ok {l : Half} (hl : s.params.Legal) (hu : upFrontError s (.udpReply l) = none)
    (hr : Readable s (.udpReply l)) : ∃ t, body (.udpReply l) s = .ok t := by
  obtain ⟨id, hid⟩ := identity_of_upFront hu rfl
  obtain ⟨port, hport⟩ := Option.isSome_iff_exists.mp (argsSet_of_upFront hu)
  obtain ⟨m, bytes, hexec, -⟩ := udpReplySendsReply s l port id hl hid hport ⟨rfl, hu, hr⟩
  exact body_ok_of_sent hexec rfl

theorem body_tcpAckFromAny_ok (hl : s.params.Legal) (hu : upFrontError s .tcpAckFromAny = none)
    (hr : Readable s .tcpAckFromAny) : ∃ t, body .tcpAckFromAny s = .ok t := by
  obtain ⟨id, hid⟩ := identity_of_upFront hu rfl
  obtain ⟨m, bytes, hexec, -⟩ := tcpAckFromAnySendsAck s id hl hid ⟨rfl, hu, hr⟩
  exact body_ok_of_sent hexec rfl

/-- The envelope of the reply leaves the ICMP checksum, which the carry of its update is decided on, as it was. -/
theorem echoFrame_ok {l : Half} (hs : Roomy s) (id : Identity) (hr : Readable s (.echoReply l)) :
    ∃ t, echoFrame id s = .ok t ∧ t.params = s.params ∧ (∀ a, 35 ≤ a → t.fb.read a = s.fb.read a) ∧
      ∀ a, (s.fb.read a).isSome = true ∨ a < 12 ∨ (20 ≤ a ∧ a < 23) ∨ (24 ≤ a ∧ a < 35) →
        (t.fb.read a).isSome = true := by
  obtain ⟨t, ht, htp, -, htd⟩ := runs_echoFrame hs id s rfl
    ⟨fun a ha => hr.1 a (by simp [readsFb, within] at ha ⊢; omega), fun _ h => h.elim⟩
  obtain ⟨hmoved, -⟩ := (does_echoFrame hs id s rfl).1 t ht
  exact ⟨t, ht, htp, fun a ha => hmoved.keeps a (by simp; omega), htd⟩

theorem body_echoReply_ok {l : Half} (hs : Roomy s) (hu : upFrontError s (.echoReply l) = none)
    (hr : Readable s (.echoReply l)) : ∃ t, body (.echoReply l) s = .ok t := by
  obtain ⟨id, hid⟩ := identity_of_upFront hu rfl
  have hin : l.toNat ≤ s.params.bufSize := by simpa [lengthsFit] using lengthsFit_of_upFront hu
  obtain ⟨t, ht, htp, hkept, htd⟩ := echoFrame_ok hs id hr
  have hbody : body (.echoReply l) s = icmpCsumUpdate t >>= fun t => t.send l.toNat := by
    rw [← bind_ok t fun t => icmpCsumUpdate t >>= fun t => t.send l.toNat, ← ht, body, echoReplyBody,
      needIdentity_some hid, bind_ok, raiseIf_gt_of_le hin, bind_ok]
    simp [echoFrame]
  have hroom : Roomy t := by rw [Roomy, htp]; exact hs
  have h36 : (t.fb.read 36).isSome = true := htd 36 (.inl (hr.1 36 (by simp [readsFb])))
  have h37 (hcarry : byteAt t.fb 36 > 0xF7) : (t.fb.read 37).isSome = true := by
    rw [byteAt, hkept 36 (by omega), ← byteAt, gt_iff_lt, BitVec.lt_def] at hcarry
    exact htd 37 (.inl (hr.1 37 (by simp [readsFb] at hcarry ⊢; omega)))
  have hicmp : icmpCsumUpdate t = .ok (t.setFb (icmpMem t.fb)) :=
    (congrArg icmpCsumUpdate (setFb_self t)).symm.trans (icmpCsumUpdate_ok hroom h36 h37)
  have hwhole : Defined (icmpMem t.fb) 0 l.toNat := fun k hk => isSome_icmpMem <| htd _ <| by
    by_cases hw : 0 + k < 12 ∨ (20 ≤ 0 + k ∧ 0 + k < 23) ∨ (24 ≤ 0 + k ∧ 0 + k < 35)
    · exact .inr hw
    · exact .inl (hr.1 _ (by simp [readsFb, within]; omega))
  exact ⟨_, by rw [hbody, hicmp, bind_ok, send_at (htp ▸ hin) hwhole]⟩

theorem body_tcpSynack_ok (hs : Roomy s) (hu : upFrontError s .tcpSynack = none) (hr : Readable s .tcpSynack) :
    ∃ t, body .tcpSynack s = .ok t := by
  obtain ⟨id, hid⟩ := identity_of_upFront hu rfl
  have hbody : body .tcpSynack s = tcpSynackFrame id s >>= fun t => t.send 58 := by
    rw [body, tcpSynackBody, needIdentity_some hid]; simp [tcpSynackFrame]
  rw [hbody]
  refine (runs_tcpSynackFrame hs id).send_of_readable (by omega) hr (fun a ha => ?_) fun _ h => h.elim
  simp [readsFb, within] at ha ⊢; omega

theorem body_tcpAckWithData_ok {l : Half} (hs : Roomy s) (hu : upFrontError s (.tcpAckWithData l) = none)
    (hr : Readable s (.tcpAckWithData l)) : ∃ t, body (.tcpAckWithData l) s = .ok t := by
  have hin : 54 + l.toNat ≤ s.params.bufSize := by simpa [lengthsFit] using lengthsFit_of_upFront hu
  rw [body, tcpAckWithDataBody, (upFront_none hu).1 rfl, Bool.not_true, raiseIf_false, bind_ok,
    raiseIf_gt_of_le hin, bind_ok, ackWithData_eq]
  refine (runs_ackWithDataFrame hs hin).send_of_readable (by omega) hr (fun a ha => ?_) fun _ h => h.elim
  simp [readsFb, within] at ha ⊢; omega

theorem body_tcpRespondData_ok {l : Half} (hs : Roomy s) (hu : upFrontError s (.tcpRespondData l) = none)
    (hr : Readable s (.tcpRespondData l)) : ∃ t, body (.tcpRespondData l) s = .ok t := by
  obtain ⟨hpb, hin⟩ : l.toNat ≤ s.params.pbSize ∧ 54 + l.toNat ≤ s.params.bufSize := by
    simpa [lengthsFit] using lengthsFit_of_upFront hu
  have hbody : body (.tcpRespondData l) s = (copyPayload 54 l.toNat s >>= ackWithDataFrame l.toNat) >>= fun t =>
      t.send (20 + 20 + l.toNat + 14) := by
    rw [body, tcpRespondDataBody, (upFront_none hu).1 rfl, decide_eq_false (Nat.not_lt.mpr hin),
      decide_eq_false (Nat.not_lt.mpr hpb)]
    simp [ackWithData_eq]
  rw [hbody]
  refine (Runs.bind (runs_copyPayload hin hpb) (runs_ackWithDataFrame hs hin)).send_of_readable (by omega) hr
    (fun a ha => ?_) fun a ha => ?_
  · simp [readsFb, within, Fx.seq] at ha ⊢; omega
  · simpa [readsPb, Fx.seq] using ha

theorem body_tcpClient_ok {m z : Bool} {l : Half} (hs : Roomy s) (hu : upFrontError s (.tcpClient m z l) = none)
    (hr : Readable s (.tcpClient m z l)) : ∃ t, body (.tcpClient m z l) s = .ok t := by
  obtain ⟨id, hid⟩ := identity_of_upFront hu rfl
  have hargs := argsSet_of_upFront hu
  simp only [argsSet, Bool.and_eq_true, Option.isSome_iff_exists] at hargs
  obtain ⟨⟨⟨⟨⟨⟨dport, h1⟩, sport, h2⟩, flags, h3⟩, rel, h4⟩, ⟨hi, hhi⟩, lo, hlo⟩, dip, h6⟩ := hargs
  have hin : 34 + clientHdr m + l.toNat ≤ s.params.bufSize := by simpa [lengthsFit] using lengthsFit_of_upFront hu
  have hbody : body (.tcpClient m z l) s =
      clientFrame id dport sport flags rel (hi ++ lo) dip m z l.toNat s >>= fun t =>
        t.send (34 + clientHdrLen m + l.toNat) := by
    simp only [body, tcpClientBody, needIdentity_some hid, h1, h2, h3, h4, argMac_of_halves hhi hlo, h6, orUndef_some,
      bind_ok, raiseIf_gt_of_le (m := 34 + clientHdrLen m + l.toNat) hin]
  rw [hbody, clientHdr_eq]
  refine (runs_clientFrame hs id dport sport flags rel _ dip m z hin).send_of_readable hin hr (fun a ha => ?_)
    fun _ h => h.elim
  cases m <;> simp [readsFb, within, clientHdr] at ha ⊢ <;> omega

/-! ## Every command -/

/-- The command runs when no error applies: the converse of what `exec_runs` says of its reads. -/
theorem body_ok_of_ready (hl : s.params.Legal) {i : Instr} (h : Ready s i) : ∃ t, body i s = .ok t := by
  obtain ⟨hwf, hu, hr⟩ := h
  have hs : Roomy s := hl.1
  cases i with
  | initAddr => exact body_initAddr_ok hu
  | checksum k l => exact body_checksum_ok hwf hu hr
  | isArpForMe l => exact body_isArpForMe_ok hs hu hr
  | isIpForMe l => exact body_isIpForMe_ok hs hu hr
  | classify l => exact body_classify_ok hs hu hr
  | swapEth => exact body_swapEth_ok hs hu hr
  | swapIp => exact body_swapIp_ok hs hu hr
  | fillIpCsum => exact body_fillIpCsum_ok hs hr
  | newIpHdrTcp l => exact body_newIpHdrTcp_ok hs hu hr
  | arpReply => exact body_arpReply_ok hl hu hr
  | arpRequest => exact body_arpRequest_ok hl hu
  | isArpReplyForMe => exact body_isArpReplyForMe_ok hs hu hr
  | echoReply l => exact body_echoReply_ok hs hu hr
  | udpReply l => exact body_udpReply_ok hl hu hr
  | buildTcpHdr m c => exact body_buildTcpHdr_ok hs hu hr
  | tcpSynack => exact body_tcpSynack_ok hs hu hr
  | tcpAckFromAny => exact body_tcpAckFromAny_ok hl hu hr
  | tcpAckWithData l => exact body_tcpAckWithData_ok hs hu hr
  | tcpRespondData l => exact body_tcpRespondData_ok hs hu hr
  | tcpClient m z l => exact body_tcpClient_ok hs hu hr
  | inboundInfo => exact body_inboundInfo_ok hs hr
  | getDataOffset => exact body_getDataOffset_ok hs hr
  | getDataLen => exact body_getDataLen_ok hs hr

end

/-! ## The first error (R367) -/

/-- Settles O14: the decoder's error is O3's, the errors up front and UNDEF are the two branches of `exec_runs`, and a
command that meets none of them runs, by `body_ok_of_ready`. -/
theorem firstErrorIsReported : Obligations.FirstErrorIsReported := by
  unfold Obligations.FirstErrorIsReported
  intro s w hl hf
  refine ⟨fun hill => (legalWordsRunAndOthersAreIllegal w).2 hill s hf, fun i hd => ?_⟩
  have hwf := decode_wellFormed hd
  rw [writeCmd_of_decode_ok hf hd, ← encode_of_decode hd]
  refine ⟨fun code hcode => exec_upFront hl.1 hwf hcode, fun hu hunread => ?undef, fun hu hread => ?runs⟩
  case undef =>
    exact (exec_runs hl.1 hwf hu).resolve_right fun ⟨_, _, _, hread⟩ => hunread hread
  case runs =>
    obtain ⟨t, ht⟩ := body_ok_of_ready hl ⟨hwf, hu, hread⟩
    have hdone := done_of_body_ok hl.1 hwf ht
    exact ⟨ended i t, by rw [exec_eq, finish_ok ht], by rw [hdone.eq]; exact hf⟩

end Sys2Proof.Proofs

namespace Sys2Proof.Proofs

open Sys2Proof.Machine Sys2Proof.Safety Sys2Proof.Laws

/-! PROOFS. Reset (spec/70_reset_and_hazards.md, R400): the value every element has after it, and that IPID, which it
sets, is otherwise only counted. -/

/-! ## The states after reset -/

theorem runMove_reset (s : State) : runMove .reset s = .next s.doReset := rfl

/-- A machine starts at the reset values with no move waiting and empty records, and a reset move gives every other
element the same values: both kinds of state after reset have one form. -/
theorem eq_resetWith_of_reset {t : State} (h : t = State.reset ∨ ∃ s, runMove .reset s = .next t) :
    ∃ p host tx reads, t = { State.resetWith p with host := host, tx := tx, reads := reads } := by
  obtain rfl | ⟨s, hs⟩ := h
  · exact ⟨Config.params, [], [], [], rfl⟩
  · rw [runMove_reset] at hs
    cases hs
    exact ⟨s.params, s.host, s.tx, s.reads, rfl⟩

/-- STATUS reads 0 when no error, no latch, no identity and no built ACK stands in it (R41). -/
theorem status_eq_zero {s : State} (hack : s.ackBuilt = false) (hid : s.identity = none) (hfault : s.fault = false)
    (herr : s.err = 0x00) : s.status = 0x00000000 := by
  rw [State.status, hack, hid, hfault, herr]
  rfl

/-! ## What a command does to IPID (R35) -/

/-- The one command that no legal word carries latches ILLEGAL (R113). -/
theorem exec_checksum_reserved (s : State) (l : Half) :
    exec (.checksum .reserved l) s = .next (latched s 0x01 (encode (.checksum .reserved l))) := rfl

theorem wellFormed_or_checksum_reserved (i : Instr) : i.wellFormed = true ∨ ∃ l, i = .checksum .reserved l := by
  cases i with
  | checksum k l =>
    cases k with
    | reserved => exact .inr ⟨l, rfl⟩
    | ip | udp | tcp => exact .inl rfl
  | _ => exact .inl rfl

/-- No command resets IPID: one that faults keeps it, and one that runs moves it on as `Done` says. -/
theorem exec_ipid {s t : State} {i : Instr} (hp : Roomy s) (h : exec i s = .next t) :
    t.ipid = s.ipid ∨ t.ipid = s.ipid + 1 := by
  obtain hwf | ⟨l, rfl⟩ := wellFormed_or_checksum_reserved i
  · obtain ⟨c, rfl, -⟩ | ⟨hdone, -⟩ := exec_next hp hwf h
    · exact .inl rfl
    · rw [hdone.ipid]
      split
      · exact .inr rfl
      · exact .inl rfl
  · rw [exec_checksum_reserved] at h
    cases h
    exact .inl rfl

/-! ## Reset gives every element its reset value (R400) -/

/-- Settles O57: every state after reset is `State.resetWith` but for the moves to come and the records, so its elements
are read off that definition; and `exec_ipid` says that no command resets IPID. -/
theorem resetSetsEveryElement : Obligations.ResetSetsEveryElement := by
  unfold Obligations.ResetSetsEveryElement
  refine ⟨fun s => ⟨_, runMove_reset s⟩, fun t ht => ?values, fun _ _ _ hl hexec => exec_ipid hl.1 hexec⟩
  case values =>
    obtain ⟨p, host, tx, reads, rfl⟩ := eq_resetWith_of_reset ht
    exact ⟨fun a => ⟨read_nil a, read_nil a⟩, rfl, rfl, rfl, rfl, rfl, rfl, rfl, rfl, rfl, rfl, rfl, rfl, rfl, rfl, rfl,
      rfl, status_eq_zero rfl rfl rfl rfl, rfl, rfl, rfl⟩

end Sys2Proof.Proofs

namespace Sys2Proof.Proofs

open Sys2Proof.Machine Sys2Proof.Safety Sys2Proof.Laws

/-! PROOFS. The command word both ways, and the written form of a command (spec/30_encoding.md, R111 to R121). -/

/-! ## Encoding and decoding (R115, R117, R119) -/

/-- Every command's word lies in its row, and the row reads the command back. -/
theorem opcodeRow_statement (i : Instr) : OpcodeRow.Statement i := by
  cases i with
  | initAddr => exact OpcodeRow.initAddr
  | checksum k l => exact OpcodeRow.checksum k l
  | isArpForMe l => exact OpcodeRow.isArpForMe l
  | isIpForMe l => exact OpcodeRow.isIpForMe l
  | classify l => exact OpcodeRow.classify l
  | swapEth => exact OpcodeRow.swapEth
  | swapIp => exact OpcodeRow.swapIp
  | fillIpCsum => exact OpcodeRow.fillIpCsum
  | newIpHdrTcp l => exact OpcodeRow.newIpHdrTcp l
  | arpReply => exact OpcodeRow.arpReply
  | arpRequest => exact OpcodeRow.arpRequest
  | isArpReplyForMe => exact OpcodeRow.isArpReplyForMe
  | echoReply l => exact OpcodeRow.echoReply l
  | udpReply l => exact OpcodeRow.udpReply l
  | buildTcpHdr m s => exact OpcodeRow.buildTcpHdr m s
  | tcpSynack => exact OpcodeRow.tcpSynack
  | tcpAckFromAny => exact OpcodeRow.tcpAckFromAny
  | tcpAckWithData l => exact OpcodeRow.tcpAckWithData l
  | tcpRespondData l => exact OpcodeRow.tcpRespondData l
  | tcpClient m z l => exact OpcodeRow.tcpClient m z l
  | inboundInfo => exact OpcodeRow.inboundInfo
  | getDataOffset => exact OpcodeRow.getDataOffset
  | getDataLen => exact OpcodeRow.getDataLen

/-- Settles O1: the command's word selects its row, which reads back the command. -/
theorem encodeThenDecode : Obligations.EncodeThenDecode := by
  unfold Obligations.EncodeThenDecode
  intro i hi
  rw [decode_encode_of_opcodeRow (opcodeRow_statement i), if_pos hi]

/-- Settles O2: a row builds nothing but what its mask leaves free, so encoding gives the word back. -/
theorem decodeThenEncode : Obligations.DecodeThenEncode := by
  unfold Obligations.DecodeThenEncode
  exact fun w i h => ⟨decode_wellFormed h, encode_of_decode h⟩

theorem decode_of_encode_eq {w : Word} {i : Instr} (hi : i.wellFormed = true) (h : encode i = w) :
    decode w = .ok i := h ▸ encodeThenDecode i hi

/-- Settles O5: each word is the encoding of its command, by the layout of R111. -/
theorem specWordsDecode : Obligations.SpecWordsDecode := by
  unfold Obligations.SpecWordsDecode
  refine ⟨?_, ?_, ?_, ?_, ?_, ?_, ?_, ?_, ?_, ?_, ?_, ?_⟩
  all_goals exact decode_of_encode_eq rfl rfl

/-! ## The written form (R121) -/

theorem wellFormed_iff_ne_reserved {k : Kind} : k.wellFormed = true ↔ k ≠ .reserved := by
  cases k <;> simp [Kind.wellFormed]

/-- The assembler reads back what `written` writes. -/
theorem assemble_written {i : Instr} (hi : i.wellFormed = true) :
    assemble (written i).1 (written i).2 = some i := by
  cases i with
  | initAddr | swapEth | swapIp | fillIpCsum | arpReply | arpRequest | isArpReplyForMe | tcpSynack | tcpAckFromAny
  | inboundInfo | getDataOffset | getDataLen => exact asmPlain_eq.mpr ⟨rfl, rfl⟩
  | isArpForMe l | isIpForMe l | classify l | newIpHdrTcp l | echoReply l | udpReply l | tcpAckWithData l
  | tcpRespondData l => exact asmLengthOnly_eq.mpr ⟨l, rfl, rfl⟩
  | checksum k l => exact asmChecksum_eq.mpr ⟨k, l, wellFormed_iff_ne_reserved.mp hi, rfl, rfl⟩
  | buildTcpHdr m s => exact asmBuildTcpHdr_eq.mpr ⟨m, s, rfl, rfl⟩
  | tcpClient m z l => exact asmTcpClient_eq.mpr ⟨m, z, l, rfl, rfl⟩

theorem written_of_asmPlain {mnemonic : String} {f : AsmFields} {i j : Instr} (hj : j.wellFormed = true)
    (hw : written j = (mnemonic, {})) (h : asmPlain j f = some i) :
    i.wellFormed = true ∧ written i = (mnemonic, f) := by
  obtain ⟨rfl, rfl⟩ := asmPlain_eq.mp h
  exact ⟨hj, hw⟩

theorem written_of_asmLengthOnly {mnemonic : String} {f : AsmFields} {i : Instr} {mk : Half → Instr}
    (hj : ∀ l, (mk l).wellFormed = true) (hw : ∀ l, written (mk l) = (mnemonic, { l := some l.toNat }))
    (h : asmLengthOnly mk f = some i) : i.wellFormed = true ∧ written i = (mnemonic, f) := by
  obtain ⟨l, rfl, rfl⟩ := asmLengthOnly_eq.mp h
  exact ⟨hj l, hw l⟩

/-- A line that stands for a command is the one `written` gives it: one branch of the assembler per mnemonic. -/
theorem written_of_assemble {mnemonic : String} {f : AsmFields} {i : Instr} (h : assemble mnemonic f = some i) :
    i.wellFormed = true ∧ written i = (mnemonic, f) := by
  unfold assemble at h
  split at h
  case h_1 | h_6 | h_7 | h_8 | h_10 | h_11 | h_12 | h_16 | h_17 | h_21 | h_22 | h_23 =>
    exact written_of_asmPlain rfl rfl h
  case h_3 | h_4 | h_5 | h_9 | h_13 | h_14 | h_18 | h_19 =>
    exact written_of_asmLengthOnly (fun _ => rfl) (fun _ => rfl) h
  case h_2 =>
    obtain ⟨k, l, hk, rfl, rfl⟩ := asmChecksum_eq.mp h
    exact ⟨wellFormed_iff_ne_reserved.mpr hk, rfl⟩
  case h_15 =>
    obtain ⟨m, s, rfl, rfl⟩ := asmBuildTcpHdr_eq.mp h
    exact ⟨rfl, rfl⟩
  case h_20 =>
    obtain ⟨m, z, l, rfl, rfl⟩ := asmTcpClient_eq.mp h
    exact ⟨rfl, rfl⟩
  case h_24 => cases h

theorem assemble_eq_some_iff {mnemonic : String} {f : AsmFields} {i : Instr} :
    assemble mnemonic f = some i ↔ i.wellFormed = true ∧ written i = (mnemonic, f) := by
  refine ⟨written_of_assemble, fun ⟨hi, hw⟩ => ?_⟩
  have hline := assemble_written hi
  rwa [hw] at hline

/-- Settles O6: a line and `written` say the same, what a line stands for decodes by O1, and R121's three lines are the
written forms of their commands. -/
theorem assembledCommandsAreLegal : Obligations.AssembledCommandsAreLegal := by
  unfold Obligations.AssembledCommandsAreLegal
  refine ⟨fun _ _ _ => assemble_eq_some_iff, fun mnemonic f i h => encodeThenDecode i (written_of_assemble h).1,
    ?checksum, ?buildTcpHdr, ?tcpClient⟩
  case checksum => exact congrArg (Option.map encode) (assemble_written (i := .checksum .tcp 32) rfl)
  case buildTcpHdr => exact congrArg (Option.map encode) (assemble_written (i := .buildTcpHdr true false) rfl)
  case tcpClient => exact congrArg (Option.map encode) (assemble_written (i := .tcpClient true true 0) rfl)

end Sys2Proof.Proofs

namespace Sys2Proof.Proofs

open Sys2Proof.Machine Sys2Proof.Safety Sys2Proof.Laws

/-! PROOFS. One step, said once, and the invariant `CoreInv` that every step keeps (spec/10_state.md sections 2 and 3,
spec/60_exceptions.md). -/

/-! ## One step (R99) -/

theorem step_cons {s : State} {e : HostMove} {rest : List HostMove} (h : s.host = e :: rest) :
    step s = runMove e { s with host := rest } := by
  simp only [step, nextEvent, h]

/-- The inversion of `step`: the machine is idle, or its first move has run. -/
theorem step_next {s t : State} (h : step s = .next t) :
    (s.host = [] ∧ t = s) ∨ ∃ e rest, s.host = e :: rest ∧ runMove e { s with host := rest } = .next t := by
  cases hh : s.host with
  | nil =>
    rw [step_idle hh] at h
    cases h
    exact .inl ⟨rfl, rfl⟩
  | cons e rest =>
    rw [step_cons hh] at h
    exact .inr ⟨e, rest, rfl, h⟩

/-- Settles O7: the first move of the list is the write of CMD, and `withFetchWord` puts one there. -/
theorem stepRunsDecodedCommand : Obligations.StepRunsDecodedCommand := by
  unfold Obligations.StepRunsDecodedCommand
  refine ⟨fun s w rest i hh hf hd => ?_, fun s nbits w i hf hd => ?_⟩
  · rw [step_cons hh]
    exact writeCmd_of_decode_ok hf hd
  · rw [step_cons (s := s.withFetchWord nbits w) rfl]
    exact writeCmd_of_decode_ok hf hd

/-- Settles O8, by `step_idle`. -/
theorem idleStepChangesNothing : Obligations.IdleStepChangesNothing := by
  unfold Obligations.IdleStepChangesNothing
  exact fun s h => step_idle h

/-! ## The invariant (R10, R32 to R44) -/

/-- What the invariant asks of the reset values it gets from the parameters and the record of events. -/
theorem coreInv_resetWith {p : Config.Params} {host : List HostMove} {tx : List Tx} {reads : List Word} (hp : p.Legal)
    (htx : ∀ f ∈ tx, f.bytes.length = f.len ∧ f.len ≤ p.bufSize) :
    CoreInv { State.resetWith p with host := host, tx := tx, reads := reads } where
  legal := hp
  fbForm := ⟨rfl, rfl⟩
  pbForm := ⟨rfl, rfl⟩
  latch := ⟨rfl, rfl⟩
  built := nofun
  frames := htx
  received := nofun
  headerLen := nofun

theorem params_legal : Config.params.Legal := by
  simp only [Config.Params.Legal, Config.params, Config.bufSize, Config.pbSize]
  omega

/-- Settles O12: the reset values meet the invariant for any legal parameters, and the open ones are legal. -/
theorem resetMeetsInvariant : Obligations.ResetMeetsInvariant := by
  unfold Obligations.ResetMeetsInvariant
  exact coreInv_resetWith params_legal nofun

/-- The moves to come, the record of reads and the argument registers are no part of the invariant. -/
theorem coreInv_of_onlyPort {s t : State} (h : CoreInv s) (hst : OnlyPort s t) : CoreInv t := by
  rw [hst.eq]
  exact ⟨h.legal, h.fbForm, h.pbForm, h.latch, h.built, h.frames, h.received, h.headerLen⟩

theorem coreInv_latched {s : State} (h : CoreInv s) {c : Byte} (w : Word) (hc : 1 ≤ c.toNat ∧ c.toNat ≤ 7) :
    CoreInv (latched s c w) where
  legal := h.legal
  fbForm := h.fbForm
  pbForm := h.pbForm
  latch := ⟨by rintro rfl; exact absurd hc.1 (by decide), hc.2⟩
  built := h.built
  frames := h.frames
  received := h.received
  headerLen := h.headerLen

theorem coreInv_fbWrite {s : State} (h : CoreInv s) {i : Nat} (b : Byte) (hi : i < s.params.bufSize) :
    CoreInv { s with fb := s.fb.write i b } where
  legal := h.legal
  fbForm := ⟨wf_write h.fbForm.1, below_write hi h.fbForm.2⟩
  pbForm := h.pbForm
  latch := h.latch
  built hb := ⟨(h.built hb).1, defined_mono (h.built hb).2 fun _ => isSome_write⟩
  frames := h.frames
  received := h.received
  headerLen := h.headerLen

theorem coreInv_pbWrite {s : State} (h : CoreInv s) {i : Nat} (b : Byte) (hi : i < s.params.pbSize) :
    CoreInv { s with pb := s.pb.write i b } where
  legal := h.legal
  fbForm := h.fbForm
  pbForm := ⟨wf_write h.pbForm.1, below_write hi h.pbForm.2⟩
  latch := h.latch
  built := h.built
  frames := h.frames
  received := h.received
  headerLen := h.headerLen

theorem coreInv_deposit {s : State} (h : CoreInv s) (bytes : List Byte) : CoreInv (deposit bytes s) := by
  by_cases hlen : 1 ≤ bytes.length ∧ bytes.length ≤ s.params.bufSize
  · obtain ⟨h1, h2⟩ := hlen
    rw [deposit_of_fits h1 h2]
    refine ⟨h.legal, ⟨wf_writeBytes h.fbForm.1, below_writeBytes (by simpa using h2) h.fbForm.2⟩, h.pbForm, h.latch, nofun,
      h.frames, fun n hn => ?_, h.headerLen⟩
    obtain ⟨-, hmax, -⟩ := h.legal
    cases hn
    rw [BitVec.toNat_ofNat, Nat.mod_eq_of_lt (by omega)]
    exact ⟨h1, h2⟩
  · rw [Machine.deposit, if_neg hlen]
    exact h

/-- A command that has run keeps the invariant: each clause is the clause of `Done` on the same element. -/
theorem coreInv_of_done {s t : State} {i : Instr} (h : CoreInv s) (hd : Done i s t) : CoreInv t := by
  have hparams : t.params = s.params := by rw [hd.eq]
  have hpb : t.pb = s.pb := by rw [hd.eq]
  have hfault : t.fault = s.fault := by rw [hd.eq]
  have herr : t.err = s.err := by rw [hd.eq]
  have hcmd : t.faultCmd = s.faultCmd := by rw [hd.eq]
  have hrx : t.rxLen = s.rxLen := by rw [hd.eq]
  have hack : t.ackBuilt = decide (i = .tcpAckFromAny) := by rw [hd.eq]
  refine ⟨by rw [hparams]; exact h.legal, ⟨hd.wf h.fbForm.1, by rw [hparams]; exact hd.below h.fbForm.2⟩,
    by rw [hparams, hpb]; exact h.pbForm, by rw [hfault, herr, hcmd]; exact h.latch, fun hb => ?built, ?frames,
    by rw [hrx, hparams]; exact h.received, ?headerLen⟩
  case built =>
    rw [hack, decide_eq_true_eq] at hb
    subst hb
    obtain ⟨hid, hframe⟩ := hd.bare rfl
    exact ⟨hd.identity ▸ hid, hframe⟩
  case frames =>
    rw [hparams]
    have htx := hd.tx
    split at htx
    · obtain ⟨f, htx, hlen, hframe⟩ := htx
      rw [htx]
      intro g hg
      rcases List.mem_append.mp hg with hg | hg
      · exact h.frames g hg
      · cases List.mem_singleton.mp hg
        exact ⟨hframe.1, hlen⟩
    · rw [htx]
      exact h.frames
  case headerLen =>
    have hinfo := hd.info
    split at hinfo
    · obtain ⟨d, hl, -, hhl, hform⟩ := hinfo
      intro x hx
      cases hhl.symm.trans hx
      exact hform
    · rw [hinfo.2]
      exact h.headerLen

/-- A write of CMD is ignored, latches a code that is raised, or has run a command. -/
theorem coreInv_writeCmd {s t : State} {w : Word} (h : CoreInv s) (hst : writeCmd w s = .next t) : CoreInv t := by
  rcases writeCmd_next hst with ⟨-, rfl⟩ | ⟨-, -, rfl⟩ | ⟨-, i, hd, hexec⟩
  · exact h
  · exact coreInv_latched h w (c := 0x01) (by decide)
  · rcases exec_next h.legal.1 (decode_wellFormed hd) hexec with ⟨c, rfl, hc⟩ | ⟨hdone, -⟩
    · refine coreInv_latched h _ ?_
      rcases hc with hc | rfl
      · exact upFrontError_range hc
      · decide
    · exact coreInv_of_done h hdone

theorem coreInv_runMove {s t : State} {e : HostMove} (h : CoreInv s) (hst : runMove e s = .next t) : CoreInv t := by
  rcases runMove_next hst with ⟨w, -, hcmd⟩ | ⟨-, rfl⟩ | ⟨bytes, -, rfl⟩ | hport | ⟨i, b, -, hi, rfl⟩ |
    ⟨i, b, -, hi, rfl⟩
  · exact coreInv_writeCmd h hcmd
  · exact coreInv_resetWith h.legal h.frames
  · exact coreInv_deposit h bytes
  · exact coreInv_of_onlyPort h hport
  · exact coreInv_fbWrite h b hi
  · exact coreInv_pbWrite h b hi

/-- Settles O11: a step is idle or one move, and each kind of move keeps the invariant. -/
theorem stepKeepsInvariant : Obligations.StepKeepsInvariant := by
  unfold Obligations.StepKeepsInvariant
  intro s t h hst
  rcases step_next hst with ⟨-, rfl⟩ | ⟨e, rest, -, hmove⟩
  · exact h
  · exact coreInv_runMove (coreInv_of_onlyPort (t := { s with host := rest }) h ⟨rfl⟩) hmove

end Sys2Proof.Proofs

namespace Sys2Proof.Proofs

open Sys2Proof.Machine Sys2Proof.Safety Sys2Proof.Laws

/-! PROOFS. What every command does or leaves alone: the errors it can raise (R360), the elements it keeps (R34 to R44),
the counters (R35, R36) and the transmit event (R376). Each is read off the two ends of a command. -/

/-! ## The two ends of a command -/

/-- `exec_next` for every command, the one that no legal word carries included. -/
theorem exec_latched_or_done {s t : State} {i : Instr} (hp : Roomy s) (h : exec i s = .next t) :
    (∃ c, t = latched s c (encode i)) ∨ Done i s t := by
  obtain hwf | ⟨l, rfl⟩ := wellFormed_or_checksum_reserved i
  · obtain ⟨c, rfl, -⟩ | ⟨hdone, -⟩ := exec_next hp hwf h
    · exact .inl ⟨c, rfl⟩
    · exact .inr hdone
  · rw [exec_checksum_reserved] at h
    cases h
    exact .inl ⟨0x01, rfl⟩

theorem fault_of_done {s t : State} {i : Instr} (h : Done i s t) : t.fault = s.fault := by rw [h.eq]

/-! ## The errors a command raises (R360) -/

/-- The commands whose lengths are checked before FB is read are those R360 lists for RANGE. -/
theorem mayRaise_range {s : State} {i : Instr} (h : lengthsFit s i = false) : mayRaise i 0x04 = true := by
  cases i with
  | checksum | echoReply | udpReply | tcpAckWithData | tcpRespondData | tcpClient => rfl
  | initAddr | isArpForMe | isIpForMe | classify | swapEth | swapIp | fillIpCsum | newIpHdrTcp | arpReply | arpRequest
  | isArpReplyForMe | buildTcpHdr | tcpSynack | tcpAckFromAny | inboundInfo | getDataOffset | getDataLen => cases h

theorem mayRaise_arg {i : Instr} (h : badLength i = true) : mayRaise i 0x06 = true := by
  cases i with
  | checksum => rfl
  | _ => cases h

theorem mayRaise_undef (i : Instr) : mayRaise i 0x05 = true := by simp [mayRaise]

/-- Each place of R367's order raises an error that R360 lists for the command. -/
theorem mayRaise_of_upFront {s : State} {i : Instr} {c : Byte} (h : upFrontError s i = some c) :
    mayRaise i c = true := by
  unfold upFrontError at h
  split at h
  · cases h; simp_all [mayRaise]
  split at h
  · cases h; simp_all [mayRaise]
  split at h
  · cases h; simp_all [mayRaise]
  split at h
  · cases h; exact mayRaise_undef i
  split at h
  · cases h; exact mayRaise_arg ‹_›
  split at h
  · rename_i hfit
    cases h; exact mayRaise_range (s := s) (by simpa using hfit)
  · cases h

/-- Settles O15: a command that ends with a fault, where none was, has only latched one, up front or UNDEF. -/
theorem commandsRaiseOnlyTheirErrors : Obligations.CommandsRaiseOnlyTheirErrors := by
  unfold Obligations.CommandsRaiseOnlyTheirErrors
  intro s t i hl hwf hs h ht
  rcases exec_next hl.1 hwf h with ⟨c, rfl, hc⟩ | ⟨hdone, -⟩
  · refine ⟨c, ?_, rfl⟩
    rcases hc with hc | rfl
    · exact mayRaise_of_upFront hc
    · exact mayRaise_undef i
  · rw [fault_of_done hdone, hs] at ht
    cases ht

/-! ## The elements a command keeps (R34 to R44, R92) -/

/-- Settles O46: a latched fault keeps them all, and `Done` names what a command that has run may change. -/
theorem commandsLeaveTheRestAlone : Obligations.CommandsLeaveTheRestAlone := by
  unfold Obligations.CommandsLeaveTheRestAlone
  intro s t i hl h
  rcases exec_latched_or_done hl.1 h with ⟨c, rfl⟩ | hdone
  · exact ⟨rfl, rfl, rfl, rfl, rfl, rfl, rfl, rfl, rfl, rfl, rfl, rfl, rfl, fun _ => rfl, fun _ => rfl,
      fun _ => ⟨rfl, rfl⟩, fun _ => rfl⟩
  · have hresult := hdone.result
    have hinfo := hdone.info
    have hidentity := hdone.identity
    refine ⟨?_, ?_, ?_, ?_, ?_, ?_, ?_, ?_, ?_, ?_, ?_, ?_, ?_, hdone.fb, fun hq => ?result, fun hi => ?info,
      fun hi => ?identity⟩
    case result => simpa [hq] using hresult
    case info => simpa [hi] using hinfo
    case identity => simpa [hi] using hidentity
    all_goals rw [hdone.eq]

/-! ## The counters (R35, R36) -/

/-- Settles O47: `Done` counts by `bumpsIpid` and `bumpsIsn`, which name the statement's commands. -/
theorem countersMoveOnlyWithTheirCommands : Obligations.CountersMoveOnlyWithTheirCommands := by
  unfold Obligations.CountersMoveOnlyWithTheirCommands
  intro s t i hl hs h
  rcases exec_latched_or_done hl.1 h with ⟨c, rfl⟩ | hdone
  · exact ⟨rfl, rfl⟩
  · rw [fault_of_done hdone, hs, if_neg Bool.false_ne_true, hdone.ipid, hdone.isn]
    cases i with
    | buildTcpHdr m c => cases c <;> exact ⟨rfl, rfl⟩
    | _ => exact ⟨rfl, rfl⟩

/-! ## The transmit event (R376) -/

/-- Settles O48: a latched fault sends nothing, and `Done` says what a command that has run has sent. -/
theorem sendEmitsOneEvent : Obligations.SendEmitsOneEvent := by
  unfold Obligations.SendEmitsOneEvent
  intro s t i hl hs h
  rcases exec_latched_or_done hl.1 h with ⟨c, rfl⟩ | hdone
  · rfl
  · have htx := hdone.tx
    simp only [fault_of_done hdone, hs, true_and]
    split at htx
    · obtain ⟨f, htx, -, hframe⟩ := htx
      rw [if_pos ‹_›]
      exact ⟨f, htx, hframe⟩
    · rw [if_neg ‹_›]
      exact htx

end Sys2Proof.Proofs

namespace Sys2Proof.Proofs

open Sys2Proof.Machine Sys2Proof.Safety Sys2Proof.Laws

/-! PROOFS. The latch, the identity, definedness, the boot sequence and runs: what holds from step to step
(spec/10_state.md section 3, spec/60_exceptions.md section 2, spec/70_reset_and_hazards.md). -/

/-! ## A latched fault (R365, R366) -/

theorem writeCmd_of_fault {s : State} (h : s.fault = true) (w : Word) : writeCmd w s = .next s := by
  rw [writeCmd, if_pos h]

/-- The inversion of a host write of PB that is not refused. -/
theorem hostPbWrite_next {s t : State} {i : Nat} {b : Byte} (h : hostPbWrite i b s = .next t) :
    i < s.params.pbSize ∧ t = { s with pb := s.pb.write i b } := by
  unfold hostPbWrite at h
  split at h
  · cases h; exact ⟨‹_›, rfl⟩
  · cases h

theorem giveHost_setFault {r : Except Refusal Word} {s t : State} (b : Bool) (h : giveHost r s = .next t) :
    giveHost r { s with fault := b } = .next { t with fault := b } := by
  cases r with
  | ok v => cases h; rfl
  | error e => cases h

theorem hostIf_setFault {r : Except Refusal Word} {v : Word} {len : Nat} {s t : State} (b : Bool)
    (h : hostIf r v len s = .next t) : hostIf r v len { s with fault := b } = .next { t with fault := b } := by
  cases r with
  | ok x => cases h; rfl
  | error e => cases h

theorem regWrite_setFault {n : Nat} {v : Word} {s t : State} (b : Bool) (hn : n ≠ 0) (h : regWrite n v s = .next t) :
    regWrite n v { s with fault := b } = .next { t with fault := b } := by
  unfold regWrite at h ⊢
  cases hreg : hostReg n with
  | none => rw [hreg] at h; cases h
  | some r =>
    rw [hreg] at h
    cases r with
    | cmd => exact absurd hreg (hostReg_cmd hn)
    | status | result | infoDlen | infoHlen | faultCmd | rxLen => cases h
    | argOff | argPort | argSport | argFlags | argAck | argMacHi | argMacLo | argIp => cases h; rfl

theorem deposit_setFault (bytes : List Byte) (s : State) (b : Bool) :
    deposit bytes { s with fault := b } = { deposit bytes s with fault := b } := by
  unfold deposit
  split <;> rfl

/-- A move that neither writes CMD, nor resets, nor reads STATUS does the same whatever STATUS.FAULT is. -/
theorem runMove_setFault {e : HostMove} {s t : State} (b : Bool) (hcmd : ∀ w, e ≠ .regWrite 0 w) (hreset : e ≠ .reset)
    (hread : e ≠ .regRead 1) (hif : ∀ v len, e ≠ .ifReg 1 v len) (h : runMove e s = .next t) :
    runMove e { s with fault := b } = .next { t with fault := b } := by
  cases e with
  | regWrite n v => exact regWrite_setFault b (fun hn => hcmd v (by rw [hn])) h
  | regRead n =>
    rw [runMove, regRead_setFault s b fun hn => hread (by rw [hn])]
    exact giveHost_setFault b h
  | fbWrite i v =>
    obtain ⟨hi, rfl⟩ := hostFbWrite_next h
    exact if_pos hi
  | fbRead i => exact giveHost_setFault b h
  | pbWrite i v =>
    obtain ⟨hi, rfl⟩ := hostPbWrite_next h
    exact if_pos hi
  | pbRead i => exact giveHost_setFault b h
  | rx bytes =>
    cases h
    rw [runMove, deposit_setFault]
  | reset => exact absurd rfl hreset
  | ifReg n v len =>
    rw [runMove, regRead_setFault s b fun hn => hif v len (by rw [hn])]
    exact hostIf_setFault b h
  | ifFb i v len => exact hostIf_setFault b h

theorem setFault_self {s : State} {b : Bool} (h : s.fault = b) : ({ s with fault := b } : State) = s := by
  subst h; rfl

/-- Settles O9: `runMove_setFault`, from the state with the fault cleared to the one with it. -/
theorem faultedCoreIgnoresOnlyCommands : Obligations.FaultedCoreIgnoresOnlyCommands := by
  unfold Obligations.FaultedCoreIgnoresOnlyCommands
  refine fun s hs => ⟨fun w => writeCmd_of_fault hs w, fun e t hcmd hreset hread hif h => ?_⟩
  have hmove := runMove_setFault true hcmd hreset hread hif h
  rwa [setFault_self (s := s) hs] at hmove

/-- Every move but reset keeps a latched fault with its code and its word. -/
theorem runMove_keeps_latch {e : HostMove} {s t : State} (hs : s.fault = true) (h : runMove e s = .next t)
    (hreset : e ≠ .reset) : t.fault = true ∧ t.err = s.err ∧ t.faultCmd = s.faultCmd := by
  rcases runMove_next h with ⟨w, -, hcmd⟩ | ⟨rfl, -⟩ | ⟨bytes, -, rfl⟩ | hport | ⟨i, b, -, -, rfl⟩ | ⟨i, b, -, -, rfl⟩
  · rw [writeCmd_of_fault hs] at hcmd
    cases hcmd
    exact ⟨hs, rfl, rfl⟩
  · exact absurd rfl hreset
  · unfold deposit
    split <;> exact ⟨hs, rfl, rfl⟩
  · rw [hport.eq]
    exact ⟨hs, rfl, rfl⟩
  · exact ⟨hs, rfl, rfl⟩
  · exact ⟨hs, rfl, rfl⟩

/-- Settles O10: an idle step changes nothing, and the first move is reset or keeps the latch. -/
theorem faultIsStickyUntilReset : Obligations.FaultIsStickyUntilReset := by
  unfold Obligations.FaultIsStickyUntilReset
  intro s t hs h
  rcases step_next h with ⟨-, rfl⟩ | ⟨e, rest, hhost, hmove⟩
  · exact .inl ⟨hs, rfl, rfl⟩
  · by_cases hreset : e = .reset
    · exact .inr ⟨rest, hreset ▸ hhost⟩
    · exact .inl (runMove_keeps_latch (s := { s with host := rest }) hs hmove hreset)

/-! ## The identity (R34, R350, R351) -/

theorem raiseIf_eq_ok {c : Bool} {e : Err} {u : Unit} (h : raiseIf c e = .ok u) : c = false := by
  cases c with
  | false => rfl
  | true => cases h

theorem orUndef_eq_ok {α : Type} {o : Option α} {v : α} (h : orUndef o = .ok v) : o = some v := by
  cases o with
  | none => cases h
  | some x => cases h; rfl

/-- The inversion of INIT_ADDR's body. -/
theorem body_initAddr_eq_ok {s t : State} (h : body .initAddr s = .ok t) :
    s.identity = none ∧ ∃ mac ip, s.argMac = some mac ∧ s.argIp = some ip ∧
      t = { s with identity := some ⟨mac, ip⟩ } := by
  obtain ⟨_, hid, h⟩ := bind_eq_ok h
  obtain ⟨mac, hmac, h⟩ := bind_eq_ok h
  obtain ⟨ip, hip, h⟩ := bind_eq_ok h
  cases h
  exact ⟨Option.isNone_iff_eq_none.mp (by simpa using raiseIf_eq_ok hid), mac, ip, orUndef_eq_ok hmac,
    orUndef_eq_ok hip, rfl⟩

theorem body_initAddr_set {s : State} (h : s.identity.isSome = true) : body .initAddr s = .error .reinit := by
  rw [body, initAddrBody, h]; rfl

theorem body_initAddr_unset {s : State} (hid : s.identity = none) (h : s.argMac = none ∨ s.argIp = none) :
    body .initAddr s = .error .undef := by
  rw [body, initAddrBody, hid]
  rcases h with h | h
  · rw [h]; rfl
  · rw [h]; cases s.argMac <;> rfl

theorem body_initAddr_sets {s : State} {mac : BitVec 48} {ip : BitVec 32} (hid : s.identity = none)
    (hmac : s.argMac = some mac) (hip : s.argIp = some ip) :
    body .initAddr s = .ok { s with identity := some ⟨mac, ip⟩ } := by
  rw [body, initAddrBody, hid, hmac, hip]; rfl

theorem exec_initAddr_sets {s : State} {hi : BitVec 16} {lo ip : BitVec 32} (hid : s.identity = none)
    (hhi : s.argMacHi = some hi) (hlo : s.argMacLo = some lo) (hip : s.argIp = some ip) :
    exec .initAddr s = .next { s with identity := some ⟨hi ++ lo, ip⟩, ackBuilt := false } := by
  rw [exec_eq, finish_ok (body_initAddr_sets hid (argMac_of_halves hhi hlo) hip)]; rfl

/-- Settles O18: the three ends of INIT_ADDR's body. -/
theorem initAddrSetsIdentity : Obligations.InitAddrSetsIdentity := by
  unfold Obligations.InitAddrSetsIdentity
  refine fun s => ⟨fun hid => ?reinit, fun hid hargs => ?undef, fun hi lo ip => exec_initAddr_sets⟩
  case reinit => rw [exec_eq, finish_error (body_initAddr_set hid)]; rfl
  case undef =>
    have hunset : s.argMac = none ∨ s.argIp = none := by
      rcases hargs with hhi | hlo | hip
      · exact .inl (argMac_of_half_unset (.inl hhi))
      · exact .inl (argMac_of_half_unset (.inr hlo))
      · exact .inr hip
    rw [exec_eq, finish_error (body_initAddr_unset hid hunset)]; rfl

/-- INIT_ADDR keeps the identity, or sets it to ARG_MAC and ARG_IP where there was none. -/
theorem exec_initAddr_identity {s t : State} (h : exec .initAddr s = .next t) : t.identity = s.identity ∨
    (s.identity = none ∧ ∃ mac ip, s.argMac = some mac ∧ s.argIp = some ip ∧ t.identity = some ⟨mac, ip⟩) := by
  rw [exec_eq] at h
  cases hrun : body .initAddr s with
  | error e => rw [finish_error hrun] at h; cases h; exact .inl rfl
  | ok u =>
    rw [finish_ok hrun] at h
    obtain ⟨hid, mac, ip, hmac, hip, rfl⟩ := body_initAddr_eq_ok hrun
    cases h
    exact .inr ⟨hid, mac, ip, hmac, hip, rfl⟩

/-- The one move that sets the identity, and the one that takes it away. -/
theorem runMove_identity {e : HostMove} {s t : State} (hl : s.params.Legal) (h : runMove e s = .next t) :
    t.identity = s.identity ∨ (e = .reset ∧ t.identity = none) ∨
    (e = .regWrite 0 0x00000001 ∧ s.identity = none ∧
      ∃ mac ip, s.argMac = some mac ∧ s.argIp = some ip ∧ t.identity = some ⟨mac, ip⟩) := by
  rcases runMove_next h with ⟨w, rfl, hcmd⟩ | ⟨rfl, rfl⟩ | ⟨bytes, -, rfl⟩ | hport | ⟨i, b, -, -, rfl⟩ |
    ⟨i, b, -, -, rfl⟩
  · rcases writeCmd_next hcmd with ⟨-, rfl⟩ | ⟨-, -, rfl⟩ | ⟨-, i, hd, hexec⟩
    · exact .inl rfl
    · exact .inl rfl
    · by_cases hi : i = .initAddr
      · subst hi
        rcases exec_initAddr_identity hexec with hkept | hset
        · exact .inl hkept
        · rw [← encode_of_decode hd]
          exact .inr (.inr ⟨rfl, hset⟩)
      · rcases exec_latched_or_done hl.1 hexec with ⟨c, rfl⟩ | hdone
        · exact .inl rfl
        · have hkept := hdone.identity
          rw [if_neg hi] at hkept
          exact .inl hkept
  · exact .inr (.inl ⟨rfl, rfl⟩)
  · unfold deposit
    split <;> exact .inl rfl
  · exact .inl (by rw [hport.eq])
  · exact .inl rfl
  · exact .inl rfl

/-- Settles O17: the identity changes by reset or by INIT_ADDR alone, whose word is 0x00000001. -/
theorem identityIsSetOnce : Obligations.IdentityIsSetOnce := by
  unfold Obligations.IdentityIsSetOnce
  intro s t hl h
  rcases step_next h with ⟨-, rfl⟩ | ⟨e, rest, hhost, hmove⟩
  · exact ⟨fun id hid => .inl hid, fun id hnone hsome => by rw [hnone] at hsome; cases hsome⟩
  · rcases runMove_identity (s := { s with host := rest }) hl hmove with hkept | ⟨rfl, hgone⟩ |
      ⟨rfl, hnone, mac, ip, hmac, hip, hset⟩
    · refine ⟨fun id hid => .inl (hkept.trans hid), fun id hnone hsome => ?_⟩
      cases hnone.symm.trans (hkept.symm.trans hsome)
    · exact ⟨fun id _ => .inr ⟨rest, hhost⟩, fun id _ hsome => by rw [hgone] at hsome; cases hsome⟩
    · refine ⟨fun id hid => (nomatch hnone.symm.trans hid), fun id _ hsome => ?_⟩
      cases hset.symm.trans hsome
      exact ⟨⟨rest, hhost⟩, hmac, hip⟩

/-! ## Defined bytes (R52, R91) -/

/-- Every byte that is defined before is defined after. -/
def Grows (m m' : Memory) : Prop := ∀ a, (m.read a).isSome = true → (m'.read a).isSome = true

theorem grows_refl (m : Memory) : Grows m m := fun _ h => h

theorem writeCmd_grows {w : Word} {s t : State} (hl : s.params.Legal) (h : writeCmd w s = .next t) :
    Grows s.fb t.fb := by
  rcases writeCmd_next h with ⟨-, rfl⟩ | ⟨-, -, rfl⟩ | ⟨-, i, -, hexec⟩
  · exact grows_refl _
  · exact grows_refl _
  · rcases exec_latched_or_done hl.1 hexec with ⟨c, rfl⟩ | hdone
    · exact grows_refl _
    · exact hdone.grows

theorem deposit_grows (bytes : List Byte) (s : State) : Grows s.fb (deposit bytes s).fb := by
  unfold deposit
  split
  · exact fun _ => isSome_writeBytes
  · exact grows_refl _

/-- Every move but reset keeps what is defined. -/
theorem runMove_grows {e : HostMove} {s t : State} (hl : s.params.Legal) (h : runMove e s = .next t)
    (hreset : e ≠ .reset) : Grows s.fb t.fb ∧ Grows s.pb t.pb := by
  rcases runMove_next h with ⟨w, -, hcmd⟩ | ⟨rfl, -⟩ | ⟨bytes, -, rfl⟩ | hport | ⟨i, b, -, -, rfl⟩ |
    ⟨i, b, -, -, rfl⟩
  · exact ⟨writeCmd_grows hl hcmd, writeCmd_pb hl hcmd ▸ grows_refl _⟩
  · exact absurd rfl hreset
  · exact ⟨deposit_grows bytes s, deposit_pb bytes s ▸ grows_refl _⟩
  · rw [hport.eq]
    exact ⟨grows_refl _, grows_refl _⟩
  · exact ⟨fun _ => isSome_write, grows_refl _⟩
  · exact ⟨grows_refl _, fun _ => isSome_write⟩

/-- Settles O49: a step is idle or one move that is no reset. -/
theorem definedBytesStayDefined : Obligations.DefinedBytesStayDefined := by
  unfold Obligations.DefinedBytesStayDefined
  intro s t hl hreset h
  rcases step_next h with ⟨-, rfl⟩ | ⟨e, rest, hhost, hmove⟩
  · exact fun a => ⟨fun ha => ha, fun ha => ha⟩
  · obtain ⟨hfb, hpb⟩ := runMove_grows (s := { s with host := rest }) hl hmove
      fun he => hreset rest (he ▸ hhost)
    exact fun a => ⟨hfb a, hpb a⟩

/-! ## Reset and boot (R123, R400, R402) -/

/-- Settles O59: the definitions of reset, and R10's ranges of the open parameters. -/
theorem resetKeepsModelFields : Obligations.ResetKeepsModelFields := by
  unfold Obligations.ResetKeepsModelFields
  exact ⟨fun s => runMove_reset s, rfl, params_legal⟩

theorem run_succ_of_step {s t : State} (k : Nat) (h : step s = .next t) : core.run (k + 1) s = core.run k t := by
  have hcore : core.step s = .next t := h
  simp only [Host.Core.run, hcore]

theorem run_one_of_step {s t : State} (h : step s = .next t) : core.run 1 s = .next t := run_succ_of_step 0 h

theorem extractLsb'_append_halves (mac : BitVec 48) : mac.extractLsb' 32 16 ++ mac.extractLsb' 0 32 = mac := by
  refine BitVec.eq_of_getLsbD_eq fun j hj => ?_
  rw [BitVec.getLsbD_append, BitVec.getLsbD_extractLsb', BitVec.getLsbD_extractLsb']
  by_cases hlo : j < 32
  · simp [hlo]
  · simp [hlo, show j - 32 < 16 by omega, show 32 + (j - 32) = j by omega]

theorem extractLsb'_setWidth_self (x : BitVec 16) : (x.setWidth 32).extractLsb' 0 16 = x := by
  refine BitVec.eq_of_getLsbD_eq fun j hj => ?_
  simp [hj, show j < 32 by omega]

theorem step_setMacHi {s : State} {rest : List HostMove} {hi : BitVec 16}
    (h : s.host = .regWrite 13 (hi.setWidth 32) :: rest) :
    step s = .next { s with host := rest, argMacHi := some hi } := by
  rw [step_cons h, runMove_regWrite_argMacHi, extractLsb'_setWidth_self]

theorem step_setMacLo {s : State} {rest : List HostMove} {lo : BitVec 32} (h : s.host = .regWrite 14 lo :: rest) :
    step s = .next { s with host := rest, argMacLo := some lo } := step_cons h

theorem step_setIp {s : State} {rest : List HostMove} {ip : BitVec 32} (h : s.host = .regWrite 15 ip :: rest) :
    step s = .next { s with host := rest, argIp := some ip } := step_cons h

theorem step_initAddr {s : State} {rest : List HostMove} {hi : BitVec 16} {lo ip : BitVec 32}
    (h : s.host = cmdMove .initAddr :: rest) (hf : s.fault = false) (hid : s.identity = none)
    (hhi : s.argMacHi = some hi) (hlo : s.argMacLo = some lo) (hip : s.argIp = some ip) :
    step s = .next { s with host := rest, identity := some ⟨hi ++ lo, ip⟩, ackBuilt := false } := by
  have hcmd : writeCmd (encode .initAddr) { s with host := rest } = exec .initAddr { s with host := rest } :=
    writeCmd_of_decode_ok hf (decode_of_encode_eq rfl rfl)
  rw [step_cons h]
  exact hcmd.trans (exec_initAddr_sets hid hhi hlo hip)

/-- Settles O58: three writes set ARG_MAC and ARG_IP to the two addresses, and INIT_ADDR takes them. -/
theorem initAddressingSetsIdentity : Obligations.InitAddressingSetsIdentity := by
  unfold Obligations.InitAddressingSetsIdentity
  intro s mac ip rest hf hid hhost
  rw [run_succ_of_step 3 (step_setMacHi hhost), run_succ_of_step 2 (step_setMacLo rfl),
    run_succ_of_step 1 (step_setIp rfl)]
  refine (run_one_of_step (step_initAddr rfl ?_ ?_ rfl rfl rfl)).trans ?_
  · exact hf
  · exact hid
  · rw [extractLsb'_append_halves]
    rfl

/-! ## Runs (R365, R415) -/

theorem fault_of_reaches {s t : State} (hr : Reaches s t) (hl : s.params.Legal) (hreset : .reset ∉ s.host)
    (hs : s.fault = true) : t.fault = true := by
  induction hr with
  | here => exact hs
  | next h _ ih =>
    obtain ⟨hparams, hhost⟩ := step_keeps hl h
    rcases faultIsStickyUntilReset _ _ hs h with ⟨hf, -, -⟩ | ⟨rest, hrest⟩
    · exact ih (hparams ▸ hl) (fun hmem => hreset (hhost.subset hmem)) hf
    · exact absurd (hrest ▸ List.mem_cons_self) hreset

/-- A state that runs on to another takes a step. -/
theorem step_of_reaches {s t : State} (hr : Reaches s t) (ht : t.host = []) : ∃ u, step s = .next u := by
  cases hr with
  | here => exact ⟨_, step_idle ht⟩
  | next h _ => exact ⟨_, h⟩

theorem ends_unique {s t u : State} (ht : Ends s t) (hu : Ends s u) : t = u := by
  rcases reaches_linear ht.1 hu.1 with h | h
  · exact (reaches_idle h ht.2).symm
  · exact reaches_idle h hu.2

theorem not_ends_of_refused {s t u : State} {r : Refusal} (hr : Reaches s t) (h : step t = .refused r) :
    ¬ Ends s u := by
  rintro ⟨hu, hidle⟩
  rcases reaches_linear hr hu with htu | hut
  · obtain ⟨v, hv⟩ := step_of_reaches htu hidle
    cases h.symm.trans hv
  · rw [reaches_idle hut hidle, step_idle hidle] at h
    cases h

/-- Without a reset move the end alone tells: a fault latched before it would still be latched there. -/
theorem successful_of_end {s t : State} (hl : s.params.Legal) (hreset : .reset ∉ s.host) (ht : Ends s t)
    (hf : t.fault = false) : Successful s := by
  intro u hu
  rcases reaches_linear ht.1 hu with htu | hut
  · rw [reaches_idle htu ht.2]
    exact ⟨hf, t, step_idle ht.2⟩
  · refine ⟨?_, step_of_reaches hut ht.2⟩
    obtain ⟨hparams, hhost⟩ := reaches_keeps hu hl
    by_contra hfault
    have hend := fault_of_reaches hut (hparams ▸ hl) (fun hmem => hreset (hhost.subset hmem))
      (by simpa using hfault)
    rw [hf] at hend
    cases hend

/-- Settles O60: a run is one line of states, so a fault, a refusal or an end on it is seen from its start. -/
theorem runThatFaultsIsNeverSuccessful : Obligations.RunThatFaultsIsNeverSuccessful := by
  unfold Obligations.RunThatFaultsIsNeverSuccessful
  refine ⟨fun s t hr hf hsucc => ?fault, fun s t r hr h => ⟨fun hsucc => ?refused, fun u => not_ends_of_refused hr h⟩,
    fun s t u => ends_unique, fun s t hl hreset ht => ⟨fun hsucc => (hsucc t ht.1).1, successful_of_end hl hreset ht⟩⟩
  case fault =>
    obtain ⟨hnone, -⟩ := hsucc t hr
    rw [hf] at hnone
    cases hnone
  case refused =>
    obtain ⟨-, u, hu⟩ := hsucc t hr
    cases h.symm.trans hu

end Sys2Proof.Proofs

namespace Sys2Proof.Proofs

open Sys2Proof.Machine Sys2Proof.Safety Sys2Proof.Laws

/-! PROOFS. The commands that answer with a register: CHECKSUM, the tests of the classifier and the inbound length
queries (spec/40_checksum.md, spec/41_classifier.md, spec/43_arp.md, spec/46_tcp.md section 5). A ready command has a
result, by `body_ok_of_ready`; the inversions here say which. -/

/-- A body that has a result: `exec` answers that state, with ACK_BUILT cleared. -/
theorem exec_of_body_ok {i : Instr} {s t : State} (h : body i s = .ok t) (hi : i ≠ .tcpAckFromAny) :
    exec i s = .next { t with ackBuilt := false } := by
  rw [exec_eq, finish_ok h, ended, decide_eq_false hi]

/-- A ready query, by the value every result of its body has. -/
theorem exec_of_ready_query {i : Instr} {s : State} {v : Half} (hl : s.params.Legal) (h : Ready s i)
    (hi : i ≠ .tcpAckFromAny) (hv : ∀ t, body i s = .ok t → t = s.setResult v) :
    exec i s = .next { s with result := some v, ackBuilt := false } := by
  obtain ⟨t, ht⟩ := body_ok_of_ready hl h
  rw [exec_of_body_ok ht hi, hv t ht]
  rfl

/-! ## CHECKSUM (R150, R151, R156) -/

theorem body_checksum_eq_ok {s t : State} {k : Kind} {l off : Half} (hoff : s.argOff = some off)
    (h : body (.checksum k l) s = .ok t) :
    t = s.setResult (BitVec.ofNat 16 (ocChecksum (checksumSeed k l.toNat + wordSum s.fb off.toNat l.toNat))) := by
  obtain ⟨-, -, h⟩ := bind_eq_ok h
  obtain ⟨a, ha, h⟩ := bind_eq_ok h
  obtain ⟨-, -, h⟩ := bind_eq_ok h
  obtain ⟨-, -, h⟩ := bind_eq_ok h
  obtain ⟨c, hc, h⟩ := bind_eq_ok h
  cases h
  cases hoff.symm.trans (orUndef_eq_ok ha)
  rw [inetChecksum_eq_ok hc]

/-- Settles O19: the command has a result, and `inetChecksum_eq_ok` says which. -/
theorem checksumGivesResult : Obligations.ChecksumGivesResult := by
  unfold Obligations.ChecksumGivesResult
  intro s off l k hl hoff h
  rw [exec_of_ready_query hl h (by simp) fun t => body_checksum_eq_ok hoff]
  cases k <;> rfl

theorem wordSum_le (m : Memory) (a n : Nat) : wordSum m a n ≤ 65535 * ((n + 1) / 2) := by
  induction n using Nat.strongRecOn generalizing a with
  | ind n ih =>
    match n, ih with
    | 0, _ => simp
    | 1, _ => rw [wordSum_one]; have := (byteAt m a).isLt; omega
    | n + 2, ih =>
      have htail := ih n (by omega) (a + 2)
      have hword := beAt_two_lt m a
      rw [wordSum_add_two]
      omega

theorem checksumSeed_le {k : Kind} {n : Nat} (h : n ≤ 65535) : checksumSeed k n ≤ 65544 := by
  cases k <;> simp [checksumSeed] <;> omega

theorem ocFold_foldLoop (fuel sum : Nat) : ocFold (foldLoop fuel sum) = ocFold sum := by
  induction fuel generalizing sum with
  | zero => rfl
  | succ fuel ih =>
    rw [foldLoop]
    split
    · rw [ih, ocFold_step]
    · rfl

theorem foldLoop_succ (fuel sum : Nat) :
    foldLoop (fuel + 1) sum = if 65536 ≤ sum then foldLoop fuel (sum % 65536 + sum / 65536) else sum := by
  rw [foldLoop, Nat.and_two_pow_sub_one_eq_mod sum 16, Nat.shiftRight_eq_div_pow]
  exact if_congr (by omega) rfl rfl

theorem foldLoop_zero (sum : Nat) : foldLoop 0 sum = sum := rfl

/-- One round leaves at most 131070 of a 32-bit sum, a second at most 65535. -/
theorem foldLoop_two_lt {sum : Nat} (h : sum < 4294967296) : foldLoop 2 sum < 65536 := by
  rw [foldLoop_succ 1, foldLoop_succ 0]
  simp only [foldLoop_zero]
  split
  · split <;> omega
  · omega

/-- Settles O22: at most 32768 words of at most 65535, and the seed, stay below 2^32. -/
theorem checksumFitsAccumulator : Obligations.ChecksumFitsAccumulator := by
  unfold Obligations.ChecksumFitsAccumulator
  intro s a n sum k hl hin hsum
  have hn : n ≤ 65535 := by have := hl.2.1; omega
  have hlt : sum < 4294967296 := by
    have hwords := wordSum_le s.fb a n
    have hseed := checksumSeed_le (k := k) hn
    rw [sumWords_eq_ok hsum]
    omega
  refine ⟨hlt, ?_⟩
  rw [foldCarries_eq, ← ocFold_foldLoop 2, ocFold_small (foldLoop_two_lt hlt)]

/-! ## The tests of the classifier (R170 to R172, R224) -/

theorem toNat_eq_ipBytes (ip : BitVec 32) : ip.toNat = (ipByte ip 0).toNat * 16777216 +
    ((ipByte ip 1).toNat * 65536 + ((ipByte ip 2).toNat * 256 + (ipByte ip 3).toNat)) := by
  have := ip.isLt
  simp only [ipByte, BitVec.extractLsb'_toNat, Nat.shiftRight_eq_div_pow]
  omega

/-- Four bytes are those of an address exactly when they are its number. -/
theorem eq_ipBytes_iff {b0 b1 b2 b3 : Byte} {ip : BitVec 32} : [b0, b1, b2, b3] = ipBytes ip ↔
    b0.toNat * 16777216 + (b1.toNat * 65536 + (b2.toNat * 256 + b3.toNat)) = ip.toNat := by
  rw [toNat_eq_ipBytes ip]
  simp only [ipBytes, List.cons.injEq, and_true, ← BitVec.toNat_inj]
  have := b1.isLt; have := b2.isLt; have := b3.isLt
  have := (ipByte ip 1).isLt; have := (ipByte ip 2).isLt; have := (ipByte ip 3).isLt
  omega

theorem ipAtIs_eq_ok {s : State} {a : Nat} {ip : BitVec 32} {b : Bool} (h : ipAtIs s a ip = .ok b) :
    b = decide (beAt s.fb a 4 = ip.toNat) := by
  obtain ⟨bs, hbs, h⟩ := bind_eq_ok h
  cases h
  obtain ⟨hlen, hread⟩ := fbBytes_eq_ok hbs
  match bs, hlen, hread with
  | [b0, b1, b2, b3], _, hread =>
    have h0 : byteAt s.fb a = b0 := byteAt_of_read (hread 0 (by omega)).2
    have h1 : byteAt s.fb (a + 1) = b1 := byteAt_of_read (hread 1 (by omega)).2
    have h2 : byteAt s.fb (a + 2) = b2 := byteAt_of_read (hread 2 (by omega)).2
    have h3 : byteAt s.fb (a + 3) = b3 := byteAt_of_read (hread 3 (by omega)).2
    rw [beAt_four, h0, h1, h2, h3, ← decide_eq_decide.mpr eq_ipBytes_iff, beq_eq_decide]

/-- The guards of the tests: a failed one answers false, a passed one leaves the rest of the test. -/
theorem eq_decide_of_guard {c p q : Prop} [Decidable c] [Decidable p] [Decidable q] {r : Except Err Bool} {b : Bool}
    (hc : c ↔ ¬ p) (h : (if c then .ok false else r) = .ok b) (hr : r = .ok b → b = decide q) :
    b = decide (p ∧ q) := by
  by_cases hp : p
  · rw [if_neg (fun hc' => hc.mp hc' hp)] at h
    rw [hr h]
    simp [hp]
  · rw [if_pos (hc.mpr hp)] at h
    cases h
    simp [hp]

theorem isArpForMe_eq_ok {s : State} {ip : BitVec 32} {n : Nat} {b : Bool} (h : isArpForMe ip n s = .ok b) :
    b = decide (41 ≤ n ∧ beAt s.fb 12 2 = 0x0806 ∧ beAt s.fb 38 4 = ip.toNat) := by
  refine eq_decide_of_guard Nat.not_le.symm h fun h => ?_
  obtain ⟨ty, hty, h⟩ := bind_eq_ok h
  obtain ⟨-, rfl⟩ := memRead_eq_ok hty
  exact eq_decide_of_guard Iff.rfl h ipAtIs_eq_ok

theorem isIpForMe_eq_ok {s : State} {ip : BitVec 32} {n : Nat} {b : Bool} (h : isIpForMe ip n s = .ok b) :
    b = decide (42 ≤ n ∧ beAt s.fb 12 2 = 0x0800 ∧ byteAt s.fb 14 = 0x45 ∧ beAt s.fb 30 4 = ip.toNat) := by
  refine eq_decide_of_guard Nat.not_le.symm h fun h => ?_
  obtain ⟨ty, hty, h⟩ := bind_eq_ok h
  obtain ⟨-, rfl⟩ := memRead_eq_ok hty
  refine eq_decide_of_guard Iff.rfl h fun h => ?_
  obtain ⟨v, hv, h⟩ := bind_eq_ok h
  obtain rfl := byteAt_of_read (fbRead_eq_ok hv).2
  exact eq_decide_of_guard Iff.rfl h ipAtIs_eq_ok

theorem isArpReplyForMe_eq_ok {s : State} {ip : BitVec 32} {b : Bool} (h : isArpReplyForMe ip s = .ok b) :
    b = decide (beAt s.fb 12 2 = 0x0806 ∧ beAt s.fb 20 2 = 2 ∧ beAt s.fb 38 4 = ip.toNat) := by
  obtain ⟨ty, hty, h⟩ := bind_eq_ok h
  obtain ⟨-, rfl⟩ := memRead_eq_ok hty
  refine eq_decide_of_guard Iff.rfl h fun h => ?_
  obtain ⟨op, hop, h⟩ := bind_eq_ok h
  obtain ⟨-, rfl⟩ := memRead_eq_ok hop
  exact eq_decide_of_guard Iff.rfl h ipAtIs_eq_ok

@[simp] theorem boolResult_decide (p : Prop) [Decidable p] : boolResult (decide p) = if p then 1 else 0 := by
  by_cases hp : p <;> simp [boolResult, hp]

/-- The bodies of the three tests: the identity is read, the test made and its answer put into RESULT. -/
theorem eq_of_test_eq_ok {s t : State} {id : Identity} {test : BitVec 32 → State → Except Err Bool} {p : Prop}
    [Decidable p] (hid : s.identity = some id) (hp : ∀ b, test id.ip s = .ok b → b = decide p)
    (h : (s.needIdentity >>= fun id => test id.ip s >>= fun r => pure (s.setResult (boolResult r))) = .ok t) :
    t = s.setResult (if p then 1 else 0) := by
  rw [needIdentity_some hid, bind_ok] at h
  obtain ⟨b, hb, h⟩ := bind_eq_ok h
  cases h
  rw [hp b hb, boolResult_decide]

/-- Settles O23: each test has an answer, and it is the conjunction of its guards. -/
theorem frameTestsGiveResult : Obligations.FrameTestsGiveResult := by
  unfold Obligations.FrameTestsGiveResult
  intro s l id hl hid
  exact ⟨fun h => exec_of_ready_query hl h (by simp) fun t => eq_of_test_eq_ok (test := (isArpForMe · l.toNat)) hid
      fun b => isArpForMe_eq_ok,
    fun h => exec_of_ready_query hl h (by simp) fun t => eq_of_test_eq_ok (test := (isIpForMe · l.toNat)) hid
      fun b => isIpForMe_eq_ok⟩

/-- Settles O31, in the way of O23. -/
theorem isArpReplyForMeGivesResult : Obligations.IsArpReplyForMeGivesResult := by
  unfold Obligations.IsArpReplyForMeGivesResult
  intro s id hl hid h
  exact exec_of_ready_query hl h (by simp) fun t => eq_of_test_eq_ok (test := isArpReplyForMe) hid
    fun b => isArpReplyForMe_eq_ok

theorem body_classify_eq_ok {s t : State} {l : Half} {id : Identity} (hid : s.identity = some id)
    (h : body (.classify l) s = .ok t) : t = s.setResult (
      if 41 ≤ l.toNat ∧ beAt s.fb 12 2 = 0x0806 ∧ beAt s.fb 38 4 = id.ip.toNat then 1
      else if 42 ≤ l.toNat ∧ beAt s.fb 12 2 = 0x0800 ∧ byteAt s.fb 14 = 0x45 ∧ beAt s.fb 30 4 = id.ip.toNat then 2
      else 0) := by
  rw [body, classifyBody, needIdentity_some hid, bind_ok] at h
  obtain ⟨arp, harp, h⟩ := bind_eq_ok h
  have harp := isArpForMe_eq_ok harp
  cases arp with
  | true =>
    cases h
    rw [if_pos (of_decide_eq_true harp.symm)]
  | false =>
    rw [if_neg (of_decide_eq_false harp.symm)]
    obtain ⟨ip, hip, h⟩ := bind_eq_ok h
    have hip := isIpForMe_eq_ok hip
    cases ip with
    | true => cases h; rw [if_pos (of_decide_eq_true hip.symm)]
    | false => cases h; rw [if_neg (of_decide_eq_false hip.symm)]

/-- Settles O24: the two tests in the order of the body. -/
theorem classifyGivesResult : Obligations.ClassifyGivesResult := by
  unfold Obligations.ClassifyGivesResult
  intro s l id hl hid h
  exact exec_of_ready_query hl h (by simp) fun t => body_classify_eq_ok hid

/-! ## The inbound length queries (R291 to R294) -/

/-- Settles O44: the three commands give the lengths `inboundInfo` reads. -/
theorem inboundQueriesGiveLengths : Obligations.InboundQueriesGiveLengths := by
  unfold Obligations.InboundQueriesGiveLengths
  intro s hl
  have hs : Roomy s := hl.1
  refine ⟨fun ⟨_, _, hr⟩ => ?info, fun ⟨_, _, hr⟩ => ?offset, fun ⟨_, _, hr⟩ => ?len⟩
  case info =>
    refine exec_of_body_ok (t := { s with infoDlen := some _, infoHlen := some _ }) ?_ (by simp)
    rw [body, inboundInfoBody, inboundInfo_ok_of_readable hs hr rfl]
    rfl
  case offset =>
    refine exec_of_body_ok (t := s.setResult _) ?_ (by simp)
    rw [body, getDataOffsetBody, inboundInfo_ok_of_readable hs hr rfl]
    rfl
  case len =>
    refine exec_of_body_ok (t := s.setResult _) ?_ (by simp)
    rw [body, getDataLenBody, inboundInfo_ok_of_readable hs hr rfl]
    rfl

end Sys2Proof.Proofs

namespace Sys2Proof.Proofs

open Sys2Proof.Machine Sys2Proof.Safety Sys2Proof.Laws

/-! PROOFS. Round trips: a field of FB (spec/20_memory.md section 1), and what the host reads from a register or a byte
(spec/10_state.md section 4). -/

/-! ## Fields of FB (R12, R81) -/

/-- The byte of a value at the weight 256^n. -/
def byteOf (v n : Nat) : Byte := BitVec.ofNat 8 (v >>> (8 * n))

theorem byteOf_shift_add_mod (v n : Nat) : (byteOf v n).toNat <<< (8 * n) + v % 256 ^ n = v % 256 ^ (n + 1) := by
  have hweight : 2 ^ (8 * n) = 256 ^ n := Nat.pow_mul 2 8 n
  rw [byteOf, BitVec.toNat_ofNat, Nat.shiftLeft_eq, Nat.shiftRight_eq_div_pow, hweight,
    Nat.mod_pow_succ (b := 256) (k := n) (x := v), Nat.mul_comm, Nat.add_comm]

theorem memWrite_succ {s : State} {a n : Nat} (v : Nat) (h : a < s.params.bufSize) :
    s.memWrite a (n + 1) v = (s.setFb (s.fb.write a (byteOf v n))).memWrite (a + 1) n v := by
  rw [State.memWrite, fbWrite_ok h, bind_ok]
  rfl

theorem memRead_succ {s : State} {a n r : Nat} {b : Byte} (hb : s.fbRead a = .ok b) (hr : s.memRead (a + 1) n = .ok r) :
    s.memRead a (n + 1) = .ok (b.toNat <<< (8 * n) + r) := by
  rw [State.memRead, hb, bind_ok, hr]
  rfl

/-- What MemWrite does: it stores the value, keeps the parameters and leaves the bytes outside the field alone. -/
theorem memWrite_inRange {s : State} {a n : Nat} (v : Nat) (h : a + n ≤ s.params.bufSize) :
    ∃ t, s.memWrite a n v = .ok t ∧ t.params = s.params ∧ t.memRead a n = .ok (v % 256 ^ n) ∧
      ∀ b, b < a ∨ a + n ≤ b → t.fb.read b = s.fb.read b := by
  induction n generalizing s a with
  | zero => exact ⟨s, rfl, rfl, by rw [Nat.pow_zero, Nat.mod_one]; rfl, fun _ _ => rfl⟩
  | succ n ih =>
    obtain ⟨t, ht, hparams, hread, hkeep⟩ := ih (s := s.setFb (s.fb.write a (byteOf v n))) (a := a + 1)
      (by rw [setFb_params]; omega)
    have htop : t.fbRead a = .ok (byteOf v n) := by
      rw [fbRead_eq_ok_iff, hparams, hkeep a (.inl (by omega)), setFb_fb, setFb_params, read_write, if_pos rfl]
      exact ⟨by omega, rfl⟩
    refine ⟨t, (memWrite_succ v (by omega)).trans ht, hparams, ?_, fun b hb => ?_⟩
    · rw [memRead_succ htop hread, byteOf_shift_add_mod]
    · rw [hkeep b (by omega), setFb_fb, read_write, if_neg (by omega)]

/-- Settles O51, by induction on the length of the field. -/
theorem memoryFieldRoundTrip : Obligations.MemoryFieldRoundTrip := by
  unfold Obligations.MemoryFieldRoundTrip
  intro s a n v h
  obtain ⟨t, ht, -, hread, hkeep⟩ := memWrite_inRange v h
  exact ⟨t, ht, hread, hkeep⟩

/-! ## Register reads (R41 to R44) -/

/-- The layout of R41 as a sum. -/
theorem toNat_status (s : State) : s.status.toNat =
    s.err.toNat + 256 * s.fault.toNat + 512 * s.identity.isSome.toNat + 1024 * s.ackBuilt.toNat := by
  simp only [State.status, toNat_append_eq_add, BitVec.toNat_ofBool, BitVec.toNat_zero]
  omega

theorem setWidth_eq_ofNat {w : Nat} (x : BitVec w) : x.setWidth 32 = BitVec.ofNat 32 x.toNat := by
  rw [BitVec.ofNat_toNat]

/-- A register that holds a value gives it, zero-extended. -/
theorem giveHost_valueOr_some {w : Nat} (n : Nat) {r : Option (BitVec w)} {x : BitVec w} (s : State) (h : r = some x) :
    giveHost (valueOr n r) s = .next { s with reads := s.reads ++ [BitVec.ofNat 32 x.toNat] } := by
  rw [h, ← setWidth_eq_ofNat]
  rfl

/-- Settles O54, register by register. -/
theorem registerReadsGiveValues : Obligations.RegisterReadsGiveValues := by
  unfold Obligations.RegisterReadsGiveValues
  exact fun s => ⟨⟨s.status, rfl, toNat_status s⟩, fun x => giveHost_valueOr_some 2 s, fun x => giveHost_valueOr_some 3 s,
    fun x => giveHost_valueOr_some 4 s, rfl, fun x => giveHost_valueOr_some 6 s⟩

/-! ## Bytes the host writes (R45, R95) -/

/-- What the host reads at a byte of a buffer that is defined. -/
theorem giveHost_bufRead_defined (s : State) {size i : Nat} {m : Memory} {b : Byte} (hi : i < size)
    (hb : m.read i = some b) : giveHost (asWord (bufRead size m i)) s =
      .next { s with reads := s.reads ++ [BitVec.ofNat 32 b.toNat] } := by
  rw [bufRead, if_pos hi, hb, ← setWidth_eq_ofNat]
  rfl

theorem read_write_same (m : Memory) (i : Nat) (b : Byte) : (m.write i b).read i = some b := by
  rw [read_write, if_pos rfl]

theorem read_write_other (m : Memory) {i a : Nat} (b : Byte) (h : a ≠ i) : (m.write i b).read a = m.read a := by
  rw [read_write, if_neg h.symm]

/-- Settles O56: both buffers are written and read in the same way. -/
theorem hostBytesReadBack : Obligations.HostBytesReadBack := by
  unfold Obligations.HostBytesReadBack
  intro s i b
  refine ⟨fun hi => ⟨s.fb.write i b, if_pos hi, read_write_same s.fb i b, fun a => read_write_other s.fb b, ?_⟩,
    fun hi => ⟨s.pb.write i b, if_pos hi, read_write_same s.pb i b, fun a => read_write_other s.pb b, ?_⟩⟩
  · exact giveHost_bufRead_defined _ hi (read_write_same s.fb i b)
  · exact giveHost_bufRead_defined _ hi (read_write_same s.pb i b)

end Sys2Proof.Proofs

namespace Sys2Proof.Proofs

open Sys2Proof.Machine Sys2Proof.Safety Sys2Proof.Laws

/-! PROOFS. SWAP_IP and ECHO_REPLY (spec/42_envelope.md, spec/44_icmp.md): the buffers they leave, byte by byte, and the
incremental ICMP checksum against the recomputation (R242). -/

/-! ## A ready command that sends (R376) -/

theorem send_eq_ok {s t : State} {n : Nat} (h : s.send n = .ok t) :
    ∃ bytes, t = { s with tx := s.tx ++ [⟨n, bytes⟩] } ∧ IsFrame s.fb n bytes := by
  obtain ⟨bytes, hbytes, h⟩ := bind_eq_ok h
  cases h
  obtain ⟨hlen, hread⟩ := fbBytes_eq_ok hbytes
  exact ⟨bytes, rfl, hlen, fun k hk => by rw [← (hread k hk).2, Nat.zero_add]⟩

/-- That the frame is defined need not be shown again: the command is ready, so its Send runs. -/
theorem exec_of_ready_send {i : Instr} {s t : State} {m : Memory} {n : Nat} (hl : s.params.Legal) (h : Ready s i)
    (hbody : body i s = (t.setFb m).send n) (hi : i ≠ .tcpAckFromAny) :
    ∃ bytes, exec i s = .next { t with fb := m, tx := t.tx ++ [⟨n, bytes⟩], ackBuilt := false } ∧
      IsFrame m n bytes := by
  obtain ⟨u, hu⟩ := body_ok_of_ready hl h
  have hexec := exec_of_body_ok hu hi
  rw [hbody] at hu
  obtain ⟨bytes, rfl, hframe⟩ := send_eq_ok hu
  exact ⟨bytes, hexec, hframe⟩

/-! ## SWAP_IP (R192, R194) -/

/-- `swapIp` writes at 20 to 22 and 24 to 33 only. -/
theorem read_swapIpMem_outside {ip : BitVec 32} {m : Memory} (h : Defined m 26 4) {a : Nat}
    (ha : a < 20 ∨ a = 23 ∨ 34 ≤ a) : (swapIpMem ip m).read a = m.read a := by
  rw [read_swapIpMem h a (by omega) (by omega)]
  repeat rw [if_neg (by omega)]

theorem ipNormal_swapIpMem (ip : BitVec 32) (m : Memory) : IpNormal (swapIpMem ip m) := ipNormal_fillIpMem _

theorem ipTurned_swapIpMem {id : Identity} {m : Memory} (h : Defined m 26 4) : IpTurned id m (swapIpMem id.ip m) := by
  refine ⟨by simp [holds_cons, ipBytes, read_swapIpMem h], fun k hk => ?_⟩
  rw [read_swapIpMem h _ (by omega) (by omega), show 30 + k - 4 = 26 + k by omega]
  grind

/-- Settles O26: where the header fields it reads are defined `swapIp` runs, and its buffer is read off
`read_swapIpMem`. -/
theorem swapIpExchangesAddresses : Obligations.SwapIpExchangesAddresses := by
  unfold Obligations.SwapIpExchangesAddresses
  rintro s id ⟨hroom, -⟩ hid ⟨-, -, hfb, -⟩
  have hread : SwapIpRead s.fb := by
    refine ⟨fun k hk => hfb _ ?_, fun k hk => hfb _ ?_, fun k hk => hfb _ ?_⟩ <;>
      simp [readsFb, within_iff] <;> omega
  have haddr : Defined s.fb 26 4 := hread.2.2
  have hrun : body .swapIp s = .ok (s.setFb (swapIpMem id.ip s.fb)) := by
    rw [body, swapIpBody, needIdentity_some hid, bind_ok]
    exact swapIp_ok (s := s) hroom hread
  exact ⟨swapIpMem id.ip s.fb, exec_of_body_setFb hrun nofun, ipTurned_swapIpMem haddr, ipNormal_swapIpMem _ _,
    fun a _ ha => read_swapIpMem_outside haddr (by omega), fun a h1 h2 => read_swapIpMem_outside haddr (by omega),
    fun a ha => read_swapIpMem_outside haddr (by omega)⟩

/-! ## The parts of a reply, through writes before and after them -/

section
variable {id : Identity} {m m1 m2 m3 : Memory}

theorem holds_congr {a : Nat} {bs : List Byte} (h : Holds m1 a bs)
    (hk : ∀ b, a ≤ b → b < a + bs.length → m2.read b = m1.read b) : Holds m2 a bs := fun k hkb =>
  (hk _ (by omega) (by omega)).trans (h k hkb)

/-- The source may stand in an earlier buffer, the copy in a later one. -/
theorem copied_congr {src dst n : Nat} (h : Copied src dst n m1 m2)
    (hs : ∀ a, src ≤ a → a < src + n → m1.read a = m.read a)
    (ht : ∀ a, dst ≤ a → a < dst + n → m3.read a = m2.read a) : Copied src dst n m m3 := fun k hk =>
  (ht _ (by omega) (by omega)).trans ((h k hk).trans (hs _ (by omega) (by omega)))

theorem ethTurned_congr (h : EthTurned id m m1) (hk : ∀ a < 12, m2.read a = m1.read a) : EthTurned id m m2 := by
  obtain ⟨hdst, hsrc⟩ := h
  exact ⟨copied_congr hdst (fun _ _ _ => rfl) fun a _ _ => hk a (by omega),
    holds_congr hsrc fun a _ ha => hk a (by rw [length_macBytes] at ha; omega)⟩

theorem ipTurned_congr (h : IpTurned id m1 m2) (hs : ∀ a, 26 ≤ a → a < 30 → m1.read a = m.read a)
    (ht : ∀ a, 26 ≤ a → a < 34 → m3.read a = m2.read a) : IpTurned id m m3 := by
  obtain ⟨hsrc, hdst⟩ := h
  exact ⟨holds_congr hsrc fun a _ ha => ht a (by omega) (by simp [ipBytes] at ha; omega),
    copied_congr hdst (fun a _ _ => hs a (by omega) (by omega)) fun a _ _ => ht a (by omega) (by omega)⟩

theorem ipNormal_congr (h : IpNormal m1) (hk : ∀ a, 14 ≤ a → a < 34 → m2.read a = m1.read a) : IpNormal m2 := by
  obtain ⟨hbytes, hcsum⟩ := h
  exact ⟨holds_congr hbytes fun a _ ha => hk a (by omega) (by simp at ha; omega),
    CsumField.congr hcsum (by omega) (by omega) fun a _ _ => hk a (by omega) (by omega)⟩

end

/-! ## ECHO_REPLY (R240, R241) -/

/-- The buffer whose addresses are turned around and whose type is that of a reply. -/
def echoTurned (id : Identity) (m : Memory) : Memory := (swapIpMem id.ip (swapEthMem id.mac m)).write 34 0x00

/-- The buffer ECHO_REPLY sends. -/
def echoMem (id : Identity) (m : Memory) : Memory := icmpMem (echoTurned id m)

/-- What ECHO_REPLY reads of any frame before it sends it. -/
structure EchoRead (m : Memory) : Prop where
  eth : Defined m 6 6
  ip : SwapIpRead m
  csum : (m.read 36).isSome = true
  carry : 0xF8 ≤ (byteAt m 36).toNat → (m.read 37).isSome = true

theorem echoRead_of_readable {s : State} {l : Half} (h : Readable s (.echoReply l)) : EchoRead s.fb := by
  obtain ⟨hfb, -⟩ := h
  exact {
    eth := fun k hk => hfb _ (by simp [readsFb, within]; omega)
    ip := ⟨fun k hk => hfb _ (by simp [readsFb, within]; omega), fun k hk => hfb _ (by simp [readsFb, within]; omega),
      fun k hk => hfb _ (by simp [readsFb, within]; omega)⟩
    csum := hfb _ (by simp [readsFb])
    carry := fun hc => hfb _ (by simp [readsFb, hc]) }

section
variable {id : Identity} {m : Memory}

theorem swapIpRead_swapEthMem (h : EchoRead m) : SwapIpRead (swapEthMem id.mac m) := by
  obtain ⟨hhdr, hproto, haddr⟩ := h.ip
  have hkept := sameFrom_swapEthMem (mac := id.mac) h.eth
  exact ⟨fun k hk => by rw [hkept _ (by omega)]; exact hhdr k hk, fun k hk => by rw [hkept _ (by omega)]; exact hproto k hk,
    fun k hk => by rw [hkept _ (by omega)]; exact haddr k hk⟩

/-- The envelope and the type leave every byte from 35 on as it was. -/
theorem read_echoTurned_kept (h : EchoRead m) {a : Nat} (ha : (12 ≤ a ∧ a < 20) ∨ a = 23 ∨ 35 ≤ a) :
    (echoTurned id m).read a = m.read a := by
  obtain ⟨-, -, haddr⟩ := swapIpRead_swapEthMem (id := id) h
  rw [echoTurned, read_write, if_neg (by omega), read_swapIpMem_outside haddr (by omega),
    sameFrom_swapEthMem h.eth a (by omega)]

theorem byteAt_echoTurned (h : EchoRead m) {a : Nat} (ha : 35 ≤ a) : byteAt (echoTurned id m) a = byteAt m a := by
  rw [byteAt, read_echoTurned_kept h (by omega), byteAt]

theorem read_echoMem_kept (h : EchoRead m) {a : Nat} (ha : (12 ≤ a ∧ a < 20) ∨ a = 23 ∨ a = 35 ∨ 38 ≤ a) :
    (echoMem id m).read a = m.read a := by
  rw [echoMem, read_icmpMem_other (by omega) (by omega), read_echoTurned_kept h (by omega)]

theorem read_echoMem_type : (echoMem id m).read 34 = some 0x00 := by
  rw [echoMem, read_icmpMem_other (by omega) (by omega), echoTurned, read_write, if_pos rfl]

theorem gt_carry_iff {b : Byte} : b > 0xF7 ↔ 0xF8 ≤ b.toNat := by
  rw [gt_iff_lt, BitVec.lt_def]
  exact Iff.rfl

theorem read_echoMem_csumHi (h : EchoRead m) : (echoMem id m).read 36 = some (byteAt m 36 + 8) := by
  rw [echoMem, icmpMem, read_write, if_pos rfl, byteAt_echoTurned h (by omega)]

theorem read_echoMem_csumLo (h : EchoRead m) : (echoMem id m).read 37 =
    if 0xF8 ≤ (byteAt m 36).toNat then some (byteAt m 37 + 1) else m.read 37 := by
  rw [echoMem, icmpMem, read_write, if_neg (by omega), byteAt_echoTurned h (by omega), byteAt_echoTurned h (by omega)]
  by_cases hc : 0xF8 ≤ (byteAt m 36).toNat
  · rw [if_pos hc, if_pos (gt_carry_iff.mpr hc), read_write, if_pos rfl]
  · rw [if_neg hc, if_neg (mt gt_carry_iff.mp hc), read_echoTurned_kept h (by omega)]

theorem read_echoMem_header {a : Nat} (ha : a < 34) :
    (echoMem id m).read a = (swapIpMem id.ip (swapEthMem id.mac m)).read a := by
  rw [echoMem, read_icmpMem_other (by omega) (by omega), echoTurned, read_write, if_neg (by omega)]

theorem ethTurned_echoMem (h : EchoRead m) : EthTurned id m (echoMem id m) := by
  obtain ⟨-, -, haddr⟩ := swapIpRead_swapEthMem (id := id) h
  exact ethTurned_congr (ethTurned_swapEthMem h.eth) fun a ha => by
    rw [read_echoMem_header (by omega), read_swapIpMem_outside haddr (by omega)]

theorem ipTurned_echoMem (h : EchoRead m) : IpTurned id m (echoMem id m) := by
  obtain ⟨-, -, haddr⟩ := swapIpRead_swapEthMem (id := id) h
  exact ipTurned_congr (ipTurned_swapIpMem haddr) (fun a _ _ => sameFrom_swapEthMem h.eth a (by omega))
    fun a _ _ => read_echoMem_header (by omega)

theorem ipNormal_echoMem : IpNormal (echoMem id m) :=
  ipNormal_congr (ipNormal_swapIpMem _ _) fun _ _ _ => read_echoMem_header (by omega)

end

theorem body_echoReply {s : State} {l : Half} {id : Identity} (hs : Roomy s) (hid : s.identity = some id)
    (hin : l.toNat ≤ s.params.bufSize) (h : EchoRead s.fb) :
    body (.echoReply l) s = (s.setFb (echoMem id s.fb)).send l.toNat := by
  have heth := swapEthernet_ok (id := id) hs h.eth
  have hip := swapIp_ok (id := id) hs (swapIpRead_swapEthMem (id := id) h)
  have hicmp : icmpCsumUpdate (s.setFb (echoTurned id s.fb)) = .ok (s.setFb (echoMem id s.fb)) := by
    refine icmpCsumUpdate_ok hs ?_ fun hc => ?_
    · rw [read_echoTurned_kept h (by omega)]; exact h.csum
    · rw [byteAt_echoTurned h (by omega), gt_carry_iff] at hc
      rw [read_echoTurned_kept h (by omega)]; exact h.carry hc
  rw [setFb_self] at heth
  rw [body, echoReplyBody, needIdentity_some hid, bind_ok, raiseIf_gt_of_le hin, bind_ok, heth, bind_ok, hip, bind_ok,
    fbWrite_low hs (by simp), bind_ok]
  exact (congrArg (· >>= fun t => t.send l.toNat) hicmp).trans (bind_ok _ _)

theorem exec_echoReply {s : State} {l : Half} {id : Identity} (hl : s.params.Legal) (hid : s.identity = some id)
    (h : Ready s (.echoReply l)) : ∃ bytes, exec (.echoReply l) s = .next { s with
      fb := echoMem id s.fb, tx := s.tx ++ [⟨l.toNat, bytes⟩], ackBuilt := false } ∧
      IsFrame (echoMem id s.fb) l.toNat bytes := by
  obtain ⟨-, hu, hr⟩ := h
  have hin : l.toNat ≤ s.params.bufSize := by simpa [lengthsFit] using lengthsFit_of_upFront hu
  exact exec_of_ready_send hl ⟨rfl, hu, hr⟩ (body_echoReply hl.1 hid hin (echoRead_of_readable hr)) nofun

/-- Settles O32: the buffer the run leaves is `echoMem`, read off byte by byte. -/
theorem echoReplySendsReply : Obligations.EchoReplySendsReply := by
  unfold Obligations.EchoReplySendsReply
  intro s l id hl hid hready
  have h := echoRead_of_readable hready.2.2
  obtain ⟨bytes, hexec, hframe⟩ := exec_echoReply hl hid hready
  have hkept {a : Nat} := read_echoMem_kept (id := id) h (a := a)
  refine ⟨_, bytes, hexec, hframe, ethTurned_echoMem h, fun a h1 h2 => hkept (by omega), ipNormal_echoMem,
    fun a h1 h2 => hkept (by omega), ipTurned_echoMem h, holds_cons.mpr ⟨read_echoMem_type, holds_nil _ _⟩,
    fun a h1 h2 => hkept (by omega), holds_cons.mpr ⟨read_echoMem_csumHi h, holds_nil _ _⟩, ?csumLo,
    fun a ha => hkept (by omega)⟩
  have hlo := read_echoMem_csumLo (id := id) h
  split
  · rw [if_pos ‹_›] at hlo
    exact holds_cons.mpr ⟨hlo, holds_nil _ _⟩
  · rw [if_neg ‹_›] at hlo
    intro a h1 h2
    obtain rfl : a = 37 := by omega
    exact hlo

/-! ## The incremental checksum against the recomputation (R242) -/

/-- The checksum of the reply, from the inbound checksum: 8 onto its high byte, and the carry out of that byte onto the
low byte, whose own carry is lost. -/
def echoedCsum (c : Nat) : Nat := if 0xF800 ≤ c then (c / 256 - 248) * 256 + (c % 256 + 1) % 256 else c + 0x0800

theorem beAt_csum_echoMem {id : Identity} {m : Memory} (h : EchoRead m) (h37 : (m.read 37).isSome = true) :
    beAt (echoMem id m) 36 2 = echoedCsum (beAt m 36 2) := by
  have hlo := read_echoMem_csumLo (id := id) h
  rw [read_of_isSome h37, ← apply_ite some] at hlo
  rw [beAt_two, beAt_two, byteAt_of_read (read_echoMem_csumHi h), byteAt_of_read hlo, echoedCsum]
  have := (byteAt m 36).isLt
  have := (byteAt m 37).isLt
  by_cases hc : 0xF8 ≤ (byteAt m 36).toNat
  · rw [if_pos hc, if_pos (by omega), BitVec.toNat_add, BitVec.toNat_add]
    simp; omega
  · rw [if_neg hc, if_neg (by omega), BitVec.toNat_add]
    simp; omega

/-- Taking 0x0800 out of a sum raises its checksum by as much in one's complement arithmetic, in which 0xFFFF is zero; where
that gives 0xFFFF, the checksum may be 0xFFFF or 0. -/
theorem ocChecksum_sub_type {x c : Nat} (hc : c = ocChecksum (0x0800 + x)) :
    c < 0xFFFF ∧ (c < 0xF7FF → ocChecksum x = c + 0x0800) ∧ (0xF7FF < c → ocChecksum x + 0xF7FF = c) := by
  have hpos : ocFold (0x0800 + x) = (0x07FF + x) % 65535 + 1 := by
    rw [ocFold, if_neg (by omega), show 0x0800 + x - 1 = 0x07FF + x by omega]
  rw [ocChecksum, hpos] at hc
  unfold ocChecksum ocFold
  split <;> omega

/-- The law of R242 for the sum `x` of the changed message without its checksum, of which the type 8 is gone. -/
theorem echoedCsum_law {x c : Nat} (hc : c = ocChecksum (0x0800 + x)) :
    if c = 0xF7FF then echoedCsum c = 0xFFFF
    else if 0xF8FF ≤ c ∧ c % 256 = 0xFF then echoedCsum c + 0x0100 = ocChecksum x
    else echoedCsum c = ocChecksum x := by
  obtain ⟨hlt, hlow, hhigh⟩ := ocChecksum_sub_type hc
  unfold echoedCsum
  split
  · rw [if_neg (by omega)]; omega
  · split <;> split <;> omega

theorem wordSum_message (m : Memory) (n : Nat) :
    wordSum m 34 (n + 4) = beAt m 34 2 + (beAt m 36 2 + wordSum m 38 n) := by
  rw [wordSum_add_two m 34 (n + 2), wordSum_add_two]

/-- Settles O33: the message's sum loses the type, 8 in its first high byte, and `echoedCsum_law` says what that does
to the checksum. -/
theorem echoChecksumMatchesRecomputation : Obligations.EchoChecksumMatchesRecomputation := by
  unfold Obligations.EchoChecksumMatchesRecomputation
  intro s t l n hl hn hin hready hd htype hcsum hexec
  obtain ⟨id, hid⟩ := identity_of_upFront hready.2.1 rfl
  have h := echoRead_of_readable hready.2.2
  obtain ⟨bytes, hrun, -⟩ := exec_echoReply hl hid hready
  have hfb : t.fb = echoMem id s.fb := by rw [Host.Outcome.next.inj (hexec.symm.trans hrun)]
  rw [hfb]
  intro c full
  obtain ⟨k, rfl⟩ : ∃ k, n = k + 4 := ⟨n - 4, by omega⟩
  have hnew : beAt (echoMem id s.fb) 36 2 = echoedCsum c := beAt_csum_echoMem h (hd 3 (by omega))
  have hfirst : beAt (echoMem id s.fb) 34 2 = (byteAt s.fb 35).toNat := by
    rw [beAt_two, byteAt_of_read read_echoMem_type, byteAt, read_echoMem_kept h (by omega), ← byteAt]
    simp
  have hrest : wordSum (echoMem id s.fb) 38 k = wordSum s.fb 38 k := wordSum_congr fun j _ => by
    rw [byteAt, read_echoMem_kept h (by omega), byteAt]
  have hold : c = ocChecksum (0x0800 + ((byteAt s.fb 35).toNat + wordSum s.fb 38 k)) := by
    refine hcsum.2.trans (congrArg ocChecksum ?_)
    rw [wordSum_message, beAt_two s.fb 34, htype]
    simp; omega
  have hfull : full = ocChecksum ((byteAt s.fb 35).toNat + wordSum s.fb 38 k) := by
    refine congrArg ocChecksum ?_
    rw [wordSum_message, hfirst, hrest]
    omega
  rw [hnew, hfull]
  exact echoedCsum_law hold

end Sys2Proof.Proofs

namespace Sys2Proof.Proofs

open Sys2Proof.Machine Sys2Proof.Safety Sys2Proof.Laws

/-! PROOFS. BUILD_TCP_HDR and TCP_SYNACK (spec/46_tcp.md sections 2 and 4). A ready command runs, so its buffers are
found by inversion: an operation that has run has read bytes that were defined, and left the buffer of its `_ok` law. -/

/-! ## Operations that have run -/

/-- Two results of one operation are the same. -/
theorem eq_of_two_results {α : Type} {r : Except Err α} {x y : α} (hx : r = .ok x) (hy : r = .ok y) : x = y :=
  Except.ok.inj (hx.symm.trans hy)

/-- An operation with an effect on FB that has run: the bytes it reads were defined. -/
theorem read_of_does {fx : Fx} {f : State → Except Err State} {s t : State} (hf : Does s.params fx f)
    (h : f s = .ok t) (a : Nat) (ha : fx.reads a) : (s.fb.read a).isSome = true := by
  obtain ⟨-, hread, -⟩ := (hf s rfl).1 t h
  exact hread a ha

section
variable {s t : State} {m : Memory} {id : Identity}

theorem swapEthernet_eq_ok (h : swapEthernet id (s.setFb m) = .ok t) (hs : Roomy s) :
    Defined m 6 6 ∧ t = s.setFb (swapEthMem id.mac m) := by
  have hd : Defined m 6 6 := fun k hk =>
    read_of_does (s := s.setFb m) (does_swapEthernet hs id) h _ (by simp only [onFb_reads]; omega)
  exact ⟨hd, eq_of_two_results h (swapEthernet_ok hs hd)⟩

theorem swapIp_eq_ok (h : swapIp id (s.setFb m) = .ok t) (hs : Roomy s) :
    SwapIpRead m ∧ t = s.setFb (swapIpMem id.ip m) := by
  have hread := read_of_does (s := s.setFb m) (does_swapIp hs id) h
  simp only [onFb_reads] at hread
  have hd : SwapIpRead m :=
    ⟨fun k hk => hread _ (by omega), fun k hk => hread _ (by omega), fun k hk => hread _ (by omega)⟩
  exact ⟨hd, eq_of_two_results h (swapIp_ok hs hd)⟩

theorem memWrite_at_eq_ok {a v : Nat} (h : (s.setFb m).memWrite a 2 v = .ok t) : t = s.setFb (put2 m a v) :=
  memWrite_two_eq_ok h

theorem fbWrite_at_eq_ok {i : Nat} {v : Byte} (h : (s.setFb m).fbWrite i v = .ok t) : t = s.setFb (m.write i v) :=
  (fbWrite_eq_ok h).2

theorem buildTcpHeader_at_eq_ok {rel : Nat} {mss copySeq : Bool}
    (h : buildTcpHeader rel mss copySeq (s.setFb m) = .ok t) (hs : Roomy s) :
    Defined m 34 12 ∧ t = (isnAfter copySeq s).setFb (buildTcpMem s.isn rel mss copySeq m) := by
  obtain ⟨hd, -⟩ := buildTcpHeader_eq_ok (s := s.setFb m) hs h
  exact ⟨hd, eq_of_two_results h (buildTcpHeader_ok hs hd)⟩

theorem checksumSeed_tcp (l : Nat) : checksumSeed .tcp (8 + l) = 6 + l := by
  rw [checksumSeed, Nat.add_sub_cancel_left]

theorem fillTcpChecksum_eq_ok {n l : Nat} (h : fillTcpChecksum n (s.setFb m) = .ok t) (hs : Roomy s)
    (hn : n = 8 + l) : t = s.setFb (csumMem (6 + l) n 50 m) := by
  obtain ⟨c, hc, -⟩ := bind_eq_ok h
  have hin := inRange_of_inetChecksum_ok (by omega) hc
  have hrun := fillTcpChecksum_ok hs hin (defined_of_inetChecksum_ok hin hc)
  rw [show checksumSeed .tcp n = 6 + l from hn ▸ checksumSeed_tcp l] at hrun
  exact eq_of_two_results h hrun

theorem send_at_eq_ok {n : Nat} (h : (s.setFb m).send n = .ok t) :
    ∃ bytes, t = { s with fb := m, tx := s.tx ++ [⟨n, bytes⟩] } ∧ IsFrame m n bytes := send_eq_ok h

end

/-- Stated for a named buffer `m`, so that no buffer is unfolded to compare the two states. -/
theorem exec_of_body_sent {i : Instr} {s t u : State} {m : Memory} {n : Nat} {bytes : List Byte}
    (h : body i s = .ok t) (ht : t = { u with fb := m, tx := u.tx ++ [⟨n, bytes⟩] }) (hi : i ≠ .tcpAckFromAny) :
    exec i s = .next { u with fb := m, tx := u.tx ++ [⟨n, bytes⟩], ackBuilt := false } := by
  subst ht
  exact exec_of_body_ok h hi

/-! ## The header builder (R288 to R290) -/

section
variable {isn : Byte} {rel : Nat} {mss copySeq : Bool} {m m1 m2 m3 : Memory}

/-- `buildTcpHeader` writes the ports, the two numbers, the header length, the checksum field and, with M = 1, the
option. -/
theorem read_buildTcpMem_outside (h : Defined m 34 12) {a : Nat} (ha : a < 34 ∨ (47 ≤ a ∧ a < 50) ∨
    (52 ≤ a ∧ a < 54) ∨ (mss = false ∧ 54 ≤ a) ∨ 58 ≤ a) : (buildTcpMem isn rel mss copySeq m).read a = m.read a := by
  rw [read_buildTcpMem h a (by omega)]
  have hopt : ¬ (mss = true ∧ 54 ≤ a ∧ a < 58) := by grind
  rw [if_neg hopt]
  repeat rw [if_neg (by omega)]

theorem portsExchanged_buildTcpMem (h : Defined m 34 12) :
    PortsExchanged m (buildTcpMem isn rel mss copySeq m) := by
  refine ⟨fun k hk => ?srcPort, fun k hk => ?dstPort⟩
  all_goals
    rw [read_buildTcpMem h _ (by omega)]
    grind

theorem acknowledges_buildTcpMem (h : Defined m 34 12) :
    Acknowledges rel m (buildTcpMem isn rel mss copySeq m) :=
  ⟨fun k hk => isSome_buildTcpMem (defined_sub h (b := 42) (k := 4) (by omega) (by omega) k hk), beAt_buildTcpMem h⟩

theorem holds_headerLen_buildTcpMem (h : Defined m 34 12) :
    Holds (buildTcpMem isn rel mss copySeq m) 46 [if mss then 0x60 else 0x50] := by
  simp [holds_cons, read_buildTcpMem h]

theorem holds_csum_buildTcpMem (h : Defined m 34 12) :
    Holds (buildTcpMem isn rel mss copySeq m) 50 [0x00, 0x00] := by
  simp [holds_cons, read_buildTcpMem h]

theorem holds_option_buildTcpMem (h : Defined m 34 12) :
    Holds (buildTcpMem isn rel true copySeq m) 54 [0x02, 0x04, 0x05, 0x80] := by
  simp [holds_cons, read_buildTcpMem h, mssOption]

theorem portsExchanged_congr (h : PortsExchanged m1 m2) (hs : ∀ a, 34 ≤ a → a < 38 → m1.read a = m.read a)
    (ht : ∀ a, 34 ≤ a → a < 38 → m3.read a = m2.read a) : PortsExchanged m m3 := by
  obtain ⟨hsrc, hdst⟩ := h
  exact ⟨copied_congr hsrc (fun a _ _ => hs a (by omega) (by omega)) fun a _ _ => ht a (by omega) (by omega),
    copied_congr hdst (fun a _ _ => hs a (by omega) (by omega)) fun a _ _ => ht a (by omega) (by omega)⟩

theorem acknowledges_congr (h : Acknowledges rel m1 m2) (hs : ∀ a, 38 ≤ a → a < 42 → m1.read a = m.read a)
    (ht : ∀ a, 42 ≤ a → a < 46 → m3.read a = m2.read a) : Acknowledges rel m m3 := by
  obtain ⟨hd, hsum⟩ := h
  have hseq : beAt m1 38 4 = beAt m 38 4 := beAt_congr fun k hk => hs _ (by omega) (by omega)
  have hack : beAt m3 42 4 = beAt m2 42 4 := beAt_congr fun k hk => ht _ (by omega) (by omega)
  refine ⟨fun k hk => ?_, by rw [hack, hsum, hseq]⟩
  rw [ht _ (by omega) (by omega)]
  exact hd k hk

end

/-! ## BUILD_TCP_HDR (R288) -/

theorem body_buildTcpHdr_eq_ok {s t : State} {mss copySeq : Bool} {rel : Half} (hs : Roomy s)
    (hrel : s.argAck = some rel) (h : body (.buildTcpHdr mss copySeq) s = .ok t) : Defined s.fb 34 12 ∧
      t = { s with
        fb := buildTcpMem s.isn rel.toNat mss copySeq s.fb, isn := if copySeq then s.isn else s.isn + 2 } := by
  rw [body, buildTcpHdrBody, hrel, orUndef_some, bind_ok] at h
  obtain ⟨hd, rfl⟩ := buildTcpHeader_eq_ok hs h
  exact ⟨hd, by cases copySeq <;> rfl⟩

/-- Settles O36: the buffer the run leaves is `buildTcpMem`, read off its table. -/
theorem buildTcpHdrRebuildsHeader : Obligations.BuildTcpHdrRebuildsHeader := by
  unfold Obligations.BuildTcpHdrRebuildsHeader
  intro s mss copySeq rel hl hrel hready
  obtain ⟨u, hu⟩ := body_ok_of_ready hl hready
  have hexec := exec_of_body_ok hu nofun
  obtain ⟨h, rfl⟩ := body_buildTcpHdr_eq_ok hl.1 hrel hu
  have hkept {a : Nat} := read_buildTcpMem_outside (isn := s.isn) (rel := rel.toNat) (mss := mss)
    (copySeq := copySeq) h (a := a)
  refine ⟨_, hexec, fun a _ ha => hkept (by omega), portsExchanged_buildTcpMem h, ?seq,
    acknowledges_buildTcpMem h, holds_headerLen_buildTcpMem h, fun a _ _ => hkept (by omega),
    holds_csum_buildTcpMem h, fun a _ _ => hkept (by omega), ?option, fun a ha => hkept (by omega)⟩
  case seq =>
    cases copySeq with
    | true => exact copied_seq_buildTcpMem h
    | false => exact holds_seq_buildTcpMem h
  case option =>
    cases mss with
    | true => exact holds_option_buildTcpMem h
    | false => exact fun a ha _ => hkept (by simp; omega)

/-! ## TCP_SYNACK (R282) -/

/-- The buffer whose IP addresses TCP_SYNACK exchanges: the MACs are exchanged and the length written. -/
def synAckSized (mac : BitVec 48) (m : Memory) : Memory := put2 (swapEthMem mac m) 16 44

/-- The buffer whose TCP header is built: addresses turned around, flags set. -/
def synAckTurned (id : Identity) (m : Memory) : Memory := (swapIpMem id.ip (synAckSized id.mac m)).write 47 0x12

/-- The buffer TCP_SYNACK checksums: the whole segment with the TCP checksum field zero. -/
def synAckZeroed (id : Identity) (isn : Byte) (m : Memory) : Memory :=
  buildTcpMem isn 1 true false (synAckTurned id m)

/-- The buffer TCP_SYNACK sends. -/
def synAckMem (id : Identity) (isn : Byte) (m : Memory) : Memory :=
  csumMem (6 + 24) 32 50 (synAckZeroed id isn m)

/-- What the three helpers read of the buffers they are given. -/
structure SynAckRead (id : Identity) (m : Memory) : Prop where
  eth : Defined m 6 6
  ip : SwapIpRead (synAckSized id.mac m)
  tcp : Defined (synAckTurned id m) 34 12

theorem body_tcpSynack_eq_ok {s t : State} {id : Identity} (hs : Roomy s) (hid : s.identity = some id)
    (h : body .tcpSynack s = .ok t) : SynAckRead id s.fb ∧ ∃ bytes, t = { s.bumpIsn with
      fb := synAckMem id s.isn s.fb, tx := s.bumpIsn.tx ++ [⟨58, bytes⟩] } ∧
      IsFrame (synAckMem id s.isn s.fb) 58 bytes := by
  rw [body, tcpSynackBody, needIdentity_some hid, bind_ok] at h
  obtain ⟨s1, h1, h⟩ := bind_eq_ok h
  obtain ⟨s2, h2, h⟩ := bind_eq_ok h
  obtain ⟨s3, h3, h⟩ := bind_eq_ok h
  obtain ⟨s4, h4, h⟩ := bind_eq_ok h
  obtain ⟨s5, h5, h⟩ := bind_eq_ok h
  obtain ⟨s6, h6, h⟩ := bind_eq_ok h
  obtain ⟨heth, rfl⟩ := swapEthernet_eq_ok (s := s) (m := s.fb) h1 hs
  obtain rfl : s2 = s.setFb (synAckSized id.mac s.fb) := memWrite_at_eq_ok h2
  obtain ⟨hip, rfl⟩ := swapIp_eq_ok h3 hs
  obtain rfl : s4 = s.setFb (synAckTurned id s.fb) := fbWrite_at_eq_ok h4
  obtain ⟨htcp, h5⟩ := buildTcpHeader_at_eq_ok h5 hs
  obtain rfl : s5 = s.bumpIsn.setFb (synAckZeroed id s.isn s.fb) := h5
  obtain rfl : s6 = s.bumpIsn.setFb (synAckMem id s.isn s.fb) := fillTcpChecksum_eq_ok h6 hs rfl
  obtain ⟨bytes, rfl, hframe⟩ := send_at_eq_ok h
  exact ⟨⟨heth, hip, htcp⟩, bytes, rfl, hframe⟩

section
variable {id : Identity} {isn : Byte} {m : Memory}

theorem read_synAckSized_kept (h : SynAckRead id m) {a : Nat} (ha : (12 ≤ a ∧ a < 16) ∨ 18 ≤ a) :
    (synAckSized id.mac m).read a = m.read a := by
  rw [synAckSized, read_put2, if_neg (by omega), if_neg (by omega), sameFrom_swapEthMem h.eth a (by omega)]

theorem read_synAckTurned_outsideIp (h : SynAckRead id m) {a : Nat} (ha : a < 20 ∨ a = 23 ∨ (34 ≤ a ∧ a ≠ 47)) :
    (synAckTurned id m).read a = (synAckSized id.mac m).read a := by
  rw [synAckTurned, read_write_other _ _ (by omega), read_swapIpMem_outside h.ip.2.2 (by omega)]

/-- The TCP checksum is the last byte written, and the header builder writes from 34 on. -/
theorem read_synAckMem_ip (h : SynAckRead id m) {a : Nat} (ha : a < 34) :
    (synAckMem id isn m).read a = (swapIpMem id.ip (synAckSized id.mac m)).read a := by
  rw [synAckMem, read_csumMem (by omega) (by omega), synAckZeroed, read_buildTcpMem_outside h.tcp (by omega),
    synAckTurned, read_write_other _ _ (by omega)]

theorem read_synAckMem_tcp {a : Nat} (h50 : a ≠ 50) (h51 : a ≠ 51) :
    (synAckMem id isn m).read a = (synAckZeroed id isn m).read a := by
  rw [synAckMem, read_csumMem h50 h51]

theorem read_synAckMem_sized (h : SynAckRead id m) {a : Nat} (ha : a < 20 ∨ a = 23) :
    (synAckMem id isn m).read a = (synAckSized id.mac m).read a := by
  rw [read_synAckMem_ip h (by omega), read_swapIpMem_outside h.ip.2.2 (by omega)]

theorem read_synAckMem_kept (h : SynAckRead id m) {a : Nat} (ha : (12 ≤ a ∧ a < 16) ∨ (18 ≤ a ∧ a < 20) ∨ a = 23 ∨
    (48 ≤ a ∧ a < 50) ∨ (52 ≤ a ∧ a < 54) ∨ 58 ≤ a) : (synAckMem id isn m).read a = m.read a := by
  by_cases hip : a < 34
  · rw [read_synAckMem_sized h (by omega), read_synAckSized_kept h (by omega)]
  · rw [read_synAckMem_tcp (by omega) (by omega), synAckZeroed, read_buildTcpMem_outside h.tcp (by omega),
      read_synAckTurned_outsideIp h (by omega), read_synAckSized_kept h (by omega)]

theorem read_synAckTurned_tcp (h : SynAckRead id m) {a : Nat} (h34 : 34 ≤ a) (h47 : a < 47) :
    (synAckTurned id m).read a = m.read a := by
  rw [read_synAckTurned_outsideIp h (by omega), read_synAckSized_kept h (by omega)]

theorem ethTurned_synAckMem (h : SynAckRead id m) : EthTurned id m (synAckMem id isn m) :=
  ethTurned_congr (ethTurned_swapEthMem h.eth) fun a ha => by
    rw [read_synAckMem_sized h (by omega), synAckSized, read_put2, if_neg (by omega), if_neg (by omega)]

theorem ipTurned_synAckMem (h : SynAckRead id m) : IpTurned id m (synAckMem id isn m) :=
  ipTurned_congr (ipTurned_swapIpMem h.ip.2.2) (fun a _ _ => read_synAckSized_kept h (by omega))
    fun a _ _ => read_synAckMem_ip h (by omega)

theorem ipNormal_synAckMem (h : SynAckRead id m) : IpNormal (synAckMem id isn m) :=
  ipNormal_congr (ipNormal_swapIpMem _ _) fun a _ _ => read_synAckMem_ip h (by omega)

theorem hasField_length_synAckMem (h : SynAckRead id m) : HasField (synAckMem id isn m) 16 44 :=
  hasField_of_holds (by omega) (by simp [holds_cons, read_synAckMem_sized h, synAckSized, read_put2])

theorem portsExchanged_synAckMem (h : SynAckRead id m) : PortsExchanged m (synAckMem id isn m) :=
  portsExchanged_congr (portsExchanged_buildTcpMem h.tcp) (fun a _ _ => read_synAckTurned_tcp h (by omega) (by omega))
    fun a _ _ => read_synAckMem_tcp (by omega) (by omega)

theorem acknowledges_synAckMem (h : SynAckRead id m) : Acknowledges 1 m (synAckMem id isn m) :=
  acknowledges_congr (acknowledges_buildTcpMem h.tcp) (fun a _ _ => read_synAckTurned_tcp h (by omega) (by omega))
    fun a _ _ => read_synAckMem_tcp (by omega) (by omega)

theorem holds_seq_synAckMem (h : SynAckRead id m) : Holds (synAckMem id isn m) 38 [0x00, 0x00, isn, 0x00] :=
  holds_congr (holds_seq_buildTcpMem h.tcp) fun a _ ha => read_synAckMem_tcp (by simp at ha; omega) (by simp at ha; omega)

theorem holds_flags_synAckMem (h : SynAckRead id m) : Holds (synAckMem id isn m) 46 [0x60, 0x12] := by
  have hlen := holds_cons.mp (holds_headerLen_buildTcpMem (isn := isn) (rel := 1) (mss := true) (copySeq := false) h.tcp)
  have hflags : (synAckZeroed id isn m).read 47 = some 0x12 := by
    rw [synAckZeroed, read_buildTcpMem_outside h.tcp (by omega), synAckTurned, read_write_same]
  simp only [holds_cons, holds_nil, and_true]
  exact ⟨(read_synAckMem_tcp (by omega) (by omega)).trans hlen.1,
    (read_synAckMem_tcp (by omega) (by omega)).trans hflags⟩

theorem holds_option_synAckMem (h : SynAckRead id m) : Holds (synAckMem id isn m) 54 [0x02, 0x04, 0x05, 0x80] :=
  holds_congr (holds_option_buildTcpMem h.tcp) fun a _ _ => read_synAckMem_tcp (by omega) (by omega)

theorem csumField_synAckMem (h : SynAckRead id m) : CsumField (synAckMem id isn m) (6 + 24) 26 32 50 :=
  csumField_csumMem (by omega) (by omega) (by omega)
    (by simp [beAt_two, byteAt, synAckZeroed, read_buildTcpMem h.tcp])

end

/-- Settles O39: the run is inverted to its buffers, and the last of them read off part by part. -/
theorem tcpSynackSendsSynAck : Obligations.TcpSynackSendsSynAck := by
  unfold Obligations.TcpSynackSendsSynAck
  intro s id hl hid hready
  obtain ⟨u, hu⟩ := body_ok_of_ready hl hready
  obtain ⟨h, bytes, ht, hframe⟩ := body_tcpSynack_eq_ok hl.1 hid hu
  have hkept {a : Nat} := read_synAckMem_kept (isn := s.isn) h (a := a)
  exact ⟨_, bytes, exec_of_body_sent hu ht nofun, hframe, ethTurned_synAckMem h, fun a _ _ => hkept (by omega),
    hasField_length_synAckMem h, fun a _ _ => hkept (by omega), ipNormal_synAckMem h, fun a _ _ => hkept (by omega),
    ipTurned_synAckMem h, portsExchanged_synAckMem h, holds_seq_synAckMem h, acknowledges_synAckMem h,
    holds_flags_synAckMem h, fun a _ _ => hkept (by omega), csumField_synAckMem h, fun a _ _ => hkept (by omega),
    holds_option_synAckMem h, fun a ha => hkept (by omega)⟩

end Sys2Proof.Proofs

namespace Sys2Proof.Proofs

open Sys2Proof.Machine Sys2Proof.Safety Sys2Proof.Laws

/-! PROOFS. TCP_ACK_WITH_DATA and TCP_RESPOND_DATA (spec/46_tcp.md section 2): the bare ACK that FB holds becomes a data
segment, for the second command after the payload of PB has been copied behind it. -/

/-! ## 16-bit fields, through later writes -/

theorem hasField_put2 (m : Memory) {a v : Nat} (hv : v < 65536) : HasField (put2 m a v) a v := by
  refine ⟨fun k hk => ?_, beAt_put2 m hv⟩
  rw [read_put2]
  obtain rfl | rfl : k = 0 ∨ k = 1 := by omega
  · rw [if_pos (by omega)]; rfl
  · rw [if_neg (by omega), if_pos rfl]; rfl

theorem hasField_congr {m m' : Memory} {a v : Nat} (h : HasField m a v)
    (hk : ∀ b, a ≤ b → b < a + 2 → m'.read b = m.read b) : HasField m' a v := by
  obtain ⟨hd, hv⟩ := h
  refine ⟨fun k hk2 => ?_, ?_⟩
  · rw [hk _ (by omega) (by omega)]; exact hd k hk2
  · rw [beAt_congr fun k hk2 => hk _ (by omega) (by omega), hv]

theorem read_put2_outside (m : Memory) {a v b : Nat} (h1 : b ≠ a) (h2 : b ≠ a + 1) : (put2 m a v).read b = m.read b := by
  rw [read_put2, if_neg (by omega), if_neg (by omega)]

/-! ## The data segment (R285) -/

/-- The buffer whose IP header is refilled: flags and total length are those of a segment of n bytes. -/
def dataSized (n : Nat) (m : Memory) : Memory := put2 (m.write 47 0x19) 16 (40 + n)

/-- The buffer that is checksummed: the whole segment with the TCP checksum field zero. -/
def dataZeroed (n : Nat) (m : Memory) : Memory := put2 (fillIpMem (dataSized n m)) 50 0

/-- The buffer that is sent, from the buffer with the payload in place. -/
def dataMem (n : Nat) (m : Memory) : Memory := csumMem (6 + (20 + n)) (28 + n) 50 (dataZeroed n m)

/-- What the two commands share, from the flags on. -/
theorem ackWithData_eq_ok {s t : State} {m : Memory} {n : Nat} (hs : Roomy s) (h : ackWithData n (s.setFb m) = .ok t) :
    ∃ bytes, t = { s with fb := dataMem n m, tx := s.tx ++ [⟨54 + n, bytes⟩] } ∧ IsFrame (dataMem n m) (54 + n) bytes := by
  obtain ⟨s1, h1, h⟩ := bind_eq_ok h
  obtain ⟨s2, h2, h⟩ := bind_eq_ok h
  obtain ⟨s3, h3, h⟩ := bind_eq_ok h
  obtain ⟨s4, h4, h⟩ := bind_eq_ok h
  obtain ⟨s5, h5, h⟩ := bind_eq_ok h
  obtain rfl := fbWrite_at_eq_ok h1
  obtain rfl : s2 = s.setFb (dataSized n m) := memWrite_at_eq_ok h2
  obtain ⟨h3, -⟩ := fillIpChecksum_eq_ok h3
  obtain rfl : s3 = s.setFb (fillIpMem (dataSized n m)) := h3
  obtain rfl : s4 = s.setFb (dataZeroed n m) := memWrite_at_eq_ok h4
  obtain rfl : s5 = s.setFb (dataMem n m) := fillTcpChecksum_eq_ok h5 hs (by omega)
  rw [show 20 + 20 + n + 14 = 54 + n by omega] at h
  exact send_at_eq_ok h

section
variable {n : Nat} {m : Memory}

/-- After the IP header only the TCP checksum is written. -/
theorem read_dataMem_ip {a : Nat} (h50 : a ≠ 50) (h51 : a ≠ 51) :
    (dataMem n m).read a = (fillIpMem (dataSized n m)).read a := by
  rw [dataMem, read_csumMem h50 h51, dataZeroed, read_put2_outside _ h50 h51]

theorem read_dataMem_sized {a : Nat} (ha : a < 20 ∨ a = 23 ∨ (26 ≤ a ∧ a < 50) ∨ 52 ≤ a) :
    (dataMem n m).read a = (dataSized n m).read a := by
  rw [read_dataMem_ip (by omega) (by omega), read_fillIpMem_outside (by omega)]

theorem read_dataMem_kept {a : Nat} (ha : a < 16 ∨ (18 ≤ a ∧ a < 20) ∨ a = 23 ∨ (26 ≤ a ∧ a < 47) ∨
    (48 ≤ a ∧ a < 50) ∨ 52 ≤ a) : (dataMem n m).read a = m.read a := by
  rw [read_dataMem_sized (by omega), dataSized, read_put2_outside _ (by omega) (by omega),
    read_write_other _ _ (by omega)]

theorem hasField_length_dataMem (hn : 40 + n < 65536) : HasField (dataMem n m) 16 (40 + n) :=
  hasField_congr (hasField_put2 _ hn) fun b _ _ => read_dataMem_sized (by omega)

theorem ipNormal_dataMem : IpNormal (dataMem n m) :=
  ipNormal_congr (ipNormal_fillIpMem _) fun a _ _ => read_dataMem_ip (by omega) (by omega)

theorem holds_flags_dataMem : Holds (dataMem n m) 47 [0x19] := by
  refine holds_cons.mpr ⟨?_, holds_nil _ _⟩
  rw [read_dataMem_sized (by omega), dataSized, read_put2_outside _ (by omega) (by omega), read_write_same]

theorem csumField_dataMem : CsumField (dataMem n m) (6 + (20 + n)) 26 (28 + n) 50 :=
  csumField_csumMem (by omega) (by omega) (by omega) (beAt_put2 _ (by omega))

end

/-! ## TCP_ACK_WITH_DATA (R285) -/

/-- Settles O41: the buffer the run leaves is `dataMem` of FB, read off part by part. -/
theorem tcpAckWithDataSendsSegment : Obligations.TcpAckWithDataSendsSegment := by
  unfold Obligations.TcpAckWithDataSendsSegment
  rintro s l hl ⟨-, hu, hr⟩
  have hin : 54 + l.toNat ≤ s.params.bufSize := by simpa [lengthsFit] using lengthsFit_of_upFront hu
  have hlen : 40 + l.toNat < 65536 := by have := hl.2.1; omega
  obtain ⟨t, ht⟩ := body_tcpAckWithData_ok hl.1 hu hr
  obtain ⟨-, -, hbody⟩ := bind_eq_ok ht
  obtain ⟨-, -, hbody⟩ := bind_eq_ok hbody
  obtain ⟨bytes, heq, hframe⟩ := ackWithData_eq_ok (s := s) (m := s.fb) hl.1 hbody
  exact ⟨_, bytes, exec_of_body_sent ht heq nofun, hframe, fun a _ _ => read_dataMem_kept (by omega),
    hasField_length_dataMem hlen, fun a _ _ => read_dataMem_kept (by omega), ipNormal_dataMem,
    fun a _ _ => read_dataMem_kept (by omega), fun a _ _ => read_dataMem_kept (by omega), holds_flags_dataMem,
    fun a _ _ => read_dataMem_kept (by omega), csumField_dataMem, fun a ha => read_dataMem_kept (by omega)⟩

/-! ## TCP_RESPOND_DATA (R286) -/

/-- The buffer with n bytes of PB at offset 54. -/
def withPayload (pb : Memory) (n : Nat) (m : Memory) : Memory := m.writeBytes 54 (bytesOf pb n)

theorem read_withPayload_outside {pb m : Memory} {n a : Nat} (h : a < 54 ∨ 54 + n ≤ a) :
    (withPayload pb n m).read a = m.read a := by
  rw [withPayload, read_writeBytes, length_bytesOf, if_neg (by omega)]

theorem copied_withPayload {pb m : Memory} {n : Nat} (h : Defined pb 0 n) : Copied 0 54 n pb (withPayload pb n m) := by
  intro k hk
  rw [withPayload, read_writeBytes, length_bytesOf, if_pos (by omega), Nat.add_sub_cancel_left, getElem?_bytesOf pb hk,
    read_of_defined h (by omega) (by omega), Nat.zero_add]

theorem body_tcpRespondData_eq_ok {s t : State} {l : Half} (hs : Roomy s) (hpb : Defined s.pb 0 l.toNat)
    (hp : l.toNat ≤ s.params.pbSize) (hin : 54 + l.toNat ≤ s.params.bufSize)
    (h : body (.tcpRespondData l) s = .ok t) : ∃ bytes,
      t = { s with
        fb := dataMem l.toNat (withPayload s.pb l.toNat s.fb), tx := s.tx ++ [⟨54 + l.toNat, bytes⟩] } ∧
      IsFrame (dataMem l.toNat (withPayload s.pb l.toNat s.fb)) (54 + l.toNat) bytes := by
  obtain ⟨-, -, h⟩ := bind_eq_ok h
  obtain ⟨-, -, h⟩ := bind_eq_ok h
  obtain ⟨u, hcopy, h⟩ := bind_eq_ok h
  obtain rfl : u = s.setFb (withPayload s.pb l.toNat s.fb) :=
    eq_of_two_results hcopy (copyPayload_ok (s := s) hp hin hpb)
  exact ackWithData_eq_ok hs h

/-- Settles O42: as O41, over the buffer with the payload in place. -/
theorem tcpRespondDataSendsSegment : Obligations.TcpRespondDataSendsSegment := by
  unfold Obligations.TcpRespondDataSendsSegment
  rintro s l hl ⟨-, hu, hr⟩
  obtain ⟨hp, hin⟩ : l.toNat ≤ s.params.pbSize ∧ 54 + l.toNat ≤ s.params.bufSize := by
    simpa [lengthsFit] using lengthsFit_of_upFront hu
  have hlen : 40 + l.toNat < 65536 := by have := hl.2.1; omega
  have hpb : Defined s.pb 0 l.toNat := fun k hk => hr.2 _ (by simpa [readsPb] using hk)
  obtain ⟨t, ht⟩ := body_tcpRespondData_ok hl.1 hu hr
  obtain ⟨bytes, heq, hframe⟩ := body_tcpRespondData_eq_ok hl.1 hpb hp hin ht
  have hkept {a : Nat} (ha : a < 16 ∨ (18 ≤ a ∧ a < 20) ∨ a = 23 ∨ (26 ≤ a ∧ a < 47) ∨ (48 ≤ a ∧ a < 50) ∨
      (52 ≤ a ∧ a < 54) ∨ 54 + l.toNat ≤ a) :
      (dataMem l.toNat (withPayload s.pb l.toNat s.fb)).read a = s.fb.read a := by
    rw [read_dataMem_kept (by omega), read_withPayload_outside (by omega)]
  exact ⟨_, bytes, exec_of_body_sent ht heq nofun, hframe, fun a _ _ => hkept (by omega),
    hasField_length_dataMem hlen, fun a _ _ => hkept (by omega), ipNormal_dataMem, fun a _ _ => hkept (by omega),
    fun a _ _ => hkept (by omega), holds_flags_dataMem, fun a _ _ => hkept (by omega), csumField_dataMem,
    fun a _ _ => hkept (by omega), copied_congr (copied_withPayload hpb) (fun _ _ _ => rfl)
      fun a _ _ => read_dataMem_kept (by omega), fun a ha => hkept (by omega)⟩

end Sys2Proof.Proofs

namespace Sys2Proof.Proofs

open Sys2Proof.Machine Sys2Proof.Safety Sys2Proof.Laws

/-! PROOFS. TCP_CLIENT (spec/46_tcp.md section 3): the buffers of the command, one for each part of the envelope, and the
segment they end in. -/

/-! ## The parts that read nothing -/

/-- The buffer with both MACs written. -/
def macsMem (dst src : BitVec 48) (m : Memory) : Memory :=
  [0, 1, 2, 3, 4, 5].foldl (fun m i => (m.write i (macByte dst i)).write (6 + i) (macByte src i)) m

theorem ethLoop_ok {s : State} {m : Memory} (dst src : BitVec 48) (hs : Roomy s) :
    forEach (fun i s => do
      let s ← s.fbWrite (ethDst + i) (macByte dst i)
      s.fbWrite (ethSrc + i) (macByte src i)) [0, 1, 2, 3, 4, 5] (s.setFb m) = .ok (s.setFb (macsMem dst src m)) := by
  simp [macsMem, fbWrite_low, hs]

theorem read_macsMem (dst src : BitVec 48) (m : Memory) (a : Nat) : (macsMem dst src m).read a =
    if a < 6 then some (macByte dst a) else if a < 12 then some (macByte src (a - 6)) else m.read a := by
  by_cases ha : a < 12
  · interval_cases a <;> simp [macsMem]
  · rw [if_neg (by omega), if_neg ha]
    simp only [macsMem, List.foldl_cons, List.foldl_nil, read_write, Nat.reduceAdd]
    repeat rw [if_neg (by omega)]

theorem and_flagSyn_bne (flags : Byte) : (flags &&& flagSyn != 0) = flags.getLsbD 1 := by
  revert flags; decide

/-- The buffer with the acknowledgment number of a SYN cleared. -/
def clearMem (z : Bool) (flags : Byte) (m : Memory) : Memory :=
  if z = true ∧ flags.getLsbD 1 = true then m.writeBytes 42 [0x00, 0x00, 0x00, 0x00] else m

theorem clearAck_ok {s : State} {m : Memory} (z : Bool) (flags : Byte) (hs : Roomy s) :
    clearAck z flags (s.setFb m) = .ok (s.setFb (clearMem z flags m)) := by
  rw [clearAck, clearMem, and_flagSyn_bne]
  simp only [Bool.and_eq_true]
  split
  · exact fbWriteBytes_at (by simp; omega)
  · rfl

theorem read_clearMem_outside {z : Bool} {flags : Byte} {m : Memory} {a : Nat} (ha : a < 42 ∨ 46 ≤ a) :
    (clearMem z flags m).read a = m.read a := by
  unfold clearMem
  split
  · rw [read_writeBytes, if_neg (by simp; omega)]
  · rfl

/-- The buffer with the MSS option and the window of M = 1. -/
def clientOptMem (mss : Bool) (window : Half) (m : Memory) : Memory :=
  if mss then put2 (m.writeBytes 54 mssOption) 48 window.toNat else m

theorem clientOptions_ok {s : State} {m : Memory} (mss : Bool) (hs : Roomy s) :
    clientOptions mss (s.setFb m) = .ok (s.setFb (clientOptMem mss s.params.clientWindow m)) := by
  cases mss with
  | false => rfl
  | true =>
    have hopt : (s.setFb m).fbWriteBytes 54 mssOption = .ok (s.setFb (m.writeBytes 54 mssOption)) :=
      fbWriteBytes_at (by simp; omega)
    rw [clientOptions, if_pos rfl, hopt, bind_ok, memWrite_low hs (by simp)]
    rfl

theorem read_clientOptMem_outside {mss : Bool} {window : Half} {m : Memory} {a : Nat}
    (ha : mss = false ∨ a < 48 ∨ (50 ≤ a ∧ a < 54) ∨ 58 ≤ a) : (clientOptMem mss window m).read a = m.read a := by
  cases mss with
  | false => rfl
  | true =>
    rw [clientOptMem, if_pos rfl, read_put2_outside _ (by simp at ha; omega) (by simp at ha; omega), read_writeBytes,
      if_neg (by simp at ha ⊢; omega)]

theorem holds_option_clientOptMem (window : Half) (m : Memory) :
    Holds (clientOptMem true window m) 54 [0x02, 0x04, 0x05, 0x80] :=
  holds_congr (holds_writeBytes m 54 mssOption) fun _ _ _ => read_put2_outside _ (by omega) (by omega)

/-! ## The buffers of the command -/

/-- What a client segment is made of: the addresses, the host's arguments, the counter and the fields of the command. -/
structure ClientSegment where
  dmac : BitVec 48
  id : Identity
  dip : BitVec 32
  ident : Half
  sport : Half
  dport : Half
  flags : Byte
  rel : Half
  window : Half
  mss : Bool
  z : Bool
  len : Nat

section
variable (c : ClientSegment) (m : Memory)

/-- The two numbers and the Ethernet header. -/
def clientStart : Memory :=
  put2 (macsMem c.dmac c.id.mac (clearMem c.z c.flags (ackMem true c.rel.toNat m))) 12 0x0800

/-- Then the IP header. -/
def clientIp : Memory := newIpMem c.id.ip c.dip c.ident (20 + clientHdr c.mss + c.len) (clientStart c m)

/-- Then the ports, the header length and the flags. -/
def clientTcp : Memory :=
  ((put2 (put2 (clientIp c m) 34 c.sport.toNat) 36 c.dport.toNat).write 46 (if c.mss then 0x60 else 0x50)).write 47 c.flags

/-- Then the option and the window, and the TCP checksum field zero. -/
def clientZeroed : Memory := put2 (clientOptMem c.mss c.window (clientTcp c m)) 50 0

/-- The buffer TCP_CLIENT sends. -/
def clientMem : Memory :=
  csumMem (6 + (clientHdr c.mss + c.len)) (8 + clientHdr c.mss + c.len) 50 (clientZeroed c m)

end

/-! ## The run -/

theorem clientFrame_eq_ok {s t : State} {c : ClientSegment} (hs : Roomy s) (hident : c.ident = s.ipid)
    (hwindow : c.window = s.params.clientWindow)
    (h : clientFrame c.id c.dport c.sport c.flags c.rel c.dmac c.dip c.mss c.z c.len s = .ok t) :
    t = s.bumpIpid.setFb (clientMem c s.fb) := by
  obtain ⟨s1, h1, h⟩ := bind_eq_ok h
  obtain ⟨s2, h2, h⟩ := bind_eq_ok h
  obtain ⟨s3, h3, h⟩ := bind_eq_ok h
  obtain ⟨s4, h4, h⟩ := bind_eq_ok h
  obtain ⟨s5, h5, h⟩ := bind_eq_ok h
  obtain ⟨s6, h6, h⟩ := bind_eq_ok h
  obtain ⟨s7, h7, h⟩ := bind_eq_ok h
  obtain ⟨s8, h8, h⟩ := bind_eq_ok h
  obtain ⟨s9, h9, h⟩ := bind_eq_ok h
  obtain ⟨s10, h10, h⟩ := bind_eq_ok h
  obtain ⟨s11, h11, h⟩ := bind_eq_ok h
  have hb : Roomy s.bumpIpid := hs
  obtain rfl := ackLoop_all_eq_ok hs h1
  obtain rfl := eq_of_two_results h2 (clearAck_ok c.z c.flags hs)
  obtain rfl := eq_of_two_results h3 (ethLoop_ok c.dmac c.id.mac hs)
  obtain rfl : s4 = s.setFb (clientStart c s.fb) := memWrite_at_eq_ok h4
  have hip := newIpHeaderForTcp_ok (m := clientStart c s.fb) (id := c.id) (tl := 20 + clientHdr c.mss + c.len)
    (dip := c.dip) hs
  rw [← hident] at hip
  obtain rfl : s5 = s.bumpIpid.setFb (clientIp c s.fb) := eq_of_two_results h5 hip
  obtain rfl := memWrite_at_eq_ok h6
  obtain rfl := memWrite_at_eq_ok h7
  obtain rfl := fbWrite_at_eq_ok h8
  obtain rfl : s9 = s.bumpIpid.setFb (clientTcp c s.fb) := fbWrite_at_eq_ok h9
  have hopt := clientOptions_ok (m := clientTcp c s.fb) c.mss hb
  rw [bumpIpid_params, ← hwindow] at hopt
  obtain rfl := eq_of_two_results h10 hopt
  obtain rfl : s11 = s.bumpIpid.setFb (clientZeroed c s.fb) := memWrite_at_eq_ok h11
  exact fillTcpChecksum_eq_ok h hb (Nat.add_assoc _ _ _)

theorem body_tcpClient_eq_ok {s t : State} {c : ClientSegment} {l : Half} (hs : Roomy s)
    (hid : s.identity = some c.id) (hdport : s.argPort = some c.dport) (hsport : s.argSport = some c.sport)
    (hflags : s.argFlags = some c.flags) (hrel : s.argAck = some c.rel) (hdmac : s.argMac = some c.dmac)
    (hdip : s.argIp = some c.dip) (hident : c.ident = s.ipid) (hwindow : c.window = s.params.clientWindow)
    (hlen : c.len = l.toNat) (h : body (.tcpClient c.mss c.z l) s = .ok t) : ∃ bytes,
      t = { s.bumpIpid with
        fb := clientMem c s.fb, tx := s.bumpIpid.tx ++ [⟨34 + clientHdr c.mss + l.toNat, bytes⟩] } ∧
      IsFrame (clientMem c s.fb) (34 + clientHdr c.mss + l.toNat) bytes := by
  rw [body, tcpClientBody, needIdentity_some hid, hdport, hsport, hflags, hrel, hdmac, hdip] at h
  simp only [orUndef_some, bind_ok, ← hlen] at h
  obtain ⟨-, -, h⟩ := bind_eq_ok h
  obtain ⟨u, hframe, h⟩ := bind_eq_ok h
  obtain rfl := clientFrame_eq_ok hs hident hwindow hframe
  rw [← hlen]
  exact send_at_eq_ok h

/-! ## What each part leaves -/

section
variable {c : ClientSegment} {m : Memory}

theorem read_clientMem_tcp {a : Nat} (h50 : a ≠ 50) (h51 : a ≠ 51)
    (ha : c.mss = false ∨ a < 48 ∨ (52 ≤ a ∧ a < 54) ∨ 58 ≤ a) : (clientMem c m).read a = (clientTcp c m).read a := by
  rw [clientMem, read_csumMem h50 h51, clientZeroed, read_put2_outside _ h50 h51,
    read_clientOptMem_outside (ha.imp_right fun h => by omega)]

theorem read_clientTcp_ip {a : Nat} (ha : a < 34 ∨ (38 ≤ a ∧ a < 46) ∨ 48 ≤ a) :
    (clientTcp c m).read a = (clientIp c m).read a := by
  rw [clientTcp, read_write_other _ _ (by omega), read_write_other _ _ (by omega),
    read_put2_outside _ (by omega) (by omega), read_put2_outside _ (by omega) (by omega)]

theorem read_clientMem_ip {a : Nat} (ha : a < 34 ∨ (38 ≤ a ∧ a < 46)) :
    (clientMem c m).read a = (clientIp c m).read a := by
  rw [read_clientMem_tcp (by omega) (by omega) (by omega), read_clientTcp_ip (by omega)]

theorem read_clientMem_start {a : Nat} (ha : a < 14 ∨ (38 ≤ a ∧ a < 46)) :
    (clientMem c m).read a = (clientStart c m).read a := by
  rw [read_clientMem_ip (by omega), clientIp, read_newIpMem_outside (by omega)]

theorem read_clientStart_cleared {a : Nat} (ha : 14 ≤ a) :
    (clientStart c m).read a = (clearMem c.z c.flags (ackMem true c.rel.toNat m)).read a := by
  rw [clientStart, read_put2_outside _ (by omega) (by omega), read_macsMem, if_neg (by omega), if_neg (by omega)]

/-- The bytes TCP_CLIENT does not write. -/
theorem read_clientMem_kept {a : Nat} (ha : (48 ≤ a ∧ a < 50 ∧ c.mss = false) ∨ (52 ≤ a ∧ a < 54) ∨
    (54 ≤ a ∧ c.mss = false) ∨ 58 ≤ a) : (clientMem c m).read a = m.read a := by
  rw [read_clientMem_tcp (by omega) (by omega) (by grind), read_clientTcp_ip (by omega), clientIp,
    read_newIpMem_outside (by omega), read_clientStart_cleared (by omega), read_clearMem_outside (by omega),
    read_ackMem_other (by omega)]

theorem holds_dmac_clientMem : Holds (clientMem c m) 0 (macBytes c.dmac) := by
  simp [macBytes, holds_cons, read_clientMem_start, clientStart, read_put2, read_macsMem]

theorem holds_smac_clientMem : Holds (clientMem c m) 6 (macBytes c.id.mac) := by
  simp [macBytes, holds_cons, read_clientMem_start, clientStart, read_put2, read_macsMem]

theorem holds_type_clientMem : Holds (clientMem c m) 12 [0x08, 0x00, 0x45, 0x00] := by
  simp [holds_cons, read_clientMem_start, read_clientMem_ip, clientStart, clientIp, read_put2, read_newIpMem]

theorem hasField_length_clientMem (h : 20 + clientHdr c.mss + c.len < 65536) :
    HasField (clientMem c m) 16 (20 + clientHdr c.mss + c.len) :=
  hasField_of_holds h (by simp [holds_cons, read_clientMem_ip, clientIp, read_newIpMem])

theorem hasField_ident_clientMem : HasField (clientMem c m) 18 c.ident.toNat :=
  hasField_of_holds c.ident.isLt (by simp [holds_cons, read_clientMem_ip, clientIp, read_newIpMem])

theorem ipNormal_clientMem : IpNormal (clientMem c m) :=
  ipNormal_congr (ipNormal_fillIpMem _) fun _ _ _ => read_clientMem_ip (by omega)

theorem holds_protocol_clientMem : Holds (clientMem c m) 23 [6] := by
  simp [holds_cons, read_clientMem_ip, clientIp, read_newIpMem]

theorem holds_source_clientMem : Holds (clientMem c m) 26 (ipBytes c.id.ip) := by
  simp [holds_cons, ipBytes, read_clientMem_ip, clientIp, read_newIpMem]

theorem holds_destination_clientMem : Holds (clientMem c m) 30 (ipBytes c.dip) := by
  simp [holds_cons, ipBytes, read_clientMem_ip, clientIp, read_newIpMem]

theorem hasField_sport_clientMem : HasField (clientMem c m) 34 c.sport.toNat :=
  hasField_congr (hasField_put2 (clientIp c m) c.sport.isLt) fun a _ _ => by
    rw [read_clientMem_tcp (by omega) (by omega) (by omega), clientTcp, read_write_other _ _ (by omega),
      read_write_other _ _ (by omega), read_put2_outside _ (by omega) (by omega)]

theorem hasField_dport_clientMem : HasField (clientMem c m) 36 c.dport.toNat :=
  hasField_congr (hasField_put2 (put2 (clientIp c m) 34 c.sport.toNat) c.dport.isLt) fun a _ _ => by
    rw [read_clientMem_tcp (by omega) (by omega) (by omega), clientTcp, read_write_other _ _ (by omega),
      read_write_other _ _ (by omega)]

theorem holds_flags_clientMem : Holds (clientMem c m) 46 [if c.mss then 0x60 else 0x50, c.flags] := by
  simp [holds_cons, read_clientMem_tcp, clientTcp]

theorem copied_seq_clientMem (h : Defined m 38 8) : Copied 42 38 4 m (clientMem c m) := fun k hk => by
  rw [read_clientMem_start (by omega), read_clientStart_cleared (by omega), read_clearMem_outside (by omega),
    read_ackMem_seq hk, if_pos rfl, read_of_defined h (by omega) (by omega)]

/-- The acknowledgment number is that of the loop, or cleared. -/
theorem read_clientMem_ack {a : Nat} (h1 : 42 ≤ a) (h2 : a < 46) :
    (clientMem c m).read a = (clearMem c.z c.flags (ackMem true c.rel.toNat m)).read a := by
  rw [read_clientMem_start (by omega), read_clientStart_cleared (by omega)]

theorem holds_cleared_clientMem (h : c.z = true ∧ c.flags.getLsbD 1 = true) :
    Holds (clientMem c m) 42 [0x00, 0x00, 0x00, 0x00] :=
  holds_congr (holds_writeBytes (ackMem true c.rel.toNat m) 42 _) fun a h1 h2 => by
    rw [read_clientMem_ack h1 h2, clearMem, if_pos h]

theorem acknowledges_clientMem (h : ¬ (c.z = true ∧ c.flags.getLsbD 1 = true)) :
    Acknowledges c.rel.toNat m (clientMem c m) := by
  have hloop : Acknowledges c.rel.toNat m (ackMem true c.rel.toNat m) :=
    ⟨defined_sub defined_ackMem (by omega) (by omega), beAt_ackMem⟩
  exact acknowledges_congr hloop (fun _ _ _ => rfl) fun a h1 h2 => by
    rw [read_clientMem_ack h1 h2, clearMem, if_neg h]

theorem hasField_window_clientMem (h : c.mss = true) : HasField (clientMem c m) 48 c.window.toNat :=
  hasField_congr (hasField_put2 ((clientTcp c m).writeBytes 54 mssOption) c.window.isLt) fun a _ _ => by
    rw [clientMem, read_csumMem (by omega) (by omega), clientZeroed, read_put2_outside _ (by omega) (by omega),
      clientOptMem, if_pos h]

theorem holds_option_clientMem (h : c.mss = true) : Holds (clientMem c m) 54 [0x02, 0x04, 0x05, 0x80] :=
  holds_congr (holds_option_clientOptMem c.window (clientTcp c m)) fun a _ _ => by
    rw [clientMem, read_csumMem (by omega) (by omega), clientZeroed, read_put2_outside _ (by omega) (by omega), h]

theorem csumField_clientMem : CsumField (clientMem c m) (6 + (clientHdr c.mss + c.len)) 26
    (8 + clientHdr c.mss + c.len) 50 := by
  have hhdr : 20 ≤ clientHdr c.mss := by cases c.mss <;> simp [clientHdr]
  exact csumField_csumMem (by omega) (by omega) (by omega) (beAt_put2 _ (by omega))

end

/-- Settles O43: the run is inverted to its buffers, and the last of them read off part by part. -/
theorem tcpClientSendsSegment : Obligations.TcpClientSendsSegment := by
  unfold Obligations.TcpClientSendsSegment
  intro s mss z l dport sport rel flags dmac dip id hl hid hdport hsport hflags hrel hdmac hdip hready h
  let c : ClientSegment :=
    ⟨dmac, id, dip, s.ipid, sport, dport, flags, rel, s.params.clientWindow, mss, z, l.toNat⟩
  have hd : Defined s.fb 38 8 := fun k hk => hready.2.2.1 _ (by simp [readsFb, within]; omega)
  have hin : 34 + clientHdr c.mss + l.toNat ≤ s.params.bufSize := by
    simpa [lengthsFit] using lengthsFit_of_upFront hready.2.1
  have hlen : 20 + clientHdr c.mss + l.toNat < 65536 := by have := hl.2.1; omega
  obtain ⟨t, ht⟩ := body_ok_of_ready hl hready
  obtain ⟨bytes, heq, hframe⟩ := body_tcpClient_eq_ok (c := c) hl.1 hid hdport hsport hflags hrel hdmac hdip rfl rfl rfl ht
  have hkept {a : Nat} := read_clientMem_kept (c := c) (m := s.fb) (a := a)
  refine ⟨_, bytes, exec_of_body_sent ht heq nofun, hframe, holds_dmac_clientMem, holds_smac_clientMem,
    holds_type_clientMem, hasField_length_clientMem hlen, hasField_ident_clientMem, ipNormal_clientMem,
    holds_protocol_clientMem, holds_source_clientMem, holds_destination_clientMem, hasField_sport_clientMem,
    hasField_dport_clientMem, copied_seq_clientMem hd, ?ack, holds_flags_clientMem, ?window, csumField_clientMem,
    fun a _ _ => hkept (by omega), ?option, fun a ha => hkept (by omega)⟩
  case ack =>
    split
    · exact holds_cleared_clientMem (c := c) ‹_›
    · exact acknowledges_clientMem (c := c) ‹_›
  case window =>
    cases mss with
    | true => exact hasField_window_clientMem (c := c) rfl
    | false => exact fun a _ _ => hkept (.inl ⟨by omega, by omega, rfl⟩)
  case option =>
    cases mss with
    | true => exact holds_option_clientMem (c := c) rfl
    | false => exact fun a _ _ => hkept (.inr (.inr (.inl ⟨by omega, rfl⟩)))

end Sys2Proof.Proofs
